-- ==== Sys2Proof/Word.lean ====
section
/-! DEFINITION. The four word widths of the block: a byte symbol (`SYMW` = 8), a slot index (`IDXW` = 7), a digit
group (`GW` = 16) and an `amount` operand (`AMTW` = 8), as rule R5 of 00_scope.md names them. -/

namespace Sys2Proof

/-- A byte symbol, 8 bits, bit 7 most significant (R5, R6). -/
abbrev Byte := BitVec 8

/-- The index of a buffer slot, 7 bits: its arithmetic is modulo 128 (R5, R10). -/
abbrev SlotIdx := BitVec 7

/-- The storage of one digit group, 16 bits unsigned (R5, R33). -/
abbrev Group := BitVec 16

/-- The `amount` operand of INCREMENT, REFILL and INVALIDATE, 8 bits unsigned; values 0..128 occur (R5, R200, R121,
R126). -/
abbrev Amount := BitVec 8

end Sys2Proof
end

