-- ==== Sys2Proof/Syntax.lean ====
section
/-! DEFINITION. The instructions: one constructor per row of opcode_table.json. A packet's payload is no part of the
instruction: it stands in the buffer slots after the code byte, and the instruction reads it there (R173, R174). -/

namespace Sys2Proof

/-- The four code-byte kinds the decoder executes (R94 of 30_encoding.md) and the two host commands (R102). -/
inductive Instr where
  /-- `END`, code byte 0x00: the terminator (R171). -/
  | endStream
  /-- `RESERVED_0x80`, code byte 0x80: the literal flag with L = 0 (R96, R172). -/
  | reserved80
  /-- `REP`, code bytes 0x01..0x7F: `count` is the field `N` = R (R174). -/
  | rep (count : BitVec 7)
  /-- `LIT`, code bytes 0x81..0xFF: `length` is the field `N` = L (R173). -/
  | lit (length : BitVec 7)
  /-- `COMPRESS`, a write of `CTRL` with START = 1, MODE = 0 (R102, R151). -/
  | compress
  /-- `DECOMPRESS`, a write of `CTRL` with START = 1, MODE = 1 (R102, R179). -/
  | decompress
  deriving DecidableEq, Repr

end Sys2Proof
end

