-- ==== Sys2Proof/WellFormed.lean ====
section
/-! DEFINITION. Which instructions are well formed: the constraints of opcode_table.json ("R != 0", "L != 0"), rule R90
of 30_encoding.md. The decoder answers no other. -/

namespace Sys2Proof

/-- R in 1..127 for a repeat packet, L in 1..127 for a literal packet; the other instructions have no operand (R90). -/
def Instr.wellFormed : Instr → Bool
  | .endStream => true
  | .reserved80 => true
  | .rep count => count != 0
  | .lit length => length != 0
  | .compress => true
  | .decompress => true

end Sys2Proof
end

