-- ==== Sys2Proof/Decode.lean ====
section
/-! DEFINITION. The decoder and the encoder. A code byte (R90 to R94 of 30_encoding.md) and a host command (R102) are two
encodings read in two places, so a word to decode says which of the two it is. -/

namespace Sys2Proof

/-! ### Fields of a code byte -/

/-- `F`, bit 7, the kind flag: 1 = literal (R69, R90, R92). -/
def codeFlag (c : Byte) : Bool := c.getLsbD 7

/-- `N`, bits 6:0, the length field, neither scaled nor biased (R69, R90, R92). -/
def codeLength (c : Byte) : BitVec 7 := c.setWidth 7

/-! ### Decoding -/

/-- A word in one of the two encodings: a code byte, or the two bits written to `CTRL`. -/
inductive Encoding where
  /-- A byte in code-byte position (R94). -/
  | code (c : Byte)
  /-- The value of a write to `CTRL`: bit 0 = START, bit 1 = MODE (R38, R102). -/
  | ctrl (v : BitVec 2)
  deriving DecidableEq, Repr

/-- Why a word or a byte list decodes to no instruction. -/
inductive DecodeError where
  /-- The byte list is empty: there is no code byte. -/
  | noCodeByte
  /-- The byte list ends inside the packet its code byte declares (R242). -/
  | truncated
  /-- A write of `CTRL` with START = 0 is no command (R38). -/
  | noStart
  deriving DecidableEq, Repr

/-- The code-byte map: its rows tested in the order END, reserved 0x80, REP, LIT. All 256 values are assigned (R94, R99). -/
def decodeCode (c : Byte) : Instr :=
  if c = 0x00#8 then .endStream
  else if c = 0x80#8 then .reserved80
  else if codeFlag c then .lit (codeLength c)
  else .rep (codeLength c)

/-- The command of a write to `CTRL` (R38, R102): none when START is 0. -/
def decodeCtrl (v : BitVec 2) : Except DecodeError Instr :=
  if v.getLsbD 0 then .ok (if v.getLsbD 1 then .decompress else .compress)
  else .error .noStart

/-- The instruction of a word, or why there is none. -/
def decode : Encoding → Except DecodeError Instr
  | .code c => .ok (decodeCode c)
  | .ctrl v => decodeCtrl v

/-- How many payload bytes follow the code byte: L for a literal, 1 for a repeat, none otherwise (R90, R93). -/
def Instr.payloadLen : Instr → Nat
  | .rep _ => 1
  | .lit length => length.toNat
  | .endStream | .reserved80 | .compress | .decompress => 0

/-- The packet at the head of a byte list: its instruction, its payload, and the bytes after it (R93). -/
def decodePacket : List Byte → Except DecodeError (Instr × List Byte × List Byte)
  | [] => .error .noCodeByte
  | c :: rest =>
    let i := decodeCode c
    if rest.length < i.payloadLen then .error .truncated
    else .ok (i, rest.take i.payloadLen, rest.drop i.payloadLen)

/-! ### Encoding -/

/-- The code byte `0x80 | L` of a literal packet (R92, R146). -/
def litCode (length : BitVec 7) : Byte := 0x80#8 ||| length.setWidth 8

/-- The code byte `0x00 | R` of a repeat packet (R92, R145). -/
def repCode (count : BitVec 7) : Byte := 0x00#8 ||| count.setWidth 8

/-- The word of an instruction (R90, R94, R102). -/
def encode : Instr → Encoding
  | .endStream => .code 0x00#8
  | .reserved80 => .code 0x80#8
  | .rep count => .code (repCode count)
  | .lit length => .code (litCode length)
  | .compress => .ctrl 0b01#2
  | .decompress => .ctrl 0b11#2

/-- The bytes of a packet, code byte first, then the payload in order (R68); none for a host command. -/
def encodePacket (i : Instr) (payload : List Byte) : Option (List Byte) :=
  match encode i with
  | .code c => some (c :: payload)
  | .ctrl _ => none

/-! ### Words numbered as opcode_table.json numbers them -/

/-- Byte `k` of a word of `nbits` bits; the bits above `nbits` are 0. -/
def tableByte (nbits w k : Nat) : Byte := BitVec.ofNat 8 ((w % 2 ^ nbits) >>> (8 * k))

/-- Whether a table word is a host command. A command has 2 bits, one whole byte with zeros above, and so has the same
bits as the code byte of `REP 1` or `REP 3`; of the two readings a word of at most one byte takes the command, and those
two packets are given with their payload byte, as words of 16 bits. Only the two functions for table words use this; the
machine tells the two apart by where it reads them. DESIGN CHOICE (log 12), safe. -/
def isTableCommand (nbits w : Nat) : Bool :=
  decide (nbits ≤ 8) && (w % 2 ^ nbits == 1 || w % 2 ^ nbits == 3)

/-- The bytes of the packet a table word begins: the code byte and as many payload bytes as it declares (R93). -/
def tableBytes (nbits w : Nat) : List Byte :=
  let code := tableByte nbits w 0
  code :: (List.range (decodeCode code).payloadLen).map fun k => tableByte nbits w (k + 1)

/-- The instruction the decoder reads from a table word. -/
def decodeTableWord (nbits w : Nat) : Option Instr :=
  if isTableCommand nbits w then (decodeCtrl (BitVec.ofNat 2 w)).toOption
  else (decodePacket (tableBytes nbits w)).toOption.map (·.1)

end Sys2Proof
end

