-- ==== Sys2Proof/Config.lean ====
section
/-! DEFINITION. The parameters of rule R5 of 00_scope.md, and the free values of the model. `FMT_ZERO` is the one open
parameter and is no constant: `Machine.format` takes it as an argument (R5, R207). -/

namespace Sys2Proof.Config

/-- `CAP`: slots in the lookahead buffer (R5, R23). -/
def cap : Nat := 128

/-- `MAXRUN`: cap of a repeat count and of a literal length (R5). -/
def maxRun : Nat := 127

/-- `ENC_FILL`: slots the encoder keeps filled (R5, R27). -/
def encFill : Nat := 127

/-- `DEC_FILL`: slots the decoder keeps filled (R5). -/
def decFill : Nat := 128

/-- `NGROUPS`: digit groups of an accumulator (R5, R33). -/
def nGroups : Nat := 9

/-- `GMOD`: a digit group counts modulo 1000 (R5, R33). -/
def gMod : Nat := 1000

/-- FREE VALUE (log 5). At which moment of the running operation a read of counter register `num` while the block is
BUSY sees its group, before it is brought into the moments there were: R83 allows each of them. The first argument is
`State.tick`. -/
opaque busyMoment : Nat → Nat → Nat

/-- FREE VALUE (log 6). How FORMAT renders a group above 999: R206 gives three digits for a value of at most 999 and no
text for another, and R205 says no other can arise. -/
opaque oversizeGroup : Group → List Char

end Sys2Proof.Config
end

