-- ==== Sys2Proof/Machine/State.lean ====
section
/-! DEFINITION. The state of RLE-CORE (10_state.md), the environment its step reads and advances (R45), the reasons a
step can stop, and the state after reset (R50). All of it is plain data. -/

namespace Sys2Proof.Machine

/-- A buffer slot (R20): a byte, the sentinel, or the end-of-input marker. Equality is that of R22. -/
inductive Slot where
  /-- `Byte b`: one input or output byte. -/
  | byte (b : Byte)
  /-- `EMPTY`: not yet filled, or already consumed. -/
  | empty
  /-- `END`: the end-of-input marker. -/
  | endMark
  deriving DecidableEq, Repr

/-- The 128 slots of the buffer (R23) as the list of the slots that do not hold `EMPTY`, each with its value, in rising
order of slot number: the canonical form is `SlotMemory.wf`. A slot not listed holds `EMPTY`, as after reset (R50).
DESIGN CHOICE (log 2), safe. -/
abbrev SlotMemory := List (Nat × Slot)

/-- The sequencer's phase (R35). -/
inductive Phase where
  /-- IDLE: no operation has been started since reset. -/
  | idle
  /-- ENC: COMPRESS is running. -/
  | enc
  /-- DEC: DECOMPRESS is running. -/
  | dec
  /-- DONE: the last operation ended normally. -/
  | done
  /-- ERROR: the last operation ended with `MalformedStream`. -/
  | error
  deriving DecidableEq, Repr

/-- The operating mode, latched at START (R36): 0 = compress, 1 = decompress. -/
inductive Mode where
  /-- 0. -/
  | compress
  /-- 1. -/
  | decompress
  deriving DecidableEq, Repr

/-- The causes of `MalformedStream` (R241). -/
inductive Cause where
  /-- The stream ends inside a packet (R242). -/
  | truncatedPacket
  /-- The byte 0x80 in code-byte position (R243). -/
  | reservedCode
  deriving DecidableEq, Repr

/-- The two accumulators (R33). -/
inductive Acc where
  /-- `in`: bytes taken from IN. -/
  | input
  /-- `out`: bytes written to OUT. -/
  | output
  deriving DecidableEq, Repr

/-- The nine digit groups of an accumulator, group 0 least significant (R33). -/
abbrev Counter := Vector Group 9

/-- Which of the block's requests the two streams answer from now on (R285; log 14). In which order the requests of a step
come is fixed (R78), so one value stands for both streams. -/
inductive Answers where
  /-- Every one: the fairness assumption of R285. -/
  | always
  /-- The next `n`, and the one after them never. -/
  | upTo (n : Nat)
  /-- None, and the block has made one: it waits for ever inside a step (a hang). -/
  | never
  deriving DecidableEq, Repr

/-- What the host does while the block takes one step (R224, R225; log 1, log 11). -/
inductive HostEvent where
  /-- Nothing. -/
  | wait
  /-- A write of `CTRL` (R38, R102). -/
  | ctrlWrite (v : BitVec 2)
  /-- A read of register number `num` (R39, R40). -/
  | read (num : Nat)
  /-- The two streams connected for the next run: IN holds `bytes`, OUT is empty (R45, R66, R272, R273), and the two
  answer as `answers` says (R285). -/
  | connect (bytes : List Byte) (answers : Answers)
  /-- The reset input asserted (R270). -/
  | reset
  deriving DecidableEq, Repr

/-- What the host can observe on the two streams: one request of the block and its answer (R66, R67, R78). -/
inductive StreamEvent where
  /-- `InRead()` answered with a byte. -/
  | took (b : Byte)
  /-- `InRead()` answered with `EOS`. -/
  | ended
  /-- `OutWrite(b)` accepted. -/
  | wrote (b : Byte)
  deriving DecidableEq, Repr

/-- Everything the spec gives the machine. -/
structure State where
  /-- The lookahead buffer (R23). -/
  buf : SlotMemory
  /-- The next write position (R24). -/
  index : SlotIdx
  /-- The count of valid symbols in the buffer (R25). -/
  remaining : BitVec 8
  /-- The scan position, the block's program counter (R26). -/
  pos : SlotIdx
  /-- The accumulator `cnt[in]` (R33). -/
  cntIn : Counter
  /-- The accumulator `cnt[out]` (R33). -/
  cntOut : Counter
  /-- The sequencer's phase (R35). -/
  phase : Phase
  /-- The latched mode (R36). -/
  mode : Mode
  /-- The error register: 0 none, 1 `TRUNCATED_PACKET`, 2 `RESERVED_CODE` (R37). -/
  err : BitVec 2
  /-- ENVIRONMENT: the bytes IN still holds (R45, R66). -/
  inp : List Byte
  /-- ENVIRONMENT: the bytes OUT has received, in order (R45, R67). -/
  out : List Byte
  /-- ENVIRONMENT: the stream events of the latest step, in the order in which they happened (R78, R227; log 19). -/
  events : List StreamEvent
  /-- ENVIRONMENT: which requests of the block the two streams answer, and whether the block waits for one that they never
  answer (R285; log 14). -/
  answers : Answers
  /-- ENVIRONMENT: what the host does, one event a step; nothing once the list is empty (R45). -/
  host : List HostEvent
  /-- ENVIRONMENT: what the host's latest register read returned (R40, R83). -/
  rdata : BitVec 16
  /-- THE MODEL'S OWN: the units counted in `cnt[in]` since START or reset cleared it; it only says which values a
  register of `cnt[in]` has held in the run (R83; log 5). -/
  unitsIn : Nat
  /-- THE MODEL'S OWN: the same for `cnt[out]` (log 5). -/
  unitsOut : Nat
  /-- THE MODEL'S OWN: how many register reads there were; it only indexes the free values of `Config.busyMoment`
  (log 5). -/
  tick : Nat
  deriving DecidableEq, Repr

/-- Why the machine is stuck. Neither is an exception of the block: its one exception, `MalformedStream`, is a next
state (R244). -/
inductive Fault where
  /-- Raised by `encStep` and by the decoder's loop head where the scan position holds `EMPTY`: R226 and U6 give the
  case no step. Safe. -/
  | stuckEmptySlot
  /-- Raised by `frameLit`, `execLit` and `execRep` where a slot that R146, R173 or R174 reads as `Byte b_k` holds no
  byte, which those rules say cannot be. Safe (log 7). -/
  | stuckNotByte
  deriving DecidableEq, Repr

/-- What the model gives no meaning. -/
inductive Refusal where
  /-- Raised by an arm of `exec` for an instruction that has no meaning yet. Safe. -/
  | notModelled (mnemonic : String)
  /-- Raised by `refill` where its precondition does not hold: R121 and U7 let a model refuse. Safe (log 8). -/
  | refillOverrun
  /-- Raised by `consume` where more slots are consumed than `remaining` counts: R10 and R25 define no such
  subtraction. Safe (log 8). -/
  | consumeUnderflow
  /-- Raised by a read of a register number the block does not have (U12). Safe (log 9). -/
  | noSuchRegister
  /-- Raised where the host changes the streams during a run, against R66. Safe (log 10). -/
  | connectWhileBusy
  deriving DecidableEq, Repr

/-- What a step or a meaning answers. -/
abbrev Result := Host.Outcome State Fault Refusal

/-- An accumulator with all nine groups 0 (R50). -/
def Counter.zero : Counter := Vector.replicate 9 0#16

/-- The machine right after reset (R50); the environment's fields are as log 1, log 3, log 5, log 14 and
log 19 say. -/
def State.reset : State where
  buf := []
  index := 0#7
  remaining := 0#8
  pos := 0#7
  cntIn := Counter.zero
  cntOut := Counter.zero
  phase := .idle
  mode := .compress
  err := 0#2
  inp := []
  out := []
  events := []
  answers := .always
  host := []
  rdata := 0#16
  unitsIn := 0
  unitsOut := 0
  tick := 0

end Sys2Proof.Machine
end

