-- ==== Sys2Proof/Machine/Counter.lean ====
section
/-! DEFINITION. The digit-group counter (43_counter.md): UNITWALK, the counter side of INCREMENT, the value of an
accumulator, and FORMAT. -/

namespace Sys2Proof.Machine

/-- UNITWALK over the groups from least to most significant (R201): a group equal to 999 becomes 0 and carries on,
another is incremented by 1 (a 16-bit increment, R205) and ends the walk; a carry out of the last group is dropped. -/
def walkGroups : List Group → List Group
  | [] => []
  | g :: rest => if g = 999#16 then 0#16 :: walkGroups rest else (g + 1#16) :: rest

theorem walkGroups_length (gs : List Group) : (walkGroups gs).length = gs.length := by
  induction gs with
  | nil => rfl
  | cons g rest ih => rw [walkGroups]; split <;> simp [ih]

/-- UNITWALK (R201): add one unit to an accumulator. -/
def unitWalk (c : Counter) : Counter :=
  ⟨(walkGroups c.toList).toArray, by simp [walkGroups_length]⟩

/-- `amount` unit walks, one after the other (R200). -/
def incrementCounter : Nat → Counter → Counter
  | 0, c => c
  | amount + 1, c => incrementCounter amount (unitWalk c)

/-- The number a list of groups stands for, group 0 first: the sum of group g times 1000^g (R34). -/
def groupsVal : List Group → Nat
  | [] => 0
  | g :: rest => g.toNat + 1000 * groupsVal rest

/-- `val(a)` (R34). -/
def Counter.val (c : Counter) : Nat := groupsVal c.toList

/-- Every group is in 0..999 (R33, R34). -/
abbrev Counter.InRange (c : Counter) : Prop := ∀ g ∈ c.toList, g.toNat ≤ 999

/-- INCREMENT(a, amount) (R200). -/
def increment (a : Acc) (amount : Amount) (s : State) : State :=
  match a with
  | .input =>
    { s with
      cntIn := incrementCounter amount.toNat s.cntIn
      unitsIn := s.unitsIn + amount.toNat }
  | .output =>
    { s with
      cntOut := incrementCounter amount.toNat s.cntOut
      unitsOut := s.unitsOut + amount.toNat }

/-- Both accumulators cleared, as START does (R222). -/
def clearCounters (s : State) : State :=
  { s with cntIn := Counter.zero, cntOut := Counter.zero, unitsIn := 0, unitsOut := 0 }

/-- A decimal digit as a character. -/
def digitChar (d : Nat) : Char := Char.ofNat (48 + d)

/-- `d3(v)` (R206): the three decimal digits of a group, with leading zeros. A group above 999, which cannot arise
(R205), has no rendering in R206: its text is a free value (log 6). -/
def digits3 (v : Group) : List Char :=
  if v.toNat ≤ 999 then
    [digitChar (v.toNat / 100), digitChar (v.toNat / 10 % 10), digitChar (v.toNat % 10)]
  else Config.oversizeGroup v

/-- Groups rendered in the order given, a comma alone between two (R206). -/
def renderGroups : List Group → List Char
  | [] => []
  | [g] => digits3 g
  | g :: rest => digits3 g ++ ',' :: renderGroups rest

/-- FORMAT(a) on the groups of an accumulator (R206), as a list of characters. The open parameter `FMT_ZERO` (R207) is
the argument `fmtZero`. -/
def format (fmtZero : List Char) (c : Counter) : List Char :=
  match c.toList.reverse.dropWhile (· == 0#16) with
  | [] => fmtZero
  | gs => renderGroups gs

end Sys2Proof.Machine
end

