-- ==== Sys2Proof/Machine/Ops.lean ====
section
/-! DEFINITION. The named operations over the buffer, the streams and the sequencer's registers: slot access (R7, R61),
`InRead` and `OutWrite` (R66, R67), INIT, REFILL, INVALIDATE (40_lookahead_buffer.md), CONSUME (R147, R176), START
(R222), and taking the block's one exception (R244). -/

namespace Sys2Proof.Machine

/-! ### Buffer slots -/

/-- The effective slot of an access: `(base + k) mod 128` (R61). -/
def slotIdx (base : SlotIdx) (k : Nat) : SlotIdx := base + BitVec.ofNat 7 k

/-- The value listed for slot number `a`, `EMPTY` if none is. -/
def SlotMemory.lookup : SlotMemory → Nat → Slot
  | [], _ => .empty
  | (b, v) :: rest, a => if b = a then v else SlotMemory.lookup rest a

/-- Insert a value for slot number `a`, in its place by rising slot number. -/
def SlotMemory.insert : SlotMemory → Nat → Slot → SlotMemory
  | [], a, v => [(a, v)]
  | (b, w) :: rest, a, v =>
    if a < b then (a, v) :: (b, w) :: rest else (b, w) :: SlotMemory.insert rest a v

/-- The list without slot number `a`. -/
def SlotMemory.erase : SlotMemory → Nat → SlotMemory
  | [], _ => []
  | (b, w) :: rest, a =>
    if b = a then SlotMemory.erase rest a else (b, w) :: SlotMemory.erase rest a

/-- `buf[k]`: the read of a slot, without side effect (R7, R74, R128). -/
def SlotMemory.read (m : SlotMemory) (k : SlotIdx) : Slot := SlotMemory.lookup m k.toNat

/-- `buf[k] <- v`: the write of a slot (R7). Writing `EMPTY` removes the entry. -/
def SlotMemory.write (m : SlotMemory) (k : SlotIdx) (v : Slot) : SlotMemory :=
  let m' := SlotMemory.erase m k.toNat
  if v = .empty then m' else SlotMemory.insert m' k.toNat v

/-- The canonical form: slot numbers strictly rising and below 128, and no entry `EMPTY`. -/
abbrev SlotMemory.wf (m : SlotMemory) : Prop :=
  m.Pairwise (fun c d => c.1 < d.1) ∧ ∀ c ∈ m, c.1 < 128 ∧ c.2 ≠ .empty

/-! ### Streams -/

/-- What the streams answer from the `k` requests that follow on. -/
def Answers.after : Answers → Nat → Answers
  | .always, _ => .always
  | .upTo n, k => if k ≤ n then .upTo (n - k) else .never
  | .never, _ => .never

/-- How many of the next `k` requests are answered. -/
def Answers.room : Answers → Nat → Nat
  | .always, k => k
  | .upTo n, k => min n k
  | .never, _ => 0

/-- The same streams with no request made. -/
def Answers.released : Answers → Answers
  | .always => .always
  | .upTo n => .upTo n
  | .never => .upTo 0

/-- The block waits inside a step for a request that is never answered: a hang (R285, U13). -/
abbrev Waits (s : State) : Prop := s.answers = .never

/-- What a request for a byte ends in, with the state after it. -/
inductive ReadAnswer where
  /-- The next byte of IN. -/
  | byte (b : Byte) (s : State)
  /-- `EOS`. -/
  | ended (s : State)
  /-- No answer ever. -/
  | waits (s : State)
  deriving DecidableEq, Repr

/-- `InRead()` (R66): the next byte of IN, which is removed, or `EOS`, which changes nothing and stays so; the event is
recorded. Where the streams answer no more the block waits (R285). -/
def inRead (s : State) : ReadAnswer :=
  let left := s.answers.after 1
  if left = .never then .waits { s with answers := .never }
  else
    match s.inp with
    | [] => .ended { s with events := s.events ++ [.ended], answers := left }
    | b :: rest =>
      .byte b { s with inp := rest, events := s.events ++ [.took b], answers := left }

/-- `OutWrite(b)` (R67), recorded. Where the streams answer no more the block waits for the byte to be accepted (R285). -/
def outWrite (b : Byte) (s : State) : State :=
  let left := s.answers.after 1
  if left = .never then { s with answers := .never }
  else { s with out := s.out ++ [b], events := s.events ++ [.wrote b], answers := left }

/-- One `OutWrite` for each byte, in order (R79). A block that waits writes none of those that follow. -/
def outWrites : List Byte → State → State
  | [], s => s
  | b :: rest, s => outWrites rest (outWrite b s)

/-! ### The exception -/

/-- The `err` code of a cause (R241). -/
def Cause.code : Cause → BitVec 2
  | .truncatedPacket => 1#2
  | .reservedCode => 2#2

/-- `raise MalformedStream(cause)` (R244): the cause is recorded and the block is in phase ERROR; nothing else changes.
There is no return from it (R248): START and reset are the only ways out. -/
def raise (cause : Cause) (s : State) : State := { s with err := cause.code, phase := .error }

/-! ### Buffer operations -/

/-- INIT (R120): every slot `EMPTY`, `index`, `remaining` and `pos` 0. -/
def init (s : State) : State :=
  { s with buf := [], index := 0#7, remaining := 0#8, pos := 0#7 }

/-- What REFILL does with a byte (R122): store it at `index`, advance `index`, count it in `remaining` and in
`cnt[in]`. -/
def storeByte (b : Byte) (s : State) : State :=
  increment .input 1#8
    { s with
      buf := SlotMemory.write s.buf s.index (.byte b)
      index := slotIdx s.index 1
      remaining := s.remaining + 1#8 }

/-- The loop of REFILL (R122) from attempt `k` on, with `n` attempts left. The marker is set only where the very first
attempt finds IN exhausted and `remaining` is 0 (R123). An attempt that is never answered is the last. -/
def refillFrom (k : Nat) : Nat → State → State
  | 0, s => s
  | n + 1, s =>
    match inRead s with
    | .waits t => t
    | .ended t =>
      if k = 0 ∧ t.remaining = 0#8 then
        { t with buf := SlotMemory.write t.buf t.index .endMark }
      else t
    | .byte b t => refillFrom (k + 1) n (storeByte b t)

/-- How many slots may be valid: 127 while encoding, else 128 (R5, R27, R121). -/
def fillLimit : Phase → Nat
  | .enc => Config.encFill
  | .idle | .dec | .done | .error => Config.decFill

/-- REFILL(amount) (R121, R122). A call that breaks the precondition of R121 is refused, as U7 allows (log 8). -/
def refill (amount : Amount) (s : State) : Result :=
  if s.remaining.toNat + amount.toNat ≤ fillLimit s.phase then
    .next (refillFrom 0 amount.toNat s)
  else .refused .refillOverrun

/-- The loop of INVALIDATE (R126): `n` consecutive slots from `start` become `EMPTY`. -/
def invalidateFrom (m : SlotMemory) (start : SlotIdx) : Nat → SlotMemory
  | 0 => m
  | k + 1 => SlotMemory.write (invalidateFrom m start k) (slotIdx start k) .empty

/-- INVALIDATE(start, amount) on the buffer (R126). -/
def invalidate (m : SlotMemory) (start : SlotIdx) (amount : Amount) : SlotMemory :=
  invalidateFrom m start amount.toNat

/-- The first two lines of CONSUME (R147, R176): `remaining` lowered by `c`, the `c` slots from `pos` culled. -/
def cull (c : Amount) (s : State) : State :=
  { s with
    remaining := s.remaining - c
    buf := invalidate s.buf s.pos c }

/-- The last line of CONSUME (R147, R176, R232): the scan position advances by `c`, modulo 128. -/
def advance (c : Amount) (s : State) : State := { s with pos := slotIdx s.pos c.toNat }

/-- Go on with the next state of an outcome, unless the block waits in it; a fault or a refusal stays. -/
def andThen (r : Result) (f : State → Result) : Result :=
  match r with
  | .next s => if Waits s then .next s else f s
  | .fault e => .fault e
  | .refused e => .refused e

/-- CONSUME(c) (R147, R176). Every caller has `c <= remaining`; another call is refused (log 8). -/
def consume (c : Amount) (s : State) : Result :=
  if c.toNat ≤ s.remaining.toNat then
    andThen (refill c (cull c s)) fun t => .next (advance c t)
  else .refused .consumeUnderflow

/-- A packet (R145 to R148, R173, R174, R177): `units` counted in `cnt[out]`, `bytes` written in order, CONSUME(c). -/
def packet (bytes : List Byte) (units c : Amount) (s : State) : Result :=
  andThen (.next (outWrites bytes (increment .output units s))) (consume c)

/-! ### START and reset -/

/-- What START writes before its REFILL, in phase `p` (R222, R51). -/
def startInit (m : Mode) (p : Phase) (s : State) : State :=
  { init (clearCounters { s with mode := m, err := 0#2 }) with phase := p }

/-- START(m) where it is accepted (R222). -/
def start (m : Mode) (s : State) : Result :=
  match m with
  | .compress => refill (BitVec.ofNat 8 Config.encFill) (startInit .compress .enc s)
  | .decompress => refill (BitVec.ofNat 8 Config.decFill) (startInit .decompress .dec s)

/-- The reset input (R50, R270): every piece of the block's state at its reset value. Bytes already written to OUT stay
written and bytes already taken from IN stay taken; a request that the block was waiting for is no longer made
(log 17). -/
def hardReset (s : State) : State :=
  { State.reset with
    inp := s.inp, out := s.out, answers := s.answers.released
    host := s.host, rdata := s.rdata, tick := s.tick }

end Sys2Proof.Machine
end

