-- ==== Sys2Proof/Machine/Operands.lean ====
section
/-! DEFINITION. The operand forms: slots read relative to the scan position (R61, R128), and the bytes of a span of
slots. -/

namespace Sys2Proof.Machine

/-- `buf[(pos + k) mod 128]` (R61, R128). -/
def slotAt (s : State) (k : Nat) : Slot := SlotMemory.read s.buf (slotIdx s.pos k)

/-- The bytes of `n` slots from `buf[(pos + off) mod 128]` on, in order; none where a slot holds no byte (R146, R173). -/
def spanBytes (s : State) (off : Nat) : Nat → Option (List Byte)
  | 0 => some []
  | n + 1 =>
    match slotAt s off with
    | .byte b => (spanBytes s (off + 1) n).map (b :: ·)
    | .empty | .endMark => none

/-- The window: the bytes of the valid span, oldest first (R28; glossary of 00_scope.md). -/
def window (s : State) : Option (List Byte) := spanBytes s 0 s.remaining.toNat

end Sys2Proof.Machine
end

