-- ==== Sys2Proof/Machine/Flags.lean ====
section
/-! DEFINITION. The condition-like state (R41: there are no arithmetic flags): BUSY, the loop heads' test for the `END`
marker, and the fields the host reads in the registers (R38 to R40). -/

namespace Sys2Proof.Machine

/-- BUSY: an operation is running (R39, R221). -/
def State.busy (s : State) : Bool :=
  match s.phase with
  | .enc | .dec => true
  | .idle | .done | .error => false

/-- `STATUS.PHASE` (R39). -/
def phaseCode : Phase → BitVec 2
  | .idle => 0#2
  | .enc | .dec => 1#2
  | .done => 2#2
  | .error => 3#2

/-- `STATUS.MODE` (R36, R39). -/
def modeCode : Mode → BitVec 1
  | .compress => 0#1
  | .decompress => 1#1

/-- The register `STATUS` (R39): `MODE` in bit 4, `ERR` in bits 3:2, `PHASE` in bits 1:0. -/
def statusWord (s : State) : BitVec 5 := modeCode s.mode ++ s.err ++ phaseCode s.phase

/-- The group a counter register number names, of two accumulators (R40): `CNT_IN[g]` is 0x10 + g, `CNT_OUT[g]` is
0x20 + g, g = 0..8. -/
def counterGroup (cin cout : Counter) (num : Nat) : Option Group :=
  if 0x10 ≤ num ∧ num < 0x10 + Config.nGroups then cin.toList[num - 0x10]?
  else if 0x20 ≤ num ∧ num < 0x20 + Config.nGroups then cout.toList[num - 0x20]?
  else none

/-- An accumulator as it stood `k` units after it was cleared. Between two units a walk changes one group at a time, so
every value that a register holds in a run is the value of its group at one of these moments (R201, R281). -/
def counterAfter (k : Nat) : Counter := incrementCounter k Counter.zero

/-- What the host reads from register `num` (R38 to R40); none for a number the block does not have (U12). `CTRL` reads
0. A counter register reads its group in bits 9:0 with bits 15:10 zero. While BUSY it is the group as it stood at some
moment of the running operation up to now, and which moment is free (R83, R281; log 5). -/
def readReg (s : State) (num : Nat) : Option (BitVec 16) :=
  if num = 0x00 then some 0#16
  else if num = 0x01 then some ((statusWord s).setWidth 16)
  else
    let moment := Config.busyMoment s.tick num
    let group :=
      if s.busy then
        counterGroup (counterAfter (moment % (s.unitsIn + 1)))
          (counterAfter (moment % (s.unitsOut + 1))) num
      else counterGroup s.cntIn s.cntOut num
    group.map (· &&& 0x3FF#16)

end Sys2Proof.Machine
end

