-- ==== Sys2Proof/Machine/Decoder.lean ====
section
/-! DEFINITION. The decoder's packets (42_decoder.md): the meaning of each code-byte kind at the scan position (log 16). -/

namespace Sys2Proof.Machine

/-- The normal end of DECOMPRESS (R171): phase DONE, nothing else. -/
def stopDone (s : State) : State := { s with phase := .done }

/-- `END` (R171): the terminator's slot is not consumed, nothing is written or counted. -/
def execEnd (s : State) : Result := .next (stopDone s)

/-- `RESERVED_0x80` (R172): the exception, with nothing else changed. -/
def execReserved80 (s : State) : Result := .next (raise .reservedCode s)

/-- `REP` with repeat count `count` (R174): the truncation check (R175) first, then the counter, `count` copies of the
payload byte, and CONSUME(2). -/
def execRep (count : BitVec 7) (s : State) : Result :=
  if s.remaining.toNat < 2 then .next (raise .truncatedPacket s)
  else
    match slotAt s 1 with
    | .byte v =>
      packet (List.replicate count.toNat v) (count.setWidth 8) 2#8 s
    | .empty | .endMark => .fault .stuckNotByte

/-- The size `c` of a literal packet: `length + 1`, 8 bits, 2..128 (R10, R173). -/
def litSize (length : BitVec 7) : Amount := length.setWidth 8 + 1#8

/-- `LIT` with payload length `length` (R173): the truncation check (R175) first, then the counter, the payload copied in
order, and CONSUME(length + 1). -/
def execLit (length : BitVec 7) (s : State) : Result :=
  if s.remaining.toNat < (litSize length).toNat then .next (raise .truncatedPacket s)
  else
    match spanBytes s 1 length.toNat with
    | some payload =>
      packet payload (length.setWidth 8) (litSize length) s
    | none => .fault .stuckNotByte

end Sys2Proof.Machine
end

