-- ==== Sys2Proof/Machine/Driver.lean ====
section
/-! DEFINITION. The two host commands (44_stream_driver.md): START(0) and START(1), ignored while an operation runs. -/

namespace Sys2Proof.Machine

/-- `COMPRESS` (R151, R221, R222): START(0) in IDLE, DONE and ERROR; nothing at all while BUSY. The iterations that follow
are the sequencer's steps (R226; log 15). -/
def execCompress (s : State) : Result :=
  if s.busy then .next s else start .compress s

/-- `DECOMPRESS` (R179, R221, R222): START(1) in IDLE, DONE and ERROR; nothing at all while BUSY (log 15). -/
def execDecompress (s : State) : Result :=
  if s.busy then .next s else start .decompress s

end Sys2Proof.Machine
end

