-- ==== Sys2Proof/Machine/Encoder.lean ====
section
/-! DEFINITION. The encoder (41_encoder.md): run detection, literal scan, the two framers, one encoder iteration, the
terminator, and the loop head. These are the steps of a COMPRESS that START has begun; they have no encoding. -/

namespace Sys2Proof.Machine

/-- RUNDETECT's loop (R142) from `run` on, with `fuel` comparisons left. -/
def runFrom (s : State) : Nat → Nat → Nat
  | 0, run => run
  | fuel + 1, run => if slotAt s run = slotAt s 0 then runFrom s fuel (run + 1) else run

/-- RUNDETECT (R142): the run of the slot at the scan position, capped at 127. -/
def runDetect (s : State) : Nat := runFrom s (Config.maxRun - 1) 1

/-- LITSCAN's loop (R144) from `len` on, with `fuel` comparisons left. -/
def litFrom (s : State) : Nat → Nat → Nat
  | 0, len => len
  | fuel + 1, len =>
    if slotAt s len = slotAt s (len + 1) then len else litFrom s fuel (len + 1)

/-- LITSCAN (R144): absorb slots while each differs from the next, capped at 127. -/
def litScan (s : State) : Nat := litFrom s Config.maxRun 0

/-- FRAME_REP(run, v) (R145): the counter, then the code byte, then the byte. -/
def frameRep (run : Nat) (v : Byte) (s : State) : State :=
  outWrites [repCode (BitVec.ofNat 7 run), v] (increment .output 2#8 s)

/-- FRAME_LIT(L) (R146): the counter, then the code byte, then the L bytes from the scan position on. A slot without a
byte there leaves the machine stuck (log 7). -/
def frameLit (len : Nat) (s : State) : Result :=
  match spanBytes s 0 len with
  | some payload =>
    .next (outWrites (litCode (BitVec.ofNat 7 len) :: payload)
      (increment .output (BitVec.ofNat 8 (len + 1)) s))
  | none => .fault .stuckNotByte

/-- ENC_ITER (R148) where the scan position holds `Byte v`: ARBITRATE (R143) picks a repeat packet for a run of at least
2 and a literal packet otherwise; then CONSUME (R147). -/
def encIter (v : Byte) (s : State) : Result :=
  let run := runDetect s
  if 1 < run then andThen (.next (frameRep run v s)) (consume (BitVec.ofNat 8 run))
  else andThen (frameLit (litScan s) s) (consume (BitVec.ofNat 8 (litScan s)))

/-- TERMINATE (R150): the terminator is written, then counted; phase DONE. -/
def terminate (s : State) : Result :=
  andThen (.next (outWrite 0x00#8 s)) fun t => .next { increment .output 1#8 t with phase := .done }

/-- The encoder's loop head (R140, R226): TERMINATE on the `END` marker, an iteration on a byte (0x00 included, C6), no
step on `EMPTY` (U6). -/
def encStep (s : State) : Result :=
  match slotAt s 0 with
  | .endMark => terminate s
  | .byte v => encIter v s
  | .empty => .fault .stuckEmptySlot

end Sys2Proof.Machine
end

