-- ==== Sys2Proof/Machine/Sequencer.lean ====
section
/-! DEFINITION. The sequencer (R226): what a step is, by phase and by what the host does; and where a fetched word
stands. -/

namespace Sys2Proof.Machine

/-- What a step is. -/
inductive Action where
  /-- The instruction fetched, and the state it runs at. -/
  | run (i : Instr) (s : State)
  /-- A step without an instruction, and its outcome. -/
  | settled (r : Result)
  deriving Repr

/-- The sequencer's step by phase, with no command accepted (R226): quiescent in IDLE, DONE and ERROR; the encoder's loop
head in ENC; in DEC the fetch of the code byte at the scan position, where the `END` marker stops the run (R170, R171)
and `EMPTY` has no step (U6). A block that waits for a stream does nothing, for ever (R285, U13; log 14). -/
def phaseAction (s : State) : Action :=
  if Waits s then .settled (.next s)
  else match s.phase with
  | .idle | .done | .error => .settled (.next s)
  | .enc => .settled (encStep s)
  | .dec =>
    match slotAt s 0 with
    | .endMark => .settled (.next (stopDone s))
    | .byte c => .run (decodeCode c) s
    | .empty => .settled (.fault .stuckEmptySlot)

/-- The step when the host does `e` (R221, R225, R226; log 11). A command is the step where it is accepted; otherwise a
write of `CTRL` does nothing and the sequencer goes on. A register read delivers what stands in the state before the
step, and the sequencer goes on as without it (R83). -/
def eventAction (e : HostEvent) (s : State) : Action :=
  match e with
  | .wait => phaseAction s
  | .reset => .settled (.next (hardReset s))
  | .ctrlWrite v =>
    if s.busy then phaseAction s
    else
      match decodeCtrl v with
      | .ok i => .run i s
      | .error _ => phaseAction s
  | .read num =>
    match readReg s num with
    | some v => phaseAction { s with rdata := v, tick := s.tick + 1 }
    | none => .settled (.refused .noSuchRegister)
  | .connect bytes answers =>
    if s.busy then .settled (.refused .connectWhileBusy)
    else phaseAction { s with inp := bytes, out := [], answers := answers.released }

/-- The state in which a step acts: the host's next event is taken off its list, if there is one, and no stream event of
this step has happened yet (log 11, log 19). -/
def beginStep (s : State) : State := { s with host := s.host.tail, events := [] }

/-- The step's action. -/
def selectAction (s : State) : Action :=
  match s.host with
  | [] => phaseAction (beginStep s)
  | e :: _ => eventAction e (beginStep s)

/-! ### Placing a word where the next step fetches it -/

/-- Bytes in consecutive slots from `base + off` on. -/
def placeBytes (base : SlotIdx) (off : Nat) : List Byte → SlotMemory → SlotMemory
  | [], m => m
  | b :: rest, m =>
    placeBytes base (off + 1) rest (SlotMemory.write m (slotIdx base off) (.byte b))

/-- The state in which the decoder's next fetch finds exactly the packet `bytes` at the scan position; the block does not
wait in it (log 13). -/
def placePacket (bytes : List Byte) (s : State) : State :=
  { s with
    phase := .dec
    mode := .decompress
    buf := placeBytes s.pos 0 bytes []
    remaining := BitVec.ofNat 8 bytes.length
    index := slotIdx s.pos bytes.length
    answers := s.answers.released
    host := .wait :: s.host }

/-- The state in which the host's next act is a write of `v` to `CTRL` and the block is not BUSY (log 13). -/
def placeCommand (v : BitVec 2) (s : State) : State :=
  { s with
    phase := if s.busy then .idle else s.phase
    host := .ctrlWrite v :: s.host }

/-- A table word placed where the next step fetches its instruction. -/
def placeTableWord (nbits w : Nat) (s : State) : State :=
  if isTableCommand nbits w then placeCommand (BitVec.ofNat 2 w) s
  else placePacket (tableBytes nbits w) s

end Sys2Proof.Machine
end

