-- ==== Sys2Proof/Machine/Dispatch.lean ====
section
/-! DEFINITION. One arm per instruction, one direct call of its meaning. -/

namespace Sys2Proof.Machine

def exec (i : Instr) (s : State) : Host.Outcome State Fault Refusal :=
  match i with
  | .endStream => Sys2Proof.Machine.execEnd s
  | .reserved80 => Sys2Proof.Machine.execReserved80 s
  | .rep count => Sys2Proof.Machine.execRep count s
  | .lit length => Sys2Proof.Machine.execLit length s
  | .compress => Sys2Proof.Machine.execCompress s
  | .decompress => Sys2Proof.Machine.execDecompress s

end Sys2Proof.Machine
end

