-- ==== Sys2Proof/Machine/Step.lean ====
section
/-! DEFINITION. The step function of the block (R226), and the state in which a given word is the next one fetched. -/

namespace Sys2Proof.Machine

/-- One step: the row of R226 that the state and the host's event select. -/
def step (s : State) : Host.Outcome State Fault Refusal :=
  match selectAction s with
  | .run i t => exec i t
  | .settled r => r

/-- `s` with a table word placed so that the very next step runs its instruction (log 13). -/
def State.withFetchWord (s : State) (nbits w : Nat) : State := placeTableWord nbits w s

end Sys2Proof.Machine
end

