-- ==== Sys2Proof/Machine/ListLevel.lean ====
section
/-! DEFINITION. The list-level characterisations the spec gives of COMPRESS (R153 of 41_encoder.md) and DECOMPRESS (R180
of 42_decoder.md), and what R100 and R155 say of the encoder's output. The machine does not use them: statements do. -/

namespace Sys2Proof.Machine

/-- The largest r with W[0] = ... = W[r-1] (R153); 0 for the empty window. -/
def headRun : List Byte → Nat
  | [] => 0
  | [_] => 1
  | b :: c :: rest => if b = c then headRun (c :: rest) + 1 else 1

/-- The least k with W[k] = W[k+1], or the length of W where there is none (R153). -/
def headLit : List Byte → Nat
  | [] => 0
  | [_] => 1
  | b :: c :: rest => if b = c then 0 else headLit (c :: rest) + 1

/-- `enc` (R153), with at most `fuel` packets before the terminator. -/
def encFrom : Nat → List Byte → List Byte
  | 0, _ => [0x00#8]
  | _ + 1, [] => [0x00#8]
  | fuel + 1, b :: rest =>
    let w := (b :: rest).take 127
    if 2 ≤ headRun w then
      BitVec.ofNat 8 (headRun w) :: b :: encFrom fuel ((b :: rest).drop (headRun w))
    else
      (0x80#8 ||| BitVec.ofNat 8 (headLit w)) ::
        (w.take (headLit w) ++ encFrom fuel ((b :: rest).drop (headLit w)))

/-- `enc(S)` (R153): every packet takes at least one byte of S (R152), so as many packets as S has bytes are enough. -/
def enc (input : List Byte) : List Byte := encFrom input.length input

/-- `dec` (R180), with at most `fuel` packets: the bytes written, and the cause of the fault if there is one. -/
def decFrom : Nat → List Byte → List Byte × Option Cause
  | 0, _ => ([], none)
  | _ + 1, [] => ([], none)
  | fuel + 1, c :: rest =>
    if c = 0x00#8 then ([], none)
    else if c = 0x80#8 then ([], some .reservedCode)
    else if 0x81 ≤ c.toNat then
      let len := c.toNat - 0x80
      if rest.length < len then ([], some .truncatedPacket)
      else
        let d := decFrom fuel (rest.drop len)
        (rest.take len ++ d.1, d.2)
    else
      match rest with
      | [] => ([], some .truncatedPacket)
      | v :: rest' =>
        let d := decFrom fuel rest'
        (List.replicate c.toNat v ++ d.1, d.2)

/-- `dec(Z)` (R180): every packet takes at least two bytes of Z (R183). -/
def dec (stream : List Byte) : List Byte × Option Cause := decFrom stream.length stream

/-- A byte list that is packets as the encoder emits them, then the terminator as the last byte (R100, R155): every `REP`
has R in 2..127, every `LIT` has L in 1..127 and no two adjacent payload bytes equal; at most `fuel` packets. -/
def encoderFormFrom : Nat → List Byte → Bool
  | 0, z => z == [0x00#8]
  | fuel + 1, z =>
    match decodePacket z with
    | .ok (.endStream, _, rest) => rest == []
    | .ok (.rep count, _, rest) => decide (2 ≤ count.toNat) && encoderFormFrom fuel rest
    | .ok (.lit _, payload, rest) =>
      headLit payload == payload.length && encoderFormFrom fuel rest
    | .ok (.reserved80, _, _) | .ok (.compress, _, _) | .ok (.decompress, _, _) => false
    | .error _ => false

/-- What R100 says of the encoder's output. -/
def encoderForm (z : List Byte) : Bool := encoderFormFrom z.length z

/-- The number a rendered counter shows: its decimal digits read in order, commas skipped. -/
def readDigits (text : List Char) : Nat :=
  (text.filter (· != ',')).foldl (fun n ch => 10 * n + (ch.toNat - 48)) 0

end Sys2Proof.Machine
end

