-- ==== Sys2Proof/Safety.lean ====
section
/-! DEFINITION. What holds of the block between two steps (R25, R27 to R30, R34, R37 of 10_state.md), in the terms the
statements use. -/

namespace Sys2Proof.Machine

/-- The buffer and its pointers: R25 and R27 (`cap`), R29 (`index_eq`), R28 (`span`), R30 (`outside`). -/
structure BufferInv (s : State) : Prop where
  /-- `remaining` is at most 127 while encoding and at most 128 otherwise. -/
  cap : s.remaining.toNat ≤ fillLimit s.phase
  /-- `index` is the first slot after the valid span. -/
  index_eq : s.index = slotIdx s.pos s.remaining.toNat
  /-- The `remaining` slots from `pos` on hold bytes. -/
  span : ∀ k, k < s.remaining.toNat → ∃ b, slotAt s k = .byte b
  /-- Every other slot holds `EMPTY`, but for an `END` marker at the scan position. -/
  outside : ∀ k, s.remaining.toNat ≤ k → k < 128 →
    slotAt s k = .empty ∨ (k = 0 ∧ slotAt s k = .endMark)

/-- While an operation runs: the buffer is topped up unless IN is exhausted (R124, R153, R175), and an empty window is
marked (R123, R124). -/
structure RunInv (s : State) : Prop where
  /-- A window shorter than the fill means that IN is exhausted. -/
  topped : s.busy = true → s.remaining.toNat < fillLimit s.phase → s.inp = []
  /-- An empty window has the `END` marker at the scan position. -/
  marked : s.busy = true → s.remaining = 0#8 → slotAt s 0 = .endMark

/-- ENC runs a compress, DEC a decompress (R35, R36). -/
def ModeInv (s : State) : Prop :=
  (s.phase = .enc → s.mode = .compress) ∧ (s.phase = .dec → s.mode = .decompress)

/-- `err` is 1 or 2 in phase ERROR and 0 in every other phase: so it is never 3 (R37, R241, R248). -/
def ErrInv (s : State) : Prop :=
  if s.phase = .error then s.err = 1#2 ∨ s.err = 2#2 else s.err = 0#2

/-- Both accumulators have every group in 0..999 (R34). -/
def CountersInRange (s : State) : Prop := s.cntIn.InRange ∧ s.cntOut.InRange

/-- The buffer's list is in its canonical form. -/
def BufferCanonical (s : State) : Prop := SlotMemory.wf s.buf

/-- `unitsIn` and `unitsOut` count the units of the two accumulators since they were cleared (log 5). -/
def CountersCounted (s : State) : Prop :=
  s.cntIn = counterAfter s.unitsIn ∧ s.cntOut = counterAfter s.unitsOut

/-- All of it: what every step keeps. The buffer and its pointers are as R25 to R30 say between two steps, so not in a
block that waits inside one (R227, R285). -/
structure BlockInv (s : State) : Prop where
  canonical : BufferCanonical s
  buffer : ¬Waits s → BufferInv s
  run : ¬Waits s → RunInv s
  modeOk : ModeInv s
  errOk : ErrInv s
  counters : CountersInRange s
  counted : CountersCounted s
  /-- A block that waits is BUSY: its phase stays ENC or DEC (R285). -/
  waits : Waits s → s.busy = true

/-! ### Stream events -/

/-- The two streams answer every request of the block: the fairness assumption of R285. -/
abbrev Fair (s : State) : Prop := s.answers = .always

/-- The stream events of REFILL(amount) (R122): the bytes IN has, at most `amount` of them, then `EOS` where it had
fewer. -/
def readEvents (amount : Nat) (inp : List Byte) : List StreamEvent :=
  (inp.take amount).map .took ++ if inp.length < amount then [.ended] else []

/-- The state after `bytes` are accepted by OUT and `units` units counted in `cnt[out]`: what a packet does before its
CONSUME. -/
def emit (bytes : List Byte) (units : Nat) (s : State) : State :=
  { s with
    out := s.out ++ bytes
    events := s.events ++ bytes.map .wrote
    answers := s.answers.after bytes.length
    cntOut := incrementCounter units s.cntOut
    unitsOut := s.unitsOut + units }

/-- The bytes the events took from IN. -/
def takenBytes (es : List StreamEvent) : List Byte :=
  es.filterMap fun e =>
    match e with
    | .took b => some b
    | .ended | .wrote _ => none

/-! ### REFILL and CONSUME -/

/-- What REFILL(amount) makes of a state where all its requests are answered (R122 to R125): bytes are taken from IN while
there are any and stored from `index` on, each counted; the marker is set where the very first attempt finds IN exhausted
and `remaining` is 0; nothing else changes. -/
structure Refilled (amount : Nat) (s t : State) : Prop where
  taken : t.inp = s.inp.drop amount
  index_eq : t.index = slotIdx s.index (min amount s.inp.length)
  remaining_eq : t.remaining.toNat = s.remaining.toNat + min amount s.inp.length
  counted : t.cntIn = incrementCounter (min amount s.inp.length) s.cntIn
  units_eq : t.unitsIn = s.unitsIn + min amount s.inp.length
  events_eq : t.events = s.events ++ readEvents amount s.inp
  answers_eq : t.answers = s.answers.after (readEvents amount s.inp).length
  /-- The bytes read, in order, from slot `index` on. -/
  stored : ∀ j b, j < amount → s.inp[j]? = some b →
    SlotMemory.read t.buf (slotIdx s.index j) = .byte b
  /-- The `END` marker (R123). -/
  marked : 0 < amount → s.inp = [] → s.remaining = 0#8 →
    SlotMemory.read t.buf s.index = .endMark
  /-- Every other slot keeps its value. -/
  kept : ∀ a, (∀ j, j < min amount s.inp.length → a ≠ slotIdx s.index j) →
    ¬(0 < amount ∧ s.inp = [] ∧ s.remaining = 0#8 ∧ a = s.index) →
    SlotMemory.read t.buf a = SlotMemory.read s.buf a
  /-- Every other field keeps its value. -/
  frame : t.pos = s.pos ∧ t.cntOut = s.cntOut ∧ t.phase = s.phase ∧ t.mode = s.mode ∧
    t.err = s.err ∧ t.out = s.out ∧ t.host = s.host ∧ t.rdata = s.rdata ∧ t.tick = s.tick ∧
    t.unitsOut = s.unitsOut

/-- What CONSUME(c) makes of a state where all its requests are answered (R147, R176): `c` slots from `pos` on culled,
`remaining` lowered by `c`, REFILL(c), and `pos` advanced by `c`; nothing else changes. -/
structure Consumed (c : Nat) (s t : State) : Prop where
  pos_eq : t.pos = slotIdx s.pos c
  taken : t.inp = s.inp.drop c
  index_eq : t.index = slotIdx s.index (min c s.inp.length)
  remaining_eq : t.remaining.toNat + c = s.remaining.toNat + min c s.inp.length
  counted : t.cntIn = incrementCounter (min c s.inp.length) s.cntIn
  units_eq : t.unitsIn = s.unitsIn + min c s.inp.length
  events_eq : t.events = s.events ++ readEvents c s.inp
  answers_eq : t.answers = s.answers.after (readEvents c s.inp).length
  /-- The bytes refilled, in order, from slot `index` on. -/
  stored : ∀ j b, j < c → s.inp[j]? = some b →
    SlotMemory.read t.buf (slotIdx s.index j) = .byte b
  /-- The `END` marker, where the packet was the last of the window and IN is exhausted. -/
  marked : s.inp = [] → s.remaining.toNat = c → SlotMemory.read t.buf s.index = .endMark
  /-- The consumed slots hold `EMPTY`, unless one was refilled or marked. -/
  culled : ∀ k, k < c →
    (∀ j, j < min c s.inp.length → slotIdx s.pos k ≠ slotIdx s.index j) →
    ¬(s.inp = [] ∧ s.remaining.toNat = c ∧ slotIdx s.pos k = s.index) →
    SlotMemory.read t.buf (slotIdx s.pos k) = .empty
  /-- Every slot that is neither consumed, refilled nor marked keeps its value. -/
  kept : ∀ a, (∀ k, k < c → a ≠ slotIdx s.pos k) →
    (∀ j, j < min c s.inp.length → a ≠ slotIdx s.index j) →
    ¬(s.inp = [] ∧ s.remaining.toNat = c ∧ a = s.index) →
    SlotMemory.read t.buf a = SlotMemory.read s.buf a
  /-- Every other field keeps its value. -/
  frame : t.cntOut = s.cntOut ∧ t.phase = s.phase ∧ t.mode = s.mode ∧ t.err = s.err ∧
    t.out = s.out ∧ t.host = s.host ∧ t.rdata = s.rdata ∧ t.tick = s.tick ∧
    t.unitsOut = s.unitsOut

/-- The host does nothing in the coming step. -/
def HostQuiet (s : State) : Prop := s.host = [] ∨ ∃ rest, s.host = .wait :: rest

/-- The two ways in which the host, by the next event on its list, makes a step stop: it reads a register number the
block does not have (U12), or changes the streams during a run (R66). -/
def HostOffends (s : State) : Prop :=
  match s.host with
  | .read num :: _ => readReg s num = none
  | .connect _ _ :: _ => s.busy = true
  | _ => False

end Sys2Proof.Machine
end

