-- ==== Sys2Proof/Certificates/Slice0/Obligations.lean ====
section
/-! DEFINITION. The statements for the provers. Each docstring names the rules of spec/ it formalises. -/

open Sys2Proof Sys2Proof.Machine

/-! ### Encoding (30_encoding.md) -/

/-- R92, R93: decoding the bytes of a well-formed packet, followed by any bytes, gives the packet, its payload and those
bytes. -/
def Obligations.PacketDecodeEncode : Prop :=
  ∀ (i : Instr) (payload rest bytes : List Byte), i.wellFormed = true →
    encodePacket i payload = some bytes → payload.length = i.payloadLen →
    decodePacket (bytes ++ rest) = .ok (i, payload, rest)

/-- R93, R94, R99: what decodes is a well-formed packet, and its bytes are those that were decoded. -/
def Obligations.PacketEncodeDecode : Prop :=
  ∀ (bytes : List Byte) (i : Instr) (payload rest : List Byte),
    decodePacket bytes = .ok (i, payload, rest) →
    i.wellFormed = true ∧ payload.length = i.payloadLen ∧
      ∃ head, encodePacket i payload = some head ∧ head ++ rest = bytes

/-- R90, R94, R102: decoding the word of a well-formed instruction gives the instruction, with every operand value. -/
def Obligations.DecodeEncode : Prop := ∀ i : Instr, i.wellFormed = true → decode (encode i) = .ok i

/-- R94: the meaning of every byte in code-byte position. -/
def Obligations.CodeByteMap : Prop :=
  ∀ c : Byte,
    (c.toNat = 0x00 → decodeCode c = .endStream) ∧
    (0x01 ≤ c.toNat → c.toNat ≤ 0x7F → ∃ n, decodeCode c = .rep n ∧ n.toNat = c.toNat) ∧
    (c.toNat = 0x80 → decodeCode c = .reserved80) ∧
    (0x81 ≤ c.toNat → ∃ n, decodeCode c = .lit n ∧ n.toNat = c.toNat - 0x80)

/-- R102: the two commands, and that no other write of `CTRL` is one (R38). -/
def Obligations.CommandEncoding : Prop :=
  ∀ v : BitVec 2,
    decode (.ctrl v) =
      if v = 0b01#2 then .ok .compress else if v = 0b11#2 then .ok .decompress else .error .noStart

/-- R95 and the table: some words written out. -/
def Obligations.WordsDecode : Prop :=
  decode (.code 0b00000011#8) = .ok (.rep 3#7) ∧ decode (.code 0b10000001#8) = .ok (.lit 1#7) ∧
    decode (.code 0b10000010#8) = .ok (.lit 2#7) ∧ decode (.code 0b00000000#8) = .ok .endStream ∧
    decode (.code 0b10000000#8) = .ok .reserved80 ∧ decode (.ctrl 0b01#2) = .ok .compress ∧
    decode (.ctrl 0b11#2) = .ok .decompress

/-- R226 and log 13: a table word placed for the next fetch is the instruction that the next step runs, at the state in
which that step begins. -/
def Obligations.PlacedWordRuns : Prop :=
  ∀ (s : State) (nbits w : Nat) (i : Instr), decodeTableWord nbits w = some i →
    step (s.withFetchWord nbits w) = exec i (beginStep (s.withFetchWord nbits w))

/-! ### The decoder (42_decoder.md) -/

/-- R171: `END` and the marker both end DECOMPRESS normally: phase DONE, and nothing else changes. A block that waits for a
stream (log 14) takes no step at its loop head. -/
def Obligations.EndStops : Prop :=
  ∀ s : State,
    exec .endStream s = .next { s with phase := .done } ∧
    (s.phase = .dec → HostQuiet s → ¬Waits s → (slotAt s 0 = .endMark ∨ slotAt s 0 = .byte 0x00#8) →
      step s = .next { beginStep s with phase := .done })

/-- R172: the reserved code raises MalformedStream(RESERVED_CODE): `err` and `phase` are written, nothing else.
A block that waits for a stream (log 14) takes no step at its loop head. -/
def Obligations.ReservedRaises : Prop :=
  ∀ s : State,
    exec .reserved80 s = .next { s with err := 2#2, phase := .error } ∧
    (s.phase = .dec → HostQuiet s → ¬Waits s → slotAt s 0 = .byte 0x80#8 →
      step s = .next { beginStep s with err := 2#2, phase := .error })

/-- R174, R175, R176, and R285 for the premise that the streams answer (log 14): a `REP` whose payload byte is there writes
it `count` times, counts `count` in `cnt[out]` and consumes two slots; one whose payload byte is missing raises
TRUNCATED_PACKET with no other effect. -/
def Obligations.RepResult : Prop :=
  ∀ (count : BitVec 7) (s : State),
    (s.remaining.toNat < 2 →
      exec (.rep count) s = .next { s with err := 1#2, phase := .error }) ∧
    (∀ v : Byte, Fair s → 2 ≤ s.remaining.toNat → s.remaining.toNat ≤ fillLimit s.phase →
      slotAt s 1 = .byte v →
      ∃ t, exec (.rep count) s = .next t ∧
        Consumed 2 (emit (List.replicate count.toNat v) count.toNat s) t)

/-- R173, R175, R176, and R285 for the premise that the streams answer (log 14): a `LIT` whose payload is there writes it in
order, counts its length in `cnt[out]` and consumes `length + 1` slots; one whose payload runs past the buffered bytes
raises TRUNCATED_PACKET with no other effect. -/
def Obligations.LitResult : Prop :=
  ∀ (length : BitVec 7) (s : State),
    (s.remaining.toNat < length.toNat + 1 →
      exec (.lit length) s = .next { s with err := 1#2, phase := .error }) ∧
    (∀ payload : List Byte, Fair s → length.toNat + 1 ≤ s.remaining.toNat →
      s.remaining.toNat ≤ fillLimit s.phase → payload.length = length.toNat →
      (∀ k b, payload[k]? = some b → slotAt s (1 + k) = .byte b) →
      ∃ t, exec (.lit length) s = .next t ∧
        Consumed (length.toNat + 1) (emit payload length.toNat s) t)

/-- R173, R174, R244, R285: the frame of `REP` and `LIT`, for every count and length. Whatever next state they answer, the
mode and the host's side are untouched, OUT is only appended to, every slot outside the consumed span (from `pos`) and the
refilled span (from `index`) reads as before, and one of three holds: nothing but `err` and the phase changes; or all is
done, and `index`, `remaining`, `pos`, IN and the counters change as CONSUME and INCREMENT say; or the block waits for a
stream in the packet's step (log 14), with `j` bytes of the REFILL taken and `pos` where it was. Where the streams answer it
does not wait. -/
def Obligations.PacketFrame : Prop :=
  ∀ (i : Instr) (s t : State), (∃ n, i = .rep n ∨ i = .lit n) → exec i s = .next t →
    t.mode = s.mode ∧ t.host = s.host ∧ t.rdata = s.rdata ∧ t.tick = s.tick ∧
    (Fair s → Fair t) ∧ (∃ p, t.out = s.out ++ p) ∧
    (∀ a, (∀ k, k < 1 + i.payloadLen → a ≠ slotIdx s.pos k) →
      (∀ k, k < 1 + i.payloadLen → a ≠ slotIdx s.index k) →
      SlotMemory.read t.buf a = SlotMemory.read s.buf a) ∧
    (t = { s with err := 1#2, phase := .error } ∨
      (t.err = s.err ∧ t.phase = s.phase ∧ t.pos = slotIdx s.pos (1 + i.payloadLen) ∧
        t.inp = s.inp.drop (1 + i.payloadLen) ∧
        t.index = slotIdx s.index (min (1 + i.payloadLen) s.inp.length) ∧
        t.remaining.toNat + (1 + i.payloadLen) =
          s.remaining.toNat + min (1 + i.payloadLen) s.inp.length ∧
        (∃ n, t.cntOut = incrementCounter n s.cntOut ∧ t.unitsOut = s.unitsOut + n ∧
          t.out.length = s.out.length + n) ∧
        t.cntIn = incrementCounter (min (1 + i.payloadLen) s.inp.length) s.cntIn ∧
        t.unitsIn = s.unitsIn + min (1 + i.payloadLen) s.inp.length) ∨
      (Waits t ∧ t.err = s.err ∧ t.phase = s.phase ∧ t.pos = s.pos ∧
        (∃ n, t.cntOut = incrementCounter n s.cntOut ∧ t.unitsOut = s.unitsOut + n ∧
          t.out.length ≤ s.out.length + n) ∧
        ∃ j, j ≤ min (1 + i.payloadLen) s.inp.length ∧ t.inp = s.inp.drop j ∧
          t.index = slotIdx s.index j ∧ t.cntIn = incrementCounter j s.cntIn ∧
          t.unitsIn = s.unitsIn + j ∧
          ((j = 0 ∧ t.remaining = s.remaining) ∨
            t.remaining.toNat + (1 + i.payloadLen) = s.remaining.toNat + j)))

/-- R247: the order of the tests at the decoder's loop head, with what each ends in; the size of a packet is that of
R93. A block that waits for a stream (log 14) takes no step there. -/
def Obligations.DecoderTestOrder : Prop :=
  ∀ s : State, s.phase = .dec → HostQuiet s → ¬Waits s →
    (slotAt s 0 = .endMark → step s = .next { beginStep s with phase := .done }) ∧
    ∀ c : Byte, slotAt s 0 = .byte c →
      (c = 0x00#8 → step s = .next { beginStep s with phase := .done }) ∧
      (c = 0x80#8 → step s = .next { beginStep s with err := 2#2, phase := .error }) ∧
      (0x01 ≤ c.toNat → c.toNat ≤ 0x7F → s.remaining.toNat < 2 →
        step s = .next { beginStep s with err := 1#2, phase := .error }) ∧
      (0x81 ≤ c.toNat → s.remaining.toNat < 1 + (c.toNat - 0x80) →
        step s = .next { beginStep s with err := 1#2, phase := .error })

/-! ### Commands (44_stream_driver.md) -/

/-- R222: what an accepted START does, for both modes, where the streams answer (R285, log 14): the state it writes, then
the first REFILL. -/
def Obligations.StartResult : Prop :=
  ∀ s : State, s.busy = false → Fair s →
    (∃ t, exec .compress s = .next t ∧
      Refilled 127
        { s with
          buf := [], index := 0#7, remaining := 0#8, pos := 0#7, cntIn := Counter.zero,
          cntOut := Counter.zero, unitsIn := 0, unitsOut := 0, mode := .compress, err := 0#2, phase := .enc } t) ∧
    (∃ t, exec .decompress s = .next t ∧
      Refilled 128
        { s with
          buf := [], index := 0#7, remaining := 0#8, pos := 0#7, cntIn := Counter.zero,
          cntOut := Counter.zero, unitsIn := 0, unitsOut := 0, mode := .decompress, err := 0#2, phase := .dec } t)

/-- R222, R51, and R285 for the premise that the streams answer (log 14): after START's step the window holds the first bytes
of IN, at most the fill, and the rest is still in IN; an empty IN leaves the `END` marker in slot 0. -/
def Obligations.StartWindow : Prop :=
  ∀ (s : State) (i : Instr) (fill : Nat), s.busy = false → Fair s →
    (i = .compress ∧ fill = 127) ∨ (i = .decompress ∧ fill = 128) →
    ∃ t, exec i s = .next t ∧ window t = some (s.inp.take fill) ∧ t.inp = s.inp.drop fill ∧
      t.pos = 0#7 ∧ (s.inp = [] → slotAt t 0 = .endMark)

/-- R221, R226: START is accepted in IDLE, DONE and ERROR; a write of `CTRL` while BUSY is ignored and the run continues.
R38: a write with START = 0 does nothing. That an ignored write is taken off the host's list and the sequencer goes on in
the same step is the model's choice (log 1, log 11). -/
def Obligations.StartAcceptance : Prop :=
  ∀ (s : State) (v : BitVec 2) (rest : List HostEvent), s.host = .ctrlWrite v :: rest →
    (s.busy = true → step s = step { s with host := .wait :: rest }) ∧
    (s.busy = false → v.getLsbD 0 = true →
      step s = exec (if v.getLsbD 1 then .decompress else .compress) (beginStep s)) ∧
    (s.busy = false → v.getLsbD 0 = false → step s = .next (beginStep s))

/-- R221, U10: while BUSY neither command changes anything. -/
def Obligations.CommandWhileBusy : Prop :=
  ∀ s : State, s.busy = true → exec .compress s = .next s ∧ exec .decompress s = .next s

/-- R222, R227, R285: the frame of the two commands, accepted or not, and whether the streams answer or not: OUT and the
host's side are untouched, IN only loses bytes from its head, and no stream event happens but those of the REFILL. Where
the streams answer the block does not wait (log 14). -/
def Obligations.CommandFrame : Prop :=
  ∀ (i : Instr) (s t : State), (i = .compress ∨ i = .decompress) → exec i s = .next t →
    t.out = s.out ∧ t.host = s.host ∧ t.rdata = s.rdata ∧ t.tick = s.tick ∧
      (Fair s → Fair t) ∧
      ∃ n, n ≤ 128 ∧ t.inp = s.inp.drop n ∧ t.events = s.events ++ readEvents n s.inp

/-! ### Buffer operations (40_lookahead_buffer.md) -/

/-- R124: after a REFILL whose requests the streams answer (R285, log 14) exactly one of three things holds. -/
def Obligations.RefillOutcome : Prop :=
  ∀ (n : Amount) (s : State), 0 < n.toNat → Fair s → BufferInv s →
    s.remaining.toNat + n.toNat ≤ fillLimit s.phase →
    ∃ t, refill n s = .next t ∧ BufferInv t ∧
      ((n.toNat ≤ s.inp.length ∧ t.inp = s.inp.drop n.toNat ∧
          t.remaining.toNat = s.remaining.toNat + n.toNat ∧
          ∀ k, k < 128 → slotAt t k ≠ .endMark) ∨
        (s.inp.length < n.toNat ∧ t.inp = [] ∧ 1 ≤ t.remaining.toNat ∧
          ∀ k, k < 128 → slotAt t k ≠ .endMark) ∨
        (s.inp = [] ∧ t.inp = [] ∧ t.remaining = 0#8 ∧ t.index = s.index ∧
          SlotMemory.read t.buf t.index = .endMark))

/-- R125: REFILL(0) reads nothing and changes nothing, not even where IN is exhausted and `remaining` is 0. -/
def Obligations.RefillZero : Prop :=
  ∀ s : State, s.remaining.toNat ≤ fillLimit s.phase → refill 0#8 s = .next s

/-- R126: after INVALIDATE(start, amount) a slot reads `EMPTY` where it is one of the `amount` slots from `start` on, modulo
128, and reads as before elsewhere; so `amount` = 128 empties the buffer wherever it starts, and 0 changes nothing. -/
def Obligations.InvalidateEnds : Prop :=
  ∀ (m : SlotMemory) (start : SlotIdx), SlotMemory.wf m →
    (∀ (amount : Amount) (a : SlotIdx),
      SlotMemory.wf (invalidate m start amount) ∧
      SlotMemory.read (invalidate m start amount) a =
        if ∃ k, k < amount.toNat ∧ a = slotIdx start k then .empty else SlotMemory.read m a) ∧
    invalidate m start 128#8 = [] ∧ invalidate m start 0#8 = m

/-- The canonical form (log 2): two buffers in it that read alike at every slot are the same list. -/
def Obligations.CanonicalUnique : Prop :=
  ∀ m m' : SlotMemory, SlotMemory.wf m → SlotMemory.wf m' →
    (∀ a, SlotMemory.read m a = SlotMemory.read m' a) → m = m'

/-! ### The digit-group counter (43_counter.md) -/

/-- R201: one unit walk: the leading groups at 999 become 0, the first other group is incremented, the rest stay; the
carry out of the last group is dropped. -/
def Obligations.UnitWalk : Prop :=
  ∀ (c : Counter) (k : Nat), (∀ j, j < k → c.toList[j]? = some 999#16) →
    (k = 9 → (unitWalk c).toList = List.replicate 9 0#16) ∧
    (∀ g, c.toList[k]? = some g → g ≠ 999#16 →
      (unitWalk c).toList = List.replicate k 0#16 ++ (g + 1#16) :: c.toList.drop (k + 1))

/-- R203: INCREMENT adds modulo 1000^9 and keeps every group in 0..999. -/
def Obligations.IncrementValue : Prop :=
  ∀ (c : Counter) (amount : Nat), c.InRange →
    (incrementCounter amount c).val = (c.val + amount) % 1000 ^ 9 ∧
      (incrementCounter amount c).InRange

/-- R202: one unit past 10^27 - 1 sets all nine groups to 0. -/
def Obligations.CounterWraps : Prop :=
  incrementCounter 1 (Vector.replicate 9 999#16) = Counter.zero

/-- R206: FORMAT of a counter that is not 0, with `h` its largest group that is not 0: the groups above `h` are suppressed
and the others rendered, so the text has `h + 1` groups of three characters; a comma stands between two groups and nowhere
else, and every other character is a decimal digit; the digits, read as one decimal number, are `val`. It does not depend
on `FMT_ZERO`. -/
def Obligations.FormatShowsValue : Prop :=
  ∀ (c : Counter) (z : List Char) (h : Nat), c.InRange → h < 9 → c.toList[h]? ≠ some 0#16 →
    (∀ g, h < g → g < 9 → c.toList[g]? = some 0#16) →
    format z c = renderGroups (c.toList.take (h + 1)).reverse ∧
    (format z c).length = 4 * h + 3 ∧
    (∀ (j : Nat) (ch : Char), (format z c)[j]? = some ch →
      if j % 4 = 3 then ch = ',' else ∃ d, d < 10 ∧ ch = digitChar d) ∧
    readDigits (format z c) = c.val

/-- R207: FORMAT of a counter whose groups are all 0 is the parameter `FMT_ZERO`, whatever it is. -/
def Obligations.FormatZero : Prop := ∀ z : List Char, format z Counter.zero = z

/-! ### The encoder (41_encoder.md) -/

/-- R142: RUNDETECT finds the longest run, capped at 127. -/
def Obligations.RunDetect : Prop :=
  ∀ s : State, 1 ≤ runDetect s ∧ runDetect s ≤ 127 ∧
    (∀ k, k < runDetect s → slotAt s k = slotAt s 0) ∧
    (runDetect s < 127 → slotAt s (runDetect s) ≠ slotAt s 0)

/-- R144: LITSCAN, where no run of two stands at the scan position: it absorbs symbols while each differs from the next,
capped at 127; and on a buffer that meets the encoder's invariants it absorbs bytes of the valid span only. -/
def Obligations.LitScan : Prop :=
  ∀ s : State, slotAt s 0 ≠ slotAt s 1 →
    1 ≤ litScan s ∧ litScan s ≤ 127 ∧
    (∀ k, k < litScan s → slotAt s k ≠ slotAt s (k + 1)) ∧
    (litScan s < 127 → slotAt s (litScan s) = slotAt s (litScan s + 1)) ∧
    (BufferInv s → s.phase = .enc → 1 ≤ s.remaining.toNat → litScan s ≤ s.remaining.toNat)

/-- R148 with R143, R145, R146, R147: one step of the encoder on a window that is not empty, where the streams answer. A run
of at least 2 gives a repeat packet, otherwise a literal packet; its bytes go to OUT, all of them are counted in
`cnt[out]`, and the symbols it covers are consumed. -/
def Obligations.EncoderIteration : Prop :=
  ∀ (s : State) (b : Byte) (rest : List Byte), BlockInv s → s.phase = .enc → HostQuiet s →
    Fair s → window s = some (b :: rest) →
    ∃ t, step s = .next t ∧
      (2 ≤ headRun (b :: rest) →
        Consumed (headRun (b :: rest))
          (emit [BitVec.ofNat 8 (headRun (b :: rest)), b] 2 (beginStep s)) t) ∧
      (headRun (b :: rest) < 2 →
        Consumed (headLit (b :: rest))
          (emit ((0x80#8 ||| BitVec.ofNat 8 (headLit (b :: rest))) ::
            (b :: rest).take (headLit (b :: rest))) (headLit (b :: rest) + 1) (beginStep s)) t)

/-- R150: the step that ends COMPRESS, where OUT accepts the byte, writes the terminator, counts it, and changes nothing
else but the phase; on a buffer that meets its invariant this leaves `remaining` 0, `index` at `pos` and every slot but the
marker's `EMPTY`. Where OUT never accepts it the block waits, with nothing written and nothing counted (R67, R285,
log 14). -/
def Obligations.EncoderTerminates : Prop :=
  ∀ s : State, s.phase = .enc → HostQuiet s → slotAt s 0 = .endMark →
    (Fair s → step s = .next { emit [0x00#8] 1 (beginStep s) with phase := .done }) ∧
    (s.answers = .upTo 0 → step s = .next { beginStep s with answers := .never }) ∧
    (BufferInv s → s.remaining = 0#8 ∧ s.index = s.pos ∧
      ∀ k, 0 < k → k < 128 → slotAt s k = .empty)

/-! ### The sequencer (44_stream_driver.md, 60_exceptions.md, 70_reset_and_hazards.md) -/

/-- R170, R226: in DEC a step runs the instruction whose code byte stands at the scan position, at the state in which the
step begins. A block that waits for a stream (log 14) fetches nothing. -/
def Obligations.StepRunsPacket : Prop :=
  ∀ (s : State) (c : Byte), s.phase = .dec → HostQuiet s → ¬Waits s → slotAt s 0 = .byte c →
    step s = exec (decodeCode c) (beginStep s)

/-- R226, R102: where the block is not BUSY a step runs the command that the host writes to `CTRL`, at the state in which
the step begins. -/
def Obligations.StepRunsCommand : Prop :=
  ∀ (s : State) (v : BitVec 2) (i : Instr) (rest : List HostEvent), s.busy = false →
    s.host = .ctrlWrite v :: rest → decode (.ctrl v) = .ok i → step s = exec i (beginStep s)

/-- R229: the phase transitions, complete, with what each of them needs of the host. -/
def Obligations.PhaseTransitions : Prop :=
  ∀ s t : State, step s = .next t →
    (t.phase = s.phase ∧ ∀ rest, s.host = .reset :: rest → s.phase = .idle) ∨
    (t.phase = .idle ∧ ∃ rest, s.host = .reset :: rest) ∨
    ((s.phase = .idle ∨ s.phase = .done ∨ s.phase = .error) ∧
      ∃ v rest, s.host = .ctrlWrite v :: rest ∧ v.getLsbD 0 = true ∧
        t.phase = if v.getLsbD 1 then .dec else .enc) ∨
    (s.phase = .enc ∧ t.phase = .done) ∨
    (s.phase = .dec ∧ (t.phase = .done ∨ t.phase = .error))

/-- R228, R226: once a run is over, and until the next START or reset, no step changes anything (the record of the step's
own events, log 1 and log 19, apart). -/
def Obligations.RunIsOver : Prop :=
  ∀ s : State, s.busy = false → HostQuiet s → step s = .next (beginStep s)

/-- R248: ERROR and its cause stay until the next accepted START, which clears `err`, or reset. -/
def Obligations.ErrorIsSticky : Prop :=
  ∀ s t : State, s.phase = .error → step s = .next t →
    (t.phase = .error ∧ t.err = s.err) ∨
    (∃ rest, s.host = .reset :: rest ∧ t.phase = .idle ∧ t.err = 0#2) ∨
    (∃ v rest, s.host = .ctrlWrite v :: rest ∧ v.getLsbD 0 = true ∧ t.busy = true ∧ t.err = 0#2)

/-- R270: reset, in any phase and in a hang too, puts every piece of the block's state at its reset value and ends its
waiting (log 14); what was written to OUT stays written and what was taken from IN stays taken. -/
def Obligations.ResetInAnyPhase : Prop :=
  ∀ (s : State) (rest : List HostEvent), s.host = .reset :: rest →
    ∃ t, step s = .next t ∧ (∀ a, SlotMemory.read t.buf a = .empty) ∧ t.index = 0#7 ∧
      t.remaining = 0#8 ∧ t.pos = 0#7 ∧ (∀ g ∈ t.cntIn.toList, g = 0#16) ∧
      (∀ g ∈ t.cntOut.toList, g = 0#16) ∧ t.phase = .idle ∧ modeCode t.mode = 0#1 ∧ t.err = 0#2 ∧
      t.inp = s.inp ∧ t.out = s.out ∧ ¬Waits t

/-- R50: the values after reset, and what the host reads of them. -/
def Obligations.ResetValues : Prop :=
  (∀ a, SlotMemory.read State.reset.buf a = .empty) ∧ State.reset.index = 0#7 ∧
    State.reset.remaining = 0#8 ∧ State.reset.pos = 0#7 ∧
    (∀ g ∈ State.reset.cntIn.toList, g = 0#16) ∧ (∀ g ∈ State.reset.cntOut.toList, g = 0#16) ∧
    State.reset.phase = .idle ∧ modeCode State.reset.mode = 0#1 ∧ State.reset.err = 0#2 ∧
    statusWord State.reset = 0#5 ∧ ∀ s, readReg s 0x00 = some 0#16

/-- R39, R38: the fields of `STATUS`, and that `CTRL` reads 0. -/
def Obligations.StatusFields : Prop :=
  ∀ s : State, readReg s 0x00 = some 0#16 ∧
    readReg s 0x01 = some ((statusWord s).setWidth 16) ∧
    (statusWord s).extractLsb' 0 2 =
      (match s.phase with
        | .idle => 0#2
        | .enc => 1#2
        | .dec => 1#2
        | .done => 2#2
        | .error => 3#2) ∧
    (statusWord s).extractLsb' 2 2 = s.err ∧
    (statusWord s).extractLsb' 4 1 =
      (match s.mode with
        | .compress => 0#1
        | .decompress => 1#1)

/-- R40, R83, R281: outside a run the counter registers read the groups; during a run a read gives the group as it stood at
some moment of the run, `k` units after START cleared the accumulator; bits 15:10 read 0 always. -/
def Obligations.CounterRegisters : Prop :=
  ∀ (s : State) (g : Nat), g < 9 → CountersInRange s →
    (s.busy = false →
      readReg s (0x10 + g) = s.cntIn.toList[g]? ∧ readReg s (0x20 + g) = s.cntOut.toList[g]?) ∧
    (s.busy = true →
      (∃ k, k ≤ s.unitsIn ∧ readReg s (0x10 + g) = (counterAfter k).toList[g]?) ∧
      ∃ k, k ≤ s.unitsOut ∧ readReg s (0x20 + g) = (counterAfter k).toList[g]?) ∧
    (∃ v, readReg s (0x10 + g) = some v ∧ v.toNat ≤ 999) ∧
    (∃ v, readReg s (0x20 + g) = some v ∧ v.toNat ≤ 999)

/-- R83: a register read never changes what the sequencer does: the step is that of a host that waits, but for the value
delivered. -/
def Obligations.ReadsAreHarmless : Prop :=
  ∀ (s : State) (num : Nat) (v : BitVec 16) (rest : List HostEvent),
    s.host = .read num :: rest → readReg s num = some v →
    step s =
      match step { s with host := .wait :: rest } with
      | .next t => .next { t with rdata := v, tick := s.tick + 1 }
      | .fault e => .fault e
      | .refused e => .refused e

/-- R34: no rule of the buffer, the encoder or the decoder reads a counter: with other values in the two accumulators a
step does the same, the accumulators apart. -/
def Obligations.CountersAreSilent : Prop :=
  ∀ (s : State) (ci co : Counter), (∀ num rest, s.host ≠ .read num :: rest) →
    (∀ t, step s = .next t →
      ∃ t', step { s with cntIn := ci, cntOut := co } = .next t' ∧
        { t' with cntIn := t.cntIn, cntOut := t.cntOut } = t) ∧
    (∀ e, step s = .fault e → step { s with cntIn := ci, cntOut := co } = .fault e) ∧
    (∀ e, step s = .refused e → step { s with cntIn := ci, cntOut := co } = .refused e)

/-! ### Invariants (10_state.md) -/

/-- R27 to R30, R34 to R37 hold after reset. -/
def Obligations.InvAtReset : Prop := BlockInv State.reset

/-- R25, R27 to R30, R34 to R37: every step keeps them, whatever the host does; R285: a block that waits for a stream is
BUSY, and what R25 and R27 to R30 say of the buffer is not said of a block inside a step. -/
def Obligations.InvStep : Prop := ∀ s t : State, BlockInv s → step s = .next t → BlockInv t

/-- The buffer's list stays in its canonical form (log 2) in every step, from every state in which it has it. -/
def Obligations.CanonicalStep : Prop :=
  ∀ s t : State, BufferCanonical s → step s = .next t → BufferCanonical t

/-- R34: every group stays in 0..999 in every step, from every state in which it is. -/
def Obligations.CountersStep : Prop :=
  ∀ s t : State, CountersInRange s → step s = .next t → CountersInRange t

/-- R226, U6, U7: from a block that meets the invariants, also one that waits for a stream, the machine always has a step,
unless the host reads a register that does not exist or changes the streams during a run. -/
def Obligations.NeverStops : Prop :=
  ∀ s : State, BlockInv s → ¬HostOffends s → ∃ t, step s = .next t

/-- R28, R232: a step of a running operation that the block completes, waiting for no stream (log 14), moves the window along
the stream: some number `c` of bytes leaves the front of what is buffered and still in IN, and the scan position advances
by `c`. -/
def Obligations.WindowMoves : Prop :=
  ∀ s t : State, BlockInv s → s.busy = true → HostQuiet s → step s = .next t → ¬Waits t →
    ∃ c w w', c ≤ 128 ∧ window s = some w ∧ window t = some w' ∧
      w' ++ t.inp = (w ++ s.inp).drop c ∧ t.pos = slotIdx s.pos c

/-- R232, R93: in DEC the scan position stays where it is, where the phase is left or the block waits for a stream (log 14),
or moves to the next code byte, by the size of the packet that the code byte gives. -/
def Obligations.DecoderAdvance : Prop :=
  ∀ (s t : State) (c : Byte), s.phase = .dec → HostQuiet s → slotAt s 0 = .byte c →
    step s = .next t →
    (t.phase ≠ .dec ∧ t.pos = s.pos) ∨ (Waits t ∧ t.phase = .dec ∧ t.pos = s.pos) ∨
    (t.phase = .dec ∧ 0x81 ≤ c.toNat ∧ t.pos = slotIdx s.pos (1 + (c.toNat - 0x80))) ∨
    (t.phase = .dec ∧ 0x01 ≤ c.toNat ∧ c.toNat ≤ 0x7F ∧ t.pos = slotIdx s.pos 2)

/-! ### Whole operations -/

/-- R153, R154, R152: COMPRESS of any input ends, under the fairness assumption of R285, after at most one step per input
byte besides START and TERMINATE, in DONE with `enc` of the input written to OUT and the end state of R154. The steps are
the model's (log 11, log 15), and so is how the streams answer (log 14). -/
def Obligations.CompressRun : Prop :=
  ∀ s : State, s.busy = false → Fair s → s.host = [.ctrlWrite 0b01#2] →
    ∃ (k : Nat) (t : State), k ≤ s.inp.length + 2 ∧ core.run k s = .next t ∧
      t.out = s.out ++ enc s.inp ∧ t.cntIn.val = s.inp.length % 10 ^ 27 ∧
      t.cntOut.val = (enc s.inp).length % 10 ^ 27 ∧ t.pos.toNat = s.inp.length % 128 ∧
      t.index = t.pos ∧ t.remaining = 0#8 ∧ slotAt t 0 = .endMark ∧
      (∀ j, 0 < j → j < 128 → slotAt t j = .empty) ∧ t.phase = .done ∧ t.err = 0#2 ∧ t.inp = []

/-- R180, R183, R178: DECOMPRESS of any input ends, under the fairness assumption of R285, after at most one step per two
input bytes besides START and the last step, with `dec` of the input written to OUT: in DONE, or in ERROR with the cause.
The steps are the model's (log 11, log 15), and so is how the streams answer (log 14). -/
def Obligations.DecompressRun : Prop :=
  ∀ s : State, s.busy = false → Fair s → s.host = [.ctrlWrite 0b11#2] →
    ∃ (k : Nat) (t : State), k ≤ s.inp.length / 2 + 2 ∧ core.run k s = .next t ∧
      t.out = s.out ++ (dec s.inp).1 ∧
      (match (dec s.inp).2 with
        | none => t.phase = .done ∧ t.err = 0#2
        | some .truncatedPacket => t.phase = .error ∧ t.err = 1#2
        | some .reservedCode => t.phase = .error ∧ t.err = 2#2) ∧
      t.cntOut.val = (dec s.inp).1.length % 10 ^ 27 ∧
      ∃ n, n ≤ s.inp.length ∧ t.inp = s.inp.drop n ∧ t.cntIn.val = n % 10 ^ 27

/-- R182, R280: the end state of DECOMPRESS, under the fairness assumption of R285 (log 14), where packets, a terminator and
further bytes stand on IN: up to 127 bytes after the terminator have been taken and counted, the terminator is not
consumed, and OUT does not depend on what follows it. -/
def Obligations.DecompressEndState : Prop :=
  ∀ (s : State) (packets : List (Instr × List Byte)) (p tail : List Byte), s.busy = false →
    Fair s → s.host = [.ctrlWrite 0b11#2] →
    (∀ q ∈ packets, q.1.wellFormed = true ∧ (∃ n, q.1 = .rep n ∨ q.1 = .lit n) ∧
      q.2.length = q.1.payloadLen) →
    p = packets.flatMap (fun q => (encodePacket q.1 q.2).getD []) →
    s.inp = p ++ 0x00#8 :: tail →
    ∃ (k : Nat) (t : State), core.run k s = .next t ∧ t.phase = .done ∧ t.err = 0#2 ∧
      t.out = s.out ++ (dec s.inp).1 ∧ dec s.inp = dec (p ++ [0x00#8]) ∧
      t.cntIn.val = (p.length + 1 + min tail.length 127) % 10 ^ 27 ∧
      t.cntOut.val = (dec s.inp).1.length % 10 ^ 27 ∧ t.pos.toNat = p.length % 128 ∧
      t.remaining.toNat = 1 + min tail.length 127 ∧ t.index = slotIdx t.pos t.remaining.toNat ∧
      window t = some (0x00#8 :: tail.take 127) ∧
      (∀ j, t.remaining.toNat ≤ j → j < 128 → slotAt t j = .empty) ∧ t.inp = tail.drop 127

/-- R181: the round trip: `dec (enc S) = S` for every S, and DECOMPRESS of `enc S` ends, under the fairness assumption of
R285 (log 14), in DONE with S written to OUT. -/
def Obligations.RoundTrip : Prop :=
  ∀ input : List Byte,
    dec (enc input) = (input, none) ∧
    ∀ s : State, s.busy = false → Fair s → s.host = [.ctrlWrite 0b11#2] → s.inp = enc input →
      ∃ (k : Nat) (t : State), core.run k s = .next t ∧ t.phase = .done ∧ t.err = 0#2 ∧
        t.out = s.out ++ input

/-- R100, R155: the encoder's output is packets and one terminator, as its last byte; every repeat has R in 2..127, every
literal has L in 1..127 and no two adjacent payload bytes equal. -/
def Obligations.EncoderOutputForm : Prop := ∀ input : List Byte, encoderForm (enc input) = true

/-- R156, R155: compressing the empty input gives exactly the terminator; a zero byte in the input is an ordinary symbol,
so the output of an input that is not empty is never the terminator alone. -/
def Obligations.TerminatorAlone : Prop :=
  ∀ input : List Byte, enc input = [0x00#8] ↔ input = []

/-! ### Streams (20_memory.md, 70_reset_and_hazards.md) -/

/-- R78: the order of the stream events inside a step: all `OutWrite`s come before all `InRead`s; a step from a phase that is
not BUSY, START's among them, writes nothing; the step that ends COMPRESS does nothing on the streams but its one write.
What the step does to OUT and IN is what its events say, unless the host connects other streams. All of it holds in a step
in which the block waits, whose events are those that were answered (log 14, log 19). -/
def Obligations.StreamOrder : Prop :=
  ∀ s t : State, step s = .next t →
    ∃ (written : List Byte) (reads : List StreamEvent), t.events = written.map .wrote ++ reads ∧
      (∀ e ∈ reads, e = .ended ∨ ∃ b, e = .took b) ∧
      (s.busy = false → written = []) ∧
      (s.phase = .enc → t.phase = .done → t.events = [.wrote 0x00#8]) ∧
      ((∀ bytes answers rest, s.host ≠ .connect bytes answers :: rest) →
        t.out = s.out ++ written ∧ s.inp = takenBytes reads ++ t.inp)

/-- R285: under the fairness assumption no step leaves the block waiting, and the assumption stays. Where the streams answer
`n` more requests a step that makes at most `n` of them does what it does under the assumption; one that makes more leaves
the block waiting inside the step, with the first `n` of its events done and the phase ENC or DEC. That the streams answer
a number of requests is the model's form of an environment that is not fair (log 14). -/
def Obligations.StreamAnswers : Prop :=
  ∀ s : State, (∀ bytes answers rest, s.host ≠ .connect bytes answers :: rest) →
    (∀ t, Fair s → step s = .next t → Fair t) ∧
    ∀ (t : State) (n : Nat), s.answers = .upTo n → step { s with answers := .always } = .next t →
      (t.events.length ≤ n →
        step s = .next { t with answers := .upTo (n - t.events.length) }) ∧
      (n < t.events.length →
        ∃ u, step s = .next u ∧ Waits u ∧ u.busy = true ∧ u.events = t.events.take n)

/-- R285, U13, R270: a hang. A block that waits does nothing for ever: whatever the host does, but for reset, only the
host's own side changes; `STATUS` reads BUSY and the counters can be read, a write of `CTRL` is ignored, and reset ends it.
That a waiting block is a state, in which the machine's step is the host's alone, is the model's form of U13's `stuck`
(log 14). -/
def Obligations.HangStays : Prop :=
  ∀ s : State, Waits s → s.busy = true →
    (statusWord s).extractLsb' 0 2 = 1#2 ∧
    (HostQuiet s → step s = .next (beginStep s)) ∧
    (∀ v rest, s.host = .ctrlWrite v :: rest → step s = .next (beginStep s)) ∧
    (∀ num v rest, s.host = .read num :: rest → readReg s num = some v →
      step s = .next { beginStep s with rdata := v, tick := s.tick + 1 }) ∧
    (∀ rest, s.host = .reset :: rest →
      ∃ t, step s = .next t ∧ t.phase = .idle ∧ ¬Waits t ∧ t.inp = s.inp ∧ t.out = s.out)

/-- R222, R285: a START whose first REFILL the streams do not answer to the end. The block waits in phase ENC or DEC, as the
mode says, with `mode`, `err` and the counters as START writes them, and the `n` bytes that IN delivered taken and counted
(log 14). -/
def Obligations.StartHangs : Prop :=
  ∀ (s : State) (n : Nat), s.busy = false → s.answers = .upTo n →
    (n < (readEvents 127 s.inp).length →
      ∃ t, exec .compress s = .next t ∧ Waits t ∧ t.phase = .enc ∧ t.mode = .compress ∧ t.err = 0#2 ∧
        t.inp = s.inp.drop n ∧ t.cntIn = counterAfter n ∧ t.cntOut = Counter.zero ∧
        t.out = s.out ∧ t.events = s.events ++ (s.inp.take n).map .took) ∧
    (n < (readEvents 128 s.inp).length →
      ∃ t, exec .decompress s = .next t ∧ Waits t ∧ t.phase = .dec ∧ t.mode = .decompress ∧ t.err = 0#2 ∧
        t.inp = s.inp.drop n ∧ t.cntIn = counterAfter n ∧ t.cntOut = Counter.zero ∧
        t.out = s.out ∧ t.events = s.events ++ (s.inp.take n).map .took)
end

