-- ==== Sys2Proof/Laws/State.lean ====
section
/-! SUPPORT. One lemma per field for each named update of the state, so that no proof unfolds an update. -/

namespace Sys2Proof.Machine

/-! ### `raise` -/

@[simp] theorem raise_buf (e : Cause) (s : State) : (raise e s).buf = s.buf := rfl
@[simp] theorem raise_index (e : Cause) (s : State) : (raise e s).index = s.index := rfl
@[simp] theorem raise_remaining (e : Cause) (s : State) : (raise e s).remaining = s.remaining := rfl
@[simp] theorem raise_pos (e : Cause) (s : State) : (raise e s).pos = s.pos := rfl
@[simp] theorem raise_cntIn (e : Cause) (s : State) : (raise e s).cntIn = s.cntIn := rfl
@[simp] theorem raise_cntOut (e : Cause) (s : State) : (raise e s).cntOut = s.cntOut := rfl
@[simp] theorem raise_phase (e : Cause) (s : State) : (raise e s).phase = .error := rfl
@[simp] theorem raise_mode (e : Cause) (s : State) : (raise e s).mode = s.mode := rfl
@[simp] theorem raise_err (e : Cause) (s : State) : (raise e s).err = e.code := rfl
@[simp] theorem raise_inp (e : Cause) (s : State) : (raise e s).inp = s.inp := rfl
@[simp] theorem raise_out (e : Cause) (s : State) : (raise e s).out = s.out := rfl
@[simp] theorem raise_host (e : Cause) (s : State) : (raise e s).host = s.host := rfl
@[simp] theorem raise_rdata (e : Cause) (s : State) : (raise e s).rdata = s.rdata := rfl
@[simp] theorem raise_tick (e : Cause) (s : State) : (raise e s).tick = s.tick := rfl
@[simp] theorem raise_events (e : Cause) (s : State) :
    (raise e s).events = s.events := rfl
@[simp] theorem raise_answers (e : Cause) (s : State) :
    (raise e s).answers = s.answers := rfl
@[simp] theorem raise_unitsIn (e : Cause) (s : State) :
    (raise e s).unitsIn = s.unitsIn := rfl
@[simp] theorem raise_unitsOut (e : Cause) (s : State) :
    (raise e s).unitsOut = s.unitsOut := rfl

/-! ### `init` -/

@[simp] theorem init_buf (s : State) : (init s).buf = [] := rfl
@[simp] theorem init_index (s : State) : (init s).index = 0#7 := rfl
@[simp] theorem init_remaining (s : State) : (init s).remaining = 0#8 := rfl
@[simp] theorem init_pos (s : State) : (init s).pos = 0#7 := rfl
@[simp] theorem init_cntIn (s : State) : (init s).cntIn = s.cntIn := rfl
@[simp] theorem init_cntOut (s : State) : (init s).cntOut = s.cntOut := rfl
@[simp] theorem init_phase (s : State) : (init s).phase = s.phase := rfl
@[simp] theorem init_mode (s : State) : (init s).mode = s.mode := rfl
@[simp] theorem init_err (s : State) : (init s).err = s.err := rfl
@[simp] theorem init_inp (s : State) : (init s).inp = s.inp := rfl
@[simp] theorem init_out (s : State) : (init s).out = s.out := rfl
@[simp] theorem init_host (s : State) : (init s).host = s.host := rfl
@[simp] theorem init_rdata (s : State) : (init s).rdata = s.rdata := rfl
@[simp] theorem init_tick (s : State) : (init s).tick = s.tick := rfl
@[simp] theorem init_events (s : State) :
    (init s).events = s.events := rfl
@[simp] theorem init_answers (s : State) :
    (init s).answers = s.answers := rfl
@[simp] theorem init_unitsIn (s : State) :
    (init s).unitsIn = s.unitsIn := rfl
@[simp] theorem init_unitsOut (s : State) :
    (init s).unitsOut = s.unitsOut := rfl

/-! ### `clearCounters` -/

@[simp] theorem clearCounters_buf (s : State) : (clearCounters s).buf = s.buf := rfl
@[simp] theorem clearCounters_index (s : State) : (clearCounters s).index = s.index := rfl
@[simp] theorem clearCounters_remaining (s : State) :
    (clearCounters s).remaining = s.remaining := rfl
@[simp] theorem clearCounters_pos (s : State) : (clearCounters s).pos = s.pos := rfl
@[simp] theorem clearCounters_cntIn (s : State) : (clearCounters s).cntIn = Counter.zero := rfl
@[simp] theorem clearCounters_cntOut (s : State) : (clearCounters s).cntOut = Counter.zero := rfl
@[simp] theorem clearCounters_phase (s : State) : (clearCounters s).phase = s.phase := rfl
@[simp] theorem clearCounters_mode (s : State) : (clearCounters s).mode = s.mode := rfl
@[simp] theorem clearCounters_err (s : State) : (clearCounters s).err = s.err := rfl
@[simp] theorem clearCounters_inp (s : State) : (clearCounters s).inp = s.inp := rfl
@[simp] theorem clearCounters_out (s : State) : (clearCounters s).out = s.out := rfl
@[simp] theorem clearCounters_host (s : State) : (clearCounters s).host = s.host := rfl
@[simp] theorem clearCounters_rdata (s : State) : (clearCounters s).rdata = s.rdata := rfl
@[simp] theorem clearCounters_tick (s : State) : (clearCounters s).tick = s.tick := rfl
@[simp] theorem clearCounters_events (s : State) :
    (clearCounters s).events = s.events := rfl
@[simp] theorem clearCounters_answers (s : State) :
    (clearCounters s).answers = s.answers := rfl
@[simp] theorem clearCounters_unitsIn (s : State) :
    (clearCounters s).unitsIn = 0 := rfl
@[simp] theorem clearCounters_unitsOut (s : State) :
    (clearCounters s).unitsOut = 0 := rfl

/-! ### `storeByte` -/

@[simp] theorem storeByte_buf (b : Byte) (s : State) :
    (storeByte b s).buf = SlotMemory.write s.buf s.index (.byte b) := rfl
@[simp] theorem storeByte_index (b : Byte) (s : State) :
    (storeByte b s).index = slotIdx s.index 1 := rfl
@[simp] theorem storeByte_remaining (b : Byte) (s : State) :
    (storeByte b s).remaining = s.remaining + 1#8 := rfl
@[simp] theorem storeByte_pos (b : Byte) (s : State) : (storeByte b s).pos = s.pos := rfl
@[simp] theorem storeByte_cntIn (b : Byte) (s : State) :
    (storeByte b s).cntIn = incrementCounter 1 s.cntIn := rfl
@[simp] theorem storeByte_cntOut (b : Byte) (s : State) : (storeByte b s).cntOut = s.cntOut := rfl
@[simp] theorem storeByte_phase (b : Byte) (s : State) : (storeByte b s).phase = s.phase := rfl
@[simp] theorem storeByte_mode (b : Byte) (s : State) : (storeByte b s).mode = s.mode := rfl
@[simp] theorem storeByte_err (b : Byte) (s : State) : (storeByte b s).err = s.err := rfl
@[simp] theorem storeByte_inp (b : Byte) (s : State) : (storeByte b s).inp = s.inp := rfl
@[simp] theorem storeByte_out (b : Byte) (s : State) : (storeByte b s).out = s.out := rfl
@[simp] theorem storeByte_host (b : Byte) (s : State) : (storeByte b s).host = s.host := rfl
@[simp] theorem storeByte_rdata (b : Byte) (s : State) : (storeByte b s).rdata = s.rdata := rfl
@[simp] theorem storeByte_tick (b : Byte) (s : State) : (storeByte b s).tick = s.tick := rfl
@[simp] theorem storeByte_events (b : Byte) (s : State) :
    (storeByte b s).events = s.events := rfl
@[simp] theorem storeByte_answers (b : Byte) (s : State) :
    (storeByte b s).answers = s.answers := rfl
@[simp] theorem storeByte_unitsIn (b : Byte) (s : State) :
    (storeByte b s).unitsIn = s.unitsIn + 1 := rfl
@[simp] theorem storeByte_unitsOut (b : Byte) (s : State) :
    (storeByte b s).unitsOut = s.unitsOut := rfl

/-! ### `cull` -/

@[simp] theorem cull_buf (c : Amount) (s : State) : (cull c s).buf = invalidate s.buf s.pos c := rfl
@[simp] theorem cull_index (c : Amount) (s : State) : (cull c s).index = s.index := rfl
@[simp] theorem cull_remaining (c : Amount) (s : State) :
    (cull c s).remaining = s.remaining - c := rfl
@[simp] theorem cull_pos (c : Amount) (s : State) : (cull c s).pos = s.pos := rfl
@[simp] theorem cull_cntIn (c : Amount) (s : State) : (cull c s).cntIn = s.cntIn := rfl
@[simp] theorem cull_cntOut (c : Amount) (s : State) : (cull c s).cntOut = s.cntOut := rfl
@[simp] theorem cull_phase (c : Amount) (s : State) : (cull c s).phase = s.phase := rfl
@[simp] theorem cull_mode (c : Amount) (s : State) : (cull c s).mode = s.mode := rfl
@[simp] theorem cull_err (c : Amount) (s : State) : (cull c s).err = s.err := rfl
@[simp] theorem cull_inp (c : Amount) (s : State) : (cull c s).inp = s.inp := rfl
@[simp] theorem cull_out (c : Amount) (s : State) : (cull c s).out = s.out := rfl
@[simp] theorem cull_host (c : Amount) (s : State) : (cull c s).host = s.host := rfl
@[simp] theorem cull_rdata (c : Amount) (s : State) : (cull c s).rdata = s.rdata := rfl
@[simp] theorem cull_tick (c : Amount) (s : State) : (cull c s).tick = s.tick := rfl
@[simp] theorem cull_events (c : Amount) (s : State) :
    (cull c s).events = s.events := rfl
@[simp] theorem cull_answers (c : Amount) (s : State) :
    (cull c s).answers = s.answers := rfl
@[simp] theorem cull_unitsIn (c : Amount) (s : State) :
    (cull c s).unitsIn = s.unitsIn := rfl
@[simp] theorem cull_unitsOut (c : Amount) (s : State) :
    (cull c s).unitsOut = s.unitsOut := rfl

/-! ### `advance` -/

@[simp] theorem advance_buf (c : Amount) (s : State) : (advance c s).buf = s.buf := rfl
@[simp] theorem advance_index (c : Amount) (s : State) : (advance c s).index = s.index := rfl
@[simp] theorem advance_remaining (c : Amount) (s : State) :
    (advance c s).remaining = s.remaining := rfl
@[simp] theorem advance_pos (c : Amount) (s : State) : (advance c s).pos = slotIdx s.pos c.toNat := rfl
@[simp] theorem advance_cntIn (c : Amount) (s : State) : (advance c s).cntIn = s.cntIn := rfl
@[simp] theorem advance_cntOut (c : Amount) (s : State) : (advance c s).cntOut = s.cntOut := rfl
@[simp] theorem advance_phase (c : Amount) (s : State) : (advance c s).phase = s.phase := rfl
@[simp] theorem advance_mode (c : Amount) (s : State) : (advance c s).mode = s.mode := rfl
@[simp] theorem advance_err (c : Amount) (s : State) : (advance c s).err = s.err := rfl
@[simp] theorem advance_inp (c : Amount) (s : State) : (advance c s).inp = s.inp := rfl
@[simp] theorem advance_out (c : Amount) (s : State) : (advance c s).out = s.out := rfl
@[simp] theorem advance_host (c : Amount) (s : State) : (advance c s).host = s.host := rfl
@[simp] theorem advance_rdata (c : Amount) (s : State) : (advance c s).rdata = s.rdata := rfl
@[simp] theorem advance_tick (c : Amount) (s : State) : (advance c s).tick = s.tick := rfl
@[simp] theorem advance_events (c : Amount) (s : State) :
    (advance c s).events = s.events := rfl
@[simp] theorem advance_answers (c : Amount) (s : State) :
    (advance c s).answers = s.answers := rfl
@[simp] theorem advance_unitsIn (c : Amount) (s : State) :
    (advance c s).unitsIn = s.unitsIn := rfl
@[simp] theorem advance_unitsOut (c : Amount) (s : State) :
    (advance c s).unitsOut = s.unitsOut := rfl

/-! ### `startInit` -/

@[simp] theorem startInit_buf (m : Mode) (p : Phase) (s : State) : (startInit m p s).buf = [] := rfl
@[simp] theorem startInit_index (m : Mode) (p : Phase) (s : State) :
    (startInit m p s).index = 0#7 := rfl
@[simp] theorem startInit_remaining (m : Mode) (p : Phase) (s : State) :
    (startInit m p s).remaining = 0#8 := rfl
@[simp] theorem startInit_pos (m : Mode) (p : Phase) (s : State) :
    (startInit m p s).pos = 0#7 := rfl
@[simp] theorem startInit_cntIn (m : Mode) (p : Phase) (s : State) :
    (startInit m p s).cntIn = Counter.zero := rfl
@[simp] theorem startInit_cntOut (m : Mode) (p : Phase) (s : State) :
    (startInit m p s).cntOut = Counter.zero := rfl
@[simp] theorem startInit_phase (m : Mode) (p : Phase) (s : State) :
    (startInit m p s).phase = p := rfl
@[simp] theorem startInit_mode (m : Mode) (p : Phase) (s : State) :
    (startInit m p s).mode = m := rfl
@[simp] theorem startInit_err (m : Mode) (p : Phase) (s : State) :
    (startInit m p s).err = 0#2 := rfl
@[simp] theorem startInit_inp (m : Mode) (p : Phase) (s : State) :
    (startInit m p s).inp = s.inp := rfl
@[simp] theorem startInit_out (m : Mode) (p : Phase) (s : State) :
    (startInit m p s).out = s.out := rfl
@[simp] theorem startInit_host (m : Mode) (p : Phase) (s : State) :
    (startInit m p s).host = s.host := rfl
@[simp] theorem startInit_rdata (m : Mode) (p : Phase) (s : State) :
    (startInit m p s).rdata = s.rdata := rfl
@[simp] theorem startInit_tick (m : Mode) (p : Phase) (s : State) :
    (startInit m p s).tick = s.tick := rfl
@[simp] theorem startInit_events (m : Mode) (p : Phase) (s : State) :
    (startInit m p s).events = s.events := rfl
@[simp] theorem startInit_answers (m : Mode) (p : Phase) (s : State) :
    (startInit m p s).answers = s.answers := rfl
@[simp] theorem startInit_unitsIn (m : Mode) (p : Phase) (s : State) :
    (startInit m p s).unitsIn = 0 := rfl
@[simp] theorem startInit_unitsOut (m : Mode) (p : Phase) (s : State) :
    (startInit m p s).unitsOut = 0 := rfl

/-! ### `hardReset` -/

@[simp] theorem hardReset_buf (s : State) : (hardReset s).buf = [] := rfl
@[simp] theorem hardReset_index (s : State) : (hardReset s).index = 0#7 := rfl
@[simp] theorem hardReset_remaining (s : State) : (hardReset s).remaining = 0#8 := rfl
@[simp] theorem hardReset_pos (s : State) : (hardReset s).pos = 0#7 := rfl
@[simp] theorem hardReset_cntIn (s : State) : (hardReset s).cntIn = Counter.zero := rfl
@[simp] theorem hardReset_cntOut (s : State) : (hardReset s).cntOut = Counter.zero := rfl
@[simp] theorem hardReset_phase (s : State) : (hardReset s).phase = .idle := rfl
@[simp] theorem hardReset_mode (s : State) : (hardReset s).mode = .compress := rfl
@[simp] theorem hardReset_err (s : State) : (hardReset s).err = 0#2 := rfl
@[simp] theorem hardReset_inp (s : State) : (hardReset s).inp = s.inp := rfl
@[simp] theorem hardReset_out (s : State) : (hardReset s).out = s.out := rfl
@[simp] theorem hardReset_host (s : State) : (hardReset s).host = s.host := rfl
@[simp] theorem hardReset_rdata (s : State) : (hardReset s).rdata = s.rdata := rfl
@[simp] theorem hardReset_tick (s : State) : (hardReset s).tick = s.tick := rfl
@[simp] theorem hardReset_events (s : State) :
    (hardReset s).events = [] := rfl
@[simp] theorem hardReset_answers (s : State) :
    (hardReset s).answers = s.answers.released := rfl
@[simp] theorem hardReset_unitsIn (s : State) :
    (hardReset s).unitsIn = 0 := rfl
@[simp] theorem hardReset_unitsOut (s : State) :
    (hardReset s).unitsOut = 0 := rfl

/-! ### `stopDone` -/

@[simp] theorem stopDone_buf (s : State) : (stopDone s).buf = s.buf := rfl
@[simp] theorem stopDone_index (s : State) : (stopDone s).index = s.index := rfl
@[simp] theorem stopDone_remaining (s : State) : (stopDone s).remaining = s.remaining := rfl
@[simp] theorem stopDone_pos (s : State) : (stopDone s).pos = s.pos := rfl
@[simp] theorem stopDone_cntIn (s : State) : (stopDone s).cntIn = s.cntIn := rfl
@[simp] theorem stopDone_cntOut (s : State) : (stopDone s).cntOut = s.cntOut := rfl
@[simp] theorem stopDone_phase (s : State) : (stopDone s).phase = .done := rfl
@[simp] theorem stopDone_mode (s : State) : (stopDone s).mode = s.mode := rfl
@[simp] theorem stopDone_err (s : State) : (stopDone s).err = s.err := rfl
@[simp] theorem stopDone_inp (s : State) : (stopDone s).inp = s.inp := rfl
@[simp] theorem stopDone_out (s : State) : (stopDone s).out = s.out := rfl
@[simp] theorem stopDone_host (s : State) : (stopDone s).host = s.host := rfl
@[simp] theorem stopDone_rdata (s : State) : (stopDone s).rdata = s.rdata := rfl
@[simp] theorem stopDone_tick (s : State) : (stopDone s).tick = s.tick := rfl
@[simp] theorem stopDone_events (s : State) :
    (stopDone s).events = s.events := rfl
@[simp] theorem stopDone_answers (s : State) :
    (stopDone s).answers = s.answers := rfl
@[simp] theorem stopDone_unitsIn (s : State) :
    (stopDone s).unitsIn = s.unitsIn := rfl
@[simp] theorem stopDone_unitsOut (s : State) :
    (stopDone s).unitsOut = s.unitsOut := rfl

/-! ### `beginStep` -/

@[simp] theorem beginStep_buf (s : State) : (beginStep s).buf = s.buf := rfl
@[simp] theorem beginStep_index (s : State) : (beginStep s).index = s.index := rfl
@[simp] theorem beginStep_remaining (s : State) : (beginStep s).remaining = s.remaining := rfl
@[simp] theorem beginStep_pos (s : State) : (beginStep s).pos = s.pos := rfl
@[simp] theorem beginStep_cntIn (s : State) : (beginStep s).cntIn = s.cntIn := rfl
@[simp] theorem beginStep_cntOut (s : State) : (beginStep s).cntOut = s.cntOut := rfl
@[simp] theorem beginStep_phase (s : State) : (beginStep s).phase = s.phase := rfl
@[simp] theorem beginStep_mode (s : State) : (beginStep s).mode = s.mode := rfl
@[simp] theorem beginStep_err (s : State) : (beginStep s).err = s.err := rfl
@[simp] theorem beginStep_inp (s : State) : (beginStep s).inp = s.inp := rfl
@[simp] theorem beginStep_out (s : State) : (beginStep s).out = s.out := rfl
@[simp] theorem beginStep_host (s : State) : (beginStep s).host = s.host.tail := rfl
@[simp] theorem beginStep_rdata (s : State) : (beginStep s).rdata = s.rdata := rfl
@[simp] theorem beginStep_tick (s : State) : (beginStep s).tick = s.tick := rfl
@[simp] theorem beginStep_events (s : State) :
    (beginStep s).events = [] := rfl
@[simp] theorem beginStep_answers (s : State) :
    (beginStep s).answers = s.answers := rfl
@[simp] theorem beginStep_unitsIn (s : State) :
    (beginStep s).unitsIn = s.unitsIn := rfl
@[simp] theorem beginStep_unitsOut (s : State) :
    (beginStep s).unitsOut = s.unitsOut := rfl

/-! ### `increment_input` -/

@[simp] theorem increment_input_buf (n : Amount) (s : State) :
    (increment .input n s).buf = s.buf := rfl
@[simp] theorem increment_input_index (n : Amount) (s : State) :
    (increment .input n s).index = s.index := rfl
@[simp] theorem increment_input_remaining (n : Amount) (s : State) :
    (increment .input n s).remaining = s.remaining := rfl
@[simp] theorem increment_input_pos (n : Amount) (s : State) :
    (increment .input n s).pos = s.pos := rfl
@[simp] theorem increment_input_cntIn (n : Amount) (s : State) :
    (increment .input n s).cntIn = incrementCounter n.toNat s.cntIn := rfl
@[simp] theorem increment_input_cntOut (n : Amount) (s : State) :
    (increment .input n s).cntOut = s.cntOut := rfl
@[simp] theorem increment_input_phase (n : Amount) (s : State) :
    (increment .input n s).phase = s.phase := rfl
@[simp] theorem increment_input_mode (n : Amount) (s : State) :
    (increment .input n s).mode = s.mode := rfl
@[simp] theorem increment_input_err (n : Amount) (s : State) :
    (increment .input n s).err = s.err := rfl
@[simp] theorem increment_input_inp (n : Amount) (s : State) :
    (increment .input n s).inp = s.inp := rfl
@[simp] theorem increment_input_out (n : Amount) (s : State) :
    (increment .input n s).out = s.out := rfl
@[simp] theorem increment_input_host (n : Amount) (s : State) :
    (increment .input n s).host = s.host := rfl
@[simp] theorem increment_input_rdata (n : Amount) (s : State) :
    (increment .input n s).rdata = s.rdata := rfl
@[simp] theorem increment_input_tick (n : Amount) (s : State) :
    (increment .input n s).tick = s.tick := rfl
@[simp] theorem increment_input_events (n : Amount) (s : State) :
    (increment .input n s).events = s.events := rfl
@[simp] theorem increment_input_answers (n : Amount) (s : State) :
    (increment .input n s).answers = s.answers := rfl
@[simp] theorem increment_input_unitsIn (n : Amount) (s : State) :
    (increment .input n s).unitsIn = s.unitsIn + n.toNat := rfl
@[simp] theorem increment_input_unitsOut (n : Amount) (s : State) :
    (increment .input n s).unitsOut = s.unitsOut := rfl

/-! ### `increment_output` -/

@[simp] theorem increment_output_buf (n : Amount) (s : State) :
    (increment .output n s).buf = s.buf := rfl
@[simp] theorem increment_output_index (n : Amount) (s : State) :
    (increment .output n s).index = s.index := rfl
@[simp] theorem increment_output_remaining (n : Amount) (s : State) :
    (increment .output n s).remaining = s.remaining := rfl
@[simp] theorem increment_output_pos (n : Amount) (s : State) :
    (increment .output n s).pos = s.pos := rfl
@[simp] theorem increment_output_cntIn (n : Amount) (s : State) :
    (increment .output n s).cntIn = s.cntIn := rfl
@[simp] theorem increment_output_cntOut (n : Amount) (s : State) :
    (increment .output n s).cntOut = incrementCounter n.toNat s.cntOut := rfl
@[simp] theorem increment_output_phase (n : Amount) (s : State) :
    (increment .output n s).phase = s.phase := rfl
@[simp] theorem increment_output_mode (n : Amount) (s : State) :
    (increment .output n s).mode = s.mode := rfl
@[simp] theorem increment_output_err (n : Amount) (s : State) :
    (increment .output n s).err = s.err := rfl
@[simp] theorem increment_output_inp (n : Amount) (s : State) :
    (increment .output n s).inp = s.inp := rfl
@[simp] theorem increment_output_out (n : Amount) (s : State) :
    (increment .output n s).out = s.out := rfl
@[simp] theorem increment_output_host (n : Amount) (s : State) :
    (increment .output n s).host = s.host := rfl
@[simp] theorem increment_output_rdata (n : Amount) (s : State) :
    (increment .output n s).rdata = s.rdata := rfl
@[simp] theorem increment_output_tick (n : Amount) (s : State) :
    (increment .output n s).tick = s.tick := rfl
@[simp] theorem increment_output_events (n : Amount) (s : State) :
    (increment .output n s).events = s.events := rfl
@[simp] theorem increment_output_answers (n : Amount) (s : State) :
    (increment .output n s).answers = s.answers := rfl
@[simp] theorem increment_output_unitsIn (n : Amount) (s : State) :
    (increment .output n s).unitsIn = s.unitsIn := rfl
@[simp] theorem increment_output_unitsOut (n : Amount) (s : State) :
    (increment .output n s).unitsOut = s.unitsOut + n.toNat := rfl

/-! ### `Answers` -/

@[simp] theorem Answers.always_after (k : Nat) : Answers.always.after k = .always := rfl
@[simp] theorem Answers.never_after (k : Nat) : Answers.never.after k = .never := rfl
@[simp] theorem Answers.always_room (k : Nat) : Answers.always.room k = k := rfl
@[simp] theorem Answers.never_room (k : Nat) : Answers.never.room k = 0 := rfl
@[simp] theorem Answers.upTo_room (n k : Nat) : (Answers.upTo n).room k = min n k := rfl

@[simp] theorem Answers.after_zero (a : Answers) : a.after 0 = a := by
  cases a <;> simp [Answers.after]

@[simp] theorem Answers.after_after (a : Answers) (j k : Nat) :
    (a.after j).after k = a.after (j + k) := by
  cases a with
  | always => rfl
  | never => rfl
  | upTo n =>
    by_cases hj : j ≤ n
    · by_cases hk : j + k ≤ n
      · simp [Answers.after, hj, hk, show k ≤ n - j by omega, Nat.sub_sub]
      · simp [Answers.after, hj, hk, show ¬k ≤ n - j by omega]
    · simp [Answers.after, hj, show ¬j + k ≤ n by omega]

/-- All of `k` requests are answered exactly where the streams go on to answer. -/
theorem Answers.room_eq {a : Answers} {k : Nat} (h : a.after k ≠ .never) : a.room k = k := by
  cases a with
  | always => rfl
  | never => exact absurd rfl h
  | upTo n =>
    by_cases hk : k ≤ n
    · simp [hk]
    · exact absurd (by simp [Answers.after, hk]) h

theorem Answers.room_le (a : Answers) (k : Nat) : a.room k ≤ k := by
  cases a with
  | always => exact Nat.le_refl k
  | never => exact Nat.zero_le k
  | upTo n => exact Nat.min_le_right n k

theorem Answers.room_lt {a : Answers} {k : Nat} (h : a.after k = .never) (h0 : 0 < k) :
    a.room k < k := by
  cases a with
  | always => cases h
  | never => exact h0
  | upTo n =>
    by_cases hk : k ≤ n
    · simp [Answers.after, hk] at h
    · simp; omega

/-- One request more: the first, then the others. -/
theorem Answers.room_succ (a : Answers) (k : Nat) :
    a.room (k + 1) = if a.after 1 = .never then 0 else (a.after 1).room k + 1 := by
  cases a with
  | always => simp
  | never => simp
  | upTo n =>
    by_cases hn : 1 ≤ n
    · simp [Answers.after, hn]; omega
    · simp [Answers.after, hn]; omega

@[simp] theorem Answers.released_ne (a : Answers) : a.released ≠ .never := by
  cases a <;> simp [Answers.released]

/-! ### `outWrites` -/

/-- `OutWrite`s in a row: those the streams answer are done, and the block waits if they do not answer all. -/
theorem outWrites_eq (bs : List Byte) (s : State) :
    outWrites bs s =
      { s with
        out := s.out ++ bs.take (s.answers.room bs.length)
        events := s.events ++ (bs.take (s.answers.room bs.length)).map .wrote
        answers := s.answers.after bs.length } := by
  induction bs generalizing s with
  | nil => simp [outWrites]
  | cons b rest ih =>
    rw [outWrites, ih, List.length_cons, Answers.room_succ, Nat.add_comm rest.length 1,
      ← Answers.after_after]
    by_cases hn : s.answers.after 1 = .never
    · simp [outWrite, hn]
    · simp [outWrite, hn]

theorem outWrite_eq (b : Byte) (s : State) : outWrite b s = outWrites [b] s := rfl

/-- `OutWrite`s that are all answered. -/
theorem outWrites_answered {bs : List Byte} {s : State} (h : s.answers.after bs.length ≠ .never) :
    outWrites bs s =
      { s with
        out := s.out ++ bs, events := s.events ++ bs.map .wrote
        answers := s.answers.after bs.length } := by
  rw [outWrites_eq, Answers.room_eq h, List.take_length]

@[simp] theorem outWrites_buf (bs : List Byte) (s : State) :
    (outWrites bs s).buf = s.buf := by rw [outWrites_eq]
@[simp] theorem outWrites_index (bs : List Byte) (s : State) :
    (outWrites bs s).index = s.index := by rw [outWrites_eq]
@[simp] theorem outWrites_remaining (bs : List Byte) (s : State) :
    (outWrites bs s).remaining = s.remaining := by rw [outWrites_eq]
@[simp] theorem outWrites_pos (bs : List Byte) (s : State) :
    (outWrites bs s).pos = s.pos := by rw [outWrites_eq]
@[simp] theorem outWrites_cntIn (bs : List Byte) (s : State) :
    (outWrites bs s).cntIn = s.cntIn := by rw [outWrites_eq]
@[simp] theorem outWrites_cntOut (bs : List Byte) (s : State) :
    (outWrites bs s).cntOut = s.cntOut := by rw [outWrites_eq]
@[simp] theorem outWrites_phase (bs : List Byte) (s : State) :
    (outWrites bs s).phase = s.phase := by rw [outWrites_eq]
@[simp] theorem outWrites_mode (bs : List Byte) (s : State) :
    (outWrites bs s).mode = s.mode := by rw [outWrites_eq]
@[simp] theorem outWrites_err (bs : List Byte) (s : State) :
    (outWrites bs s).err = s.err := by rw [outWrites_eq]
@[simp] theorem outWrites_inp (bs : List Byte) (s : State) :
    (outWrites bs s).inp = s.inp := by rw [outWrites_eq]
@[simp] theorem outWrites_host (bs : List Byte) (s : State) :
    (outWrites bs s).host = s.host := by rw [outWrites_eq]
@[simp] theorem outWrites_rdata (bs : List Byte) (s : State) :
    (outWrites bs s).rdata = s.rdata := by rw [outWrites_eq]
@[simp] theorem outWrites_tick (bs : List Byte) (s : State) :
    (outWrites bs s).tick = s.tick := by rw [outWrites_eq]
@[simp] theorem outWrites_unitsIn (bs : List Byte) (s : State) :
    (outWrites bs s).unitsIn = s.unitsIn := by rw [outWrites_eq]
@[simp] theorem outWrites_unitsOut (bs : List Byte) (s : State) :
    (outWrites bs s).unitsOut = s.unitsOut := by rw [outWrites_eq]
@[simp] theorem outWrites_answers (bs : List Byte) (s : State) :
    (outWrites bs s).answers = s.answers.after bs.length := by rw [outWrites_eq]

/-! ### `emit` -/

@[simp] theorem emit_buf (p : List Byte) (n : Nat) (s : State) :
    (emit p n s).buf = s.buf := rfl
@[simp] theorem emit_index (p : List Byte) (n : Nat) (s : State) :
    (emit p n s).index = s.index := rfl
@[simp] theorem emit_remaining (p : List Byte) (n : Nat) (s : State) :
    (emit p n s).remaining = s.remaining := rfl
@[simp] theorem emit_pos (p : List Byte) (n : Nat) (s : State) :
    (emit p n s).pos = s.pos := rfl
@[simp] theorem emit_cntIn (p : List Byte) (n : Nat) (s : State) :
    (emit p n s).cntIn = s.cntIn := rfl
@[simp] theorem emit_cntOut (p : List Byte) (n : Nat) (s : State) :
    (emit p n s).cntOut = incrementCounter n s.cntOut := rfl
@[simp] theorem emit_phase (p : List Byte) (n : Nat) (s : State) :
    (emit p n s).phase = s.phase := rfl
@[simp] theorem emit_mode (p : List Byte) (n : Nat) (s : State) :
    (emit p n s).mode = s.mode := rfl
@[simp] theorem emit_err (p : List Byte) (n : Nat) (s : State) :
    (emit p n s).err = s.err := rfl
@[simp] theorem emit_inp (p : List Byte) (n : Nat) (s : State) :
    (emit p n s).inp = s.inp := rfl
@[simp] theorem emit_out (p : List Byte) (n : Nat) (s : State) :
    (emit p n s).out = s.out ++ p := rfl
@[simp] theorem emit_host (p : List Byte) (n : Nat) (s : State) :
    (emit p n s).host = s.host := rfl
@[simp] theorem emit_rdata (p : List Byte) (n : Nat) (s : State) :
    (emit p n s).rdata = s.rdata := rfl
@[simp] theorem emit_tick (p : List Byte) (n : Nat) (s : State) :
    (emit p n s).tick = s.tick := rfl
@[simp] theorem emit_events (p : List Byte) (n : Nat) (s : State) :
    (emit p n s).events = s.events ++ p.map .wrote := rfl
@[simp] theorem emit_answers (p : List Byte) (n : Nat) (s : State) :
    (emit p n s).answers = s.answers.after p.length := rfl
@[simp] theorem emit_unitsIn (p : List Byte) (n : Nat) (s : State) :
    (emit p n s).unitsIn = s.unitsIn := rfl
@[simp] theorem emit_unitsOut (p : List Byte) (n : Nat) (s : State) :
    (emit p n s).unitsOut = s.unitsOut + n := rfl

end Sys2Proof.Machine
end

