-- ==== Sys2Proof/Laws/Counter.lean ====
section
/-! SUPPORT. The digit-group counter: what one unit walk does to a list of groups, and that a counter stays in range. -/

namespace Sys2Proof.Machine

/-- A unit walk adds 1 to the number the groups stand for, and wraps to 0 from the highest number (R202, R203). -/
theorem groupsVal_walkGroups (gs : List Group) (h : ∀ g ∈ gs, g.toNat ≤ 999) :
    groupsVal (walkGroups gs) = (groupsVal gs + 1) % 1000 ^ gs.length := by
  have bound : ∀ l : List Group, (∀ g ∈ l, g.toNat ≤ 999) → groupsVal l < 1000 ^ l.length := by
    intro l
    induction l with
    | nil => simp [groupsVal]
    | cons g rest ih =>
      intro hl
      have h1 := ih fun x hx => hl x (List.mem_cons_of_mem _ hx)
      have h2 := hl g (by simp)
      simp only [groupsVal, List.length_cons, pow_succ]
      omega
  induction gs with
  | nil => simp [walkGroups, groupsVal]
  | cons g rest ih =>
    have hrest : ∀ x ∈ rest, x.toNat ≤ 999 := fun x hx => h x (List.mem_cons_of_mem _ hx)
    have hg := h g (by simp)
    have hb := bound rest hrest
    rw [walkGroups]
    split
    · rename_i h999
      subst h999
      simp only [groupsVal, ih hrest, List.length_cons, pow_succ]
      have : (999#16).toNat = 999 := rfl
      rw [this, show (0#16).toNat = 0 from rfl]
      rw [show 999 + 1000 * groupsVal rest + 1 = (groupsVal rest + 1) * 1000 by ring,
        Nat.mul_mod_mul_right]
      ring
    · rename_i h999
      have hlt : g.toNat < 999 := by
        rcases Nat.lt_or_ge g.toNat 999 with h | h
        · exact h
        · exact absurd (BitVec.eq_of_toNat_eq (by simp; omega)) h999
      have : (g + 1#16).toNat = g.toNat + 1 := by
        rw [BitVec.toNat_add]; simp; omega
      simp only [groupsVal, this, List.length_cons, pow_succ]
      rw [Nat.mod_eq_of_lt] <;> omega

theorem walkGroups_inRange (gs : List Group) (h : ∀ g ∈ gs, g.toNat ≤ 999) :
    ∀ g ∈ walkGroups gs, g.toNat ≤ 999 := by
  induction gs with
  | nil => simp [walkGroups]
  | cons g rest ih =>
    have hg := h g (by simp)
    have hrest : ∀ x ∈ rest, x.toNat ≤ 999 := fun x hx => h x (List.mem_cons_of_mem _ hx)
    rw [walkGroups]
    split
    · intro x hx
      rcases List.mem_cons.mp hx with rfl | hx
      · simp
      · exact ih hrest x hx
    · rename_i h999
      intro x hx
      rcases List.mem_cons.mp hx with rfl | hx
      · rw [BitVec.toNat_add]
        have : g.toNat ≠ 999 := fun e => h999 (BitVec.eq_of_toNat_eq (by simpa using e))
        simp; omega
      · exact hrest x hx

@[simp] theorem unitWalk_toList (c : Counter) : (unitWalk c).toList = walkGroups c.toList := by
  simp [unitWalk, Vector.toList]

theorem unitWalk_inRange {c : Counter} (h : c.InRange) : (unitWalk c).InRange := by
  simpa [Counter.InRange] using walkGroups_inRange c.toList h

theorem incrementCounter_inRange {c : Counter} (h : c.InRange) (n : Nat) :
    (incrementCounter n c).InRange := by
  induction n generalizing c with
  | zero => exact h
  | succ n ih => exact ih (unitWalk_inRange h)

/-- Increments add up (R203: the end value does not depend on how a total is split into calls). -/
theorem incrementCounter_add (m n : Nat) (c : Counter) :
    incrementCounter n (incrementCounter m c) = incrementCounter (m + n) c := by
  induction m generalizing c with
  | zero => simp [incrementCounter]
  | succ m ih => rw [Nat.succ_add, incrementCounter, incrementCounter, ih]

theorem zero_inRange : Counter.zero.InRange := by
  intro g hg
  simp [Counter.zero] at hg
  simp [hg]

theorem counter_toList_length (c : Counter) : c.toList.length = 9 := by simp

end Sys2Proof.Machine
end

