-- ==== Sys2Proof/Laws/Memory.lean ====
section
/-! SUPPORT. The buffer's memory: a read after a write, the canonical form is kept, and slot numbers modulo 128. -/

namespace Sys2Proof.Machine

/-! ### Slot numbers -/

theorem slotIdx_toNat (base : SlotIdx) (k : Nat) :
    (slotIdx base k).toNat = (base.toNat + k) % 128 := by
  simp [slotIdx, BitVec.toNat_add]

@[simp] theorem slotIdx_zero (base : SlotIdx) : slotIdx base 0 = base := by
  simp [slotIdx]

theorem slotIdx_slotIdx (base : SlotIdx) (j k : Nat) :
    slotIdx (slotIdx base j) k = slotIdx base (j + k) := by
  apply BitVec.eq_of_toNat_eq
  simp only [slotIdx_toNat]
  omega

theorem slotIdx_inj (base : SlotIdx) {j k : Nat} (hj : j < 128) (hk : k < 128) :
    slotIdx base j = slotIdx base k ↔ j = k := by
  constructor
  · intro h
    have := congrArg BitVec.toNat h
    simp only [slotIdx_toNat] at this
    have := base.isLt
    omega
  · rintro rfl; rfl

/-- Every slot is some place after a base. -/
theorem exists_slotIdx (base a : SlotIdx) : ∃ k, k < 128 ∧ slotIdx base k = a := by
  refine ⟨(a - base).toNat, (a - base).isLt, ?_⟩
  rw [slotIdx, BitVec.ofNat_toNat, BitVec.setWidth_eq, BitVec.add_comm, BitVec.sub_add_cancel]

theorem slotIdx_128 (base : SlotIdx) (k : Nat) : slotIdx base (k + 128) = slotIdx base k := by
  apply BitVec.eq_of_toNat_eq
  simp only [slotIdx_toNat]
  omega

/-! ### Lookup -/

theorem SlotMemory.lookup_erase (m : SlotMemory) (a b : Nat) :
    lookup (erase m a) b = if b = a then .empty else lookup m b := by
  induction m with
  | nil => simp [erase, lookup]
  | cons c rest ih =>
    obtain ⟨k, v⟩ := c
    by_cases hk : k = a
    · subst hk
      simp only [erase, if_true, ih, lookup]
      by_cases hb : b = k
      · simp [hb]
      · simp [hb, Ne.symm hb]
    · simp only [erase, hk, if_false, lookup, ih]
      by_cases hb : b = a
      · subst hb; simp [hk]
      · simp [hb]

theorem SlotMemory.lookup_insert (m : SlotMemory) (a b : Nat) (v : Slot)
    (hm : ∀ c ∈ m, c.1 ≠ a) :
    lookup (insert m a v) b = if b = a then v else lookup m b := by
  induction m with
  | nil => simp only [insert, lookup, eq_comm]
  | cons c rest ih =>
    obtain ⟨k, w⟩ := c
    have hk : k ≠ a := hm (k, w) (by simp)
    have ih := ih (fun c hc => hm c (by simp [hc]))
    by_cases hlt : a < k
    · simp only [insert, hlt, if_true, lookup]
      by_cases hb : b = a
      · simp [hb]
      · simp [hb, Ne.symm hb]
    · simp only [insert, hlt, if_false, lookup, ih]
      by_cases hb : b = a
      · subst hb; simp [hk]
      · simp [hb]

theorem SlotMemory.mem_erase {m : SlotMemory} {a : Nat} {c : Nat × Slot} :
    c ∈ erase m a ↔ c ∈ m ∧ c.1 ≠ a := by
  induction m with
  | nil => simp [erase]
  | cons d rest ih =>
    obtain ⟨k, v⟩ := d
    by_cases hk : k = a
    · simp only [erase, hk, if_true, ih, List.mem_cons]
      constructor
      · rintro ⟨h1, h2⟩; exact ⟨.inr h1, h2⟩
      · rintro ⟨rfl | h1, h2⟩
        · exact absurd rfl h2
        · exact ⟨h1, h2⟩
    · simp only [erase, hk, if_false, List.mem_cons, ih]
      constructor
      · rintro (rfl | ⟨h1, h2⟩)
        · exact ⟨.inl rfl, hk⟩
        · exact ⟨.inr h1, h2⟩
      · rintro ⟨rfl | h1, h2⟩
        · exact .inl rfl
        · exact .inr ⟨h1, h2⟩

/-- A read after a write: the value written at its slot, what was there at every other (R77). -/
theorem SlotMemory.read_write (m : SlotMemory) (a b : SlotIdx) (v : Slot) :
    read (write m a v) b = if b = a then v else read m b := by
  have hne : (b.toNat = a.toNat) ↔ b = a :=
    ⟨fun h => BitVec.eq_of_toNat_eq h, fun h => by rw [h]⟩
  unfold read write
  by_cases hv : v = .empty
  · simp only [hv, if_true, lookup_erase, hne]
  · have hm : ∀ c ∈ erase m a.toNat, c.1 ≠ a.toNat := fun c hc => (mem_erase.mp hc).2
    simp only [hv, if_false, lookup_insert _ _ _ _ hm, lookup_erase, hne]
    by_cases hb : b = a <;> simp [hb]

theorem SlotMemory.read_write_same (m : SlotMemory) (a : SlotIdx) (v : Slot) :
    read (write m a v) a = v := by simp [read_write]

theorem SlotMemory.read_write_other (m : SlotMemory) {a b : SlotIdx} (v : Slot) (h : b ≠ a) :
    read (write m a v) b = read m b := by simp [read_write, h]

@[simp] theorem SlotMemory.read_nil (a : SlotIdx) : read [] a = .empty := rfl

/-! ### The canonical form -/

theorem SlotMemory.wf_erase {m : SlotMemory} (h : wf m) (a : Nat) : wf (erase m a) := by
  obtain ⟨hs, he⟩ := h
  refine ⟨?_, fun c hc => he c (mem_erase.mp hc).1⟩
  clear he
  induction m with
  | nil => simp [erase]
  | cons d rest ih =>
    obtain ⟨k, v⟩ := d
    rw [List.pairwise_cons] at hs
    by_cases hk : k = a
    · simpa [erase, hk] using ih hs.2
    · simp only [erase, hk, if_false, List.pairwise_cons]
      exact ⟨fun c hc => hs.1 c (mem_erase.mp hc).1, ih hs.2⟩

theorem SlotMemory.mem_insert {m : SlotMemory} {a : Nat} {v : Slot} {c : Nat × Slot} :
    c ∈ insert m a v ↔ c = (a, v) ∨ c ∈ m := by
  induction m with
  | nil => simp [insert]
  | cons d rest ih =>
    obtain ⟨k, w⟩ := d
    by_cases hlt : a < k
    · simp [insert, hlt]
    · simp only [insert, hlt, if_false, List.mem_cons, ih]
      tauto

theorem SlotMemory.wf_insert {m : SlotMemory} (h : wf m) {a : Nat} {v : Slot} (ha : a < 128)
    (hv : v ≠ .empty) (hm : ∀ c ∈ m, c.1 ≠ a) : wf (insert m a v) := by
  obtain ⟨hs, he⟩ := h
  refine ⟨?_, ?_⟩
  · clear he
    induction m with
    | nil => simp [insert]
    | cons d rest ih =>
      obtain ⟨k, w⟩ := d
      rw [List.pairwise_cons] at hs
      by_cases hlt : a < k
      · simp only [insert, hlt, if_true, List.pairwise_cons]
        refine ⟨?_, hs⟩
        intro c hc
        rcases List.mem_cons.mp hc with rfl | hc
        · exact hlt
        · have h1 : k < c.1 := hs.1 c hc
          exact lt_trans hlt h1
      · simp only [insert, hlt, if_false, List.pairwise_cons]
        refine ⟨?_, ih (fun c hc => hm c (List.mem_cons_of_mem _ hc)) hs.2⟩
        intro c hc
        rcases mem_insert.mp hc with rfl | hc
        · have : k ≠ a := hm (k, w) (by simp)
          show k < a
          omega
        · exact hs.1 c hc
  · intro c hc
    rcases mem_insert.mp hc with rfl | hc
    · exact ⟨ha, hv⟩
    · exact he c hc

/-- A write keeps the canonical form. -/
theorem SlotMemory.wf_write {m : SlotMemory} (h : wf m) (a : SlotIdx) (v : Slot) :
    wf (write m a v) := by
  unfold write
  by_cases hv : v = .empty
  · simpa [hv] using wf_erase h a.toNat
  · simpa [hv] using
      wf_insert (wf_erase h a.toNat) a.isLt hv fun c hc => (mem_erase.mp hc).2

theorem SlotMemory.wf_nil : wf [] := by simp [wf]

/-- The buffer of `State.reset` is in its canonical form. -/
theorem reset_canonical : BufferCanonical State.reset := SlotMemory.wf_nil

/-! ### INVALIDATE -/

theorem invalidateFrom_wf {m : SlotMemory} (h : SlotMemory.wf m) (start : SlotIdx) (n : Nat) :
    SlotMemory.wf (invalidateFrom m start n) := by
  induction n with
  | zero => exact h
  | succ n ih => exact SlotMemory.wf_write ih _ _

theorem invalidateFrom_read (m : SlotMemory) (start a : SlotIdx) (n : Nat) :
    SlotMemory.read (invalidateFrom m start n) a =
      if ∃ k, k < n ∧ a = slotIdx start k then .empty else SlotMemory.read m a := by
  induction n with
  | zero => simp [invalidateFrom]
  | succ n ih =>
    rw [invalidateFrom, SlotMemory.read_write, ih]
    by_cases ha : a = slotIdx start n
    · have : ∃ k, k < n + 1 ∧ a = slotIdx start k := ⟨n, by omega, ha⟩
      rw [if_pos ha, if_pos this]
    · have : (∃ k, k < n + 1 ∧ a = slotIdx start k) ↔ ∃ k, k < n ∧ a = slotIdx start k := by
        constructor
        · rintro ⟨k, hk, e⟩
          refine ⟨k, ?_, e⟩
          rcases Nat.lt_succ_iff_lt_or_eq.mp hk with h | rfl
          · exact h
          · exact absurd e ha
        · rintro ⟨k, hk, e⟩; exact ⟨k, by omega, e⟩
      rw [if_neg ha]
      simp only [this]

theorem invalidate_wf {m : SlotMemory} (h : SlotMemory.wf m) (start : SlotIdx) (amount : Amount) :
    SlotMemory.wf (invalidate m start amount) := invalidateFrom_wf h start amount.toNat

/-- What INVALIDATE leaves in a slot (R126). -/
theorem invalidate_read (m : SlotMemory) (start a : SlotIdx) (amount : Amount) :
    SlotMemory.read (invalidate m start amount) a =
      if ∃ k, k < amount.toNat ∧ a = slotIdx start k then .empty else SlotMemory.read m a :=
  invalidateFrom_read m start a amount.toNat

end Sys2Proof.Machine
end

