-- ==== Sys2Proof/Laws/Buffer.lean ====
section
/-! SUPPORT. What REFILL and CONSUME do, once: `refill_refilled` and `consume_consumed` where the streams answer, and
`refill_cases` and `consume_cases` whether they do or not; and that both keep the buffer's canonical form. -/

namespace Sys2Proof.Machine

/-! ### Bytes stored one after the other -/

/-- The bytes a REFILL stores, one after the other. -/
def storeBytes : List Byte → State → State
  | [], s => s
  | b :: rest, s => storeBytes rest (storeByte b s)

theorem storeBytes_frame (bs : List Byte) (s : State) :
    (storeBytes bs s).pos = s.pos ∧ (storeBytes bs s).cntOut = s.cntOut ∧
      (storeBytes bs s).phase = s.phase ∧ (storeBytes bs s).mode = s.mode ∧
      (storeBytes bs s).err = s.err ∧ (storeBytes bs s).out = s.out ∧
      (storeBytes bs s).host = s.host ∧ (storeBytes bs s).rdata = s.rdata ∧
      (storeBytes bs s).tick = s.tick ∧ (storeBytes bs s).unitsOut = s.unitsOut ∧
      (storeBytes bs s).answers = s.answers ∧ (storeBytes bs s).inp = s.inp ∧
      (storeBytes bs s).events = s.events := by
  induction bs generalizing s with
  | nil => simp [storeBytes]
  | cons b rest ih => simpa [storeBytes] using ih (storeByte b s)

theorem storeBytes_index (bs : List Byte) (s : State) :
    (storeBytes bs s).index = slotIdx s.index bs.length := by
  induction bs generalizing s with
  | nil => simp [storeBytes]
  | cons b rest ih => simp [storeBytes, ih, slotIdx_slotIdx, Nat.add_comm]

theorem storeBytes_remaining (bs : List Byte) (s : State) :
    (storeBytes bs s).remaining = s.remaining + BitVec.ofNat 8 bs.length := by
  induction bs generalizing s with
  | nil => simp [storeBytes]
  | cons b rest ih =>
    rw [storeBytes, ih, storeByte_remaining, List.length_cons, Nat.add_comm, BitVec.add_assoc,
      ← BitVec.ofNat_add]

theorem storeBytes_cntIn (bs : List Byte) (s : State) :
    (storeBytes bs s).cntIn = incrementCounter bs.length s.cntIn := by
  induction bs generalizing s with
  | nil => simp [storeBytes, incrementCounter]
  | cons b rest ih => simp [storeBytes, ih, incrementCounter_add, Nat.add_comm]

theorem storeBytes_unitsIn (bs : List Byte) (s : State) :
    (storeBytes bs s).unitsIn = s.unitsIn + bs.length := by
  induction bs generalizing s with
  | nil => simp [storeBytes]
  | cons b rest ih => simp [storeBytes, ih]; omega

theorem storeBytes_kept (bs : List Byte) (s : State) (a : SlotIdx)
    (h : ∀ j, j < bs.length → a ≠ slotIdx s.index j) :
    SlotMemory.read (storeBytes bs s).buf a = SlotMemory.read s.buf a := by
  induction bs generalizing s with
  | nil => rfl
  | cons b rest ih =>
    have h0 : a ≠ s.index := by simpa using h 0 (by simp)
    rw [storeBytes, ih, storeByte_buf, SlotMemory.read_write_other _ _ h0]
    intro j hj
    rw [storeByte_index, slotIdx_slotIdx, Nat.add_comm]
    exact h (j + 1) (by simpa using hj)

theorem storeBytes_stored (bs : List Byte) (s : State) (hlen : bs.length ≤ 128) {j : Nat} {b : Byte}
    (h : bs[j]? = some b) :
    SlotMemory.read (storeBytes bs s).buf (slotIdx s.index j) = .byte b := by
  induction bs generalizing s j with
  | nil => simp at h
  | cons c rest ih =>
    have hl : rest.length < 128 := by simp at hlen; omega
    cases j with
    | zero =>
      obtain rfl : c = b := by simpa using h
      rw [storeBytes, storeBytes_kept, storeByte_buf, slotIdx_zero, SlotMemory.read_write_same]
      intro i hi
      rw [storeByte_index, slotIdx_slotIdx, ne_eq, slotIdx_inj _ (by omega) (by omega)]
      omega
    | succ j =>
      have := ih (storeByte c s) (by omega) (j := j) (by simpa using h)
      rwa [storeByte_index, slotIdx_slotIdx, Nat.add_comm] at this

theorem storeBytes_wf (bs : List Byte) {s : State} (h : SlotMemory.wf s.buf) :
    SlotMemory.wf (storeBytes bs s).buf := by
  induction bs generalizing s with
  | nil => exact h
  | cons b rest ih => exact ih (s := storeByte b s) (SlotMemory.wf_write h s.index (.byte b))

/-! ### REFILL -/

/-- REFILL makes one request for each attempt, the last of which may be the one that finds IN exhausted. -/
theorem readEvents_length (n : Nat) (inp : List Byte) :
    (readEvents n inp).length = min n (inp.length + 1) := by
  simp only [readEvents, List.length_append, List.length_map, List.length_take]
  split
  · simp; omega
  · simp; omega

/-- A REFILL that waits for its request number `j + 1`: `j` bytes are read and stored. -/
def heldReading (j : Nat) (s : State) : State :=
  storeBytes (s.inp.take j)
    { s with
      inp := s.inp.drop j, events := s.events ++ (s.inp.take j).map .took
      answers := .never }

/-- REFILL's loop: where the streams do not answer all its requests it waits; else the marker in its one case (R123), and
otherwise the bytes IN has, up to `n`. -/
theorem refillFrom_eq (k n : Nat) (s : State) :
    refillFrom k n s =
      if s.answers.after (readEvents n s.inp).length = .never then
        heldReading (s.answers.room (readEvents n s.inp).length) s
      else if k = 0 ∧ 0 < n ∧ s.inp = [] ∧ s.remaining = 0#8 then
        { s with
          buf := SlotMemory.write s.buf s.index .endMark, events := s.events ++ [.ended]
          answers := s.answers.after 1 }
      else
        storeBytes (s.inp.take n)
          { s with
            inp := s.inp.drop n, events := s.events ++ readEvents n s.inp
            answers := s.answers.after (readEvents n s.inp).length } := by
  induction n generalizing k s with
  | zero =>
    by_cases hn : s.answers = .never
    · simp [refillFrom, storeBytes, readEvents, heldReading, hn]
      rw [← hn]
    · simp [refillFrom, storeBytes, readEvents, hn]
  | succ n ih =>
    by_cases h1 : s.answers.after 1 = .never
    · have hi : inRead s = .waits { s with answers := .never } := by simp [inRead, h1]
      obtain ⟨m, hm⟩ : ∃ m, (readEvents (n + 1) s.inp).length = m + 1 :=
        ⟨min n s.inp.length, by rw [readEvents_length]; omega⟩
      have ha : s.answers.after (m + 1) = .never := by
        rw [Nat.add_comm, ← Answers.after_after, h1, Answers.never_after]
      rw [hm, if_pos ha, Answers.room_succ, if_pos h1]
      simp [refillFrom, hi, heldReading, storeBytes]
    · cases hi : s.inp with
      | nil =>
        have hr : inRead s = .ended { s with events := s.events ++ [.ended], answers := s.answers.after 1 } := by
          simp [inRead, hi, h1]
        have he : readEvents (n + 1) [] = [.ended] := by simp [readEvents]
        have hs : ({ s with inp := [], events := s.events ++ [.ended], answers := s.answers.after 1 } : State) =
            { s with events := s.events ++ [.ended], answers := s.answers.after 1 } := by rw [← hi]
        rw [he, List.length_singleton, if_neg h1]
        by_cases hk : k = 0 ∧ s.remaining = 0#8
        · simp [refillFrom, hr, hk, hi]
        · rw [if_neg (by tauto)]
          simp [refillFrom, hr, hk, storeBytes, hs]
      | cons b rest =>
        have hr : inRead s =
            .byte b { s with inp := rest, events := s.events ++ [.took b], answers := s.answers.after 1 } := by
          simp [inRead, hi, h1]
        have he : readEvents (n + 1) (b :: rest) = .took b :: readEvents n rest := by
          simp [readEvents]
        simp only [refillFrom, hr, ih, he, List.length_cons, storeByte_answers, storeByte_inp,
          storeByte_events, Answers.after_after, Nat.add_comm 1]
        by_cases hn : s.answers.after ((readEvents n rest).length + 1) = .never
        · rw [if_pos hn, if_pos hn, Answers.room_succ, if_neg h1]
          simp [heldReading, storeBytes, hi]
          rfl
        · rw [if_neg hn, if_neg hn]
          simp [storeBytes]
          rfl

/-- A REFILL whose requests are all answered. -/
theorem refill_refilled {amount : Amount} {s : State}
    (h : s.remaining.toNat + amount.toNat ≤ fillLimit s.phase)
    (ha : s.answers.after (readEvents amount.toNat s.inp).length ≠ .never) :
    ∃ t, refill amount s = .next t ∧ Refilled amount.toNat s t ∧
      (SlotMemory.wf s.buf → SlotMemory.wf t.buf) := by
  have hlim : fillLimit s.phase ≤ 128 := by cases s.phase <;> decide
  refine ⟨refillFrom 0 amount.toNat s, by simp [refill, h], ?_⟩
  generalize amount.toNat = amount at *
  rw [refillFrom_eq, if_neg ha]
  split
  · rename_i hm
    obtain ⟨-, h0, hi, hr⟩ := hm
    have he : (readEvents amount s.inp).length = 1 := by rw [readEvents_length, hi]; simp; omega
    refine ⟨⟨by simp [hi], by simp [hi], by simp [hi], by simp [hi, incrementCounter],
      by simp [hi], by simp [hi, readEvents, h0], by rw [he], by simp [hi], ?_, ?_, by simp⟩,
      fun hw => SlotMemory.wf_write hw s.index .endMark⟩
    · intros; simp [SlotMemory.read_write_same]
    · intro a _ ha
      have : a ≠ s.index := fun e => ha ⟨h0, hi, hr, e⟩
      exact SlotMemory.read_write_other s.buf .endMark this
  · rename_i hm
    have hlen : (s.inp.take amount).length = min amount s.inp.length := by simp
    obtain ⟨f1, f2, f3, f4, f5, f6, f7, f8, f9, f10, f11, f12, f13⟩ :=
      storeBytes_frame (s.inp.take amount)
        { s with
          inp := s.inp.drop amount, events := s.events ++ readEvents amount s.inp
          answers := s.answers.after (readEvents amount s.inp).length }
    refine ⟨⟨f12, ?_, ?_, ?_, ?_, f13, f11, ?_, ?_, ?_, f1, f2, f3, f4, f5, f6, f7, f8, f9, f10⟩,
      fun hw => storeBytes_wf _ hw⟩
    · rw [storeBytes_index, hlen]
    · rw [storeBytes_remaining, hlen, BitVec.toNat_add]
      simp; omega
    · rw [storeBytes_cntIn, hlen]
    · rw [storeBytes_unitsIn, hlen]
    · intro j b hj hb
      exact storeBytes_stored (s.inp.take amount) _ (by rw [hlen]; omega) (j := j) (b := b)
        (by rw [List.getElem?_take]; simp [hj, hb])
    · intro h0 hi hr; exact absurd ⟨rfl, h0, hi, hr⟩ hm
    · intro a ha _
      exact storeBytes_kept (s.inp.take amount) _ a (by rw [hlen]; exact ha)

/-- A REFILL of which a request is never answered. -/
theorem refill_held {amount : Amount} {s : State}
    (h : s.remaining.toNat + amount.toNat ≤ fillLimit s.phase)
    (ha : s.answers.after (readEvents amount.toNat s.inp).length = .never) :
    refill amount s =
      .next (heldReading (s.answers.room (readEvents amount.toNat s.inp).length) s) := by
  rw [refill, if_pos h, refillFrom_eq, if_pos ha]

/-- What REFILL can answer: all its requests are answered, or the block waits for one. -/
theorem refill_cases {amount : Amount} {s t : State} (h : refill amount s = .next t) :
    s.remaining.toNat + amount.toNat ≤ fillLimit s.phase ∧
      ((¬Waits t ∧ s.answers.after (readEvents amount.toNat s.inp).length ≠ .never ∧
          Refilled amount.toNat s t ∧ (SlotMemory.wf s.buf → SlotMemory.wf t.buf)) ∨
        (s.answers.after (readEvents amount.toNat s.inp).length = .never ∧
          t = heldReading (s.answers.room (readEvents amount.toNat s.inp).length) s)) := by
  by_cases hp : s.remaining.toNat + amount.toNat ≤ fillLimit s.phase
  · refine ⟨hp, ?_⟩
    by_cases ha : s.answers.after (readEvents amount.toNat s.inp).length = .never
    · rw [refill_held hp ha] at h
      cases h
      exact .inr ⟨ha, rfl⟩
    · obtain ⟨t', h1, h2, h3⟩ := refill_refilled hp ha
      rw [h1] at h
      cases h
      exact .inl ⟨by rw [Waits, h2.answers_eq]; exact ha, ha, h2, h3⟩
  · simp [refill, hp] at h

/-- What a REFILL that waits has done: `j` bytes are taken, stored and counted; nothing else but `answers` changes. -/
theorem heldReading_spec {j : Nat} {s : State} (hj : j ≤ s.inp.length) :
    (heldReading j s).inp = s.inp.drop j ∧ (heldReading j s).index = slotIdx s.index j ∧
      (heldReading j s).remaining = s.remaining + BitVec.ofNat 8 j ∧
      (heldReading j s).cntIn = incrementCounter j s.cntIn ∧
      (heldReading j s).unitsIn = s.unitsIn + j ∧
      (heldReading j s).events = s.events ++ readEvents j s.inp ∧ Waits (heldReading j s) ∧
      (∀ a, (∀ i, i < j → a ≠ slotIdx s.index i) →
        SlotMemory.read (heldReading j s).buf a = SlotMemory.read s.buf a) ∧
      (SlotMemory.wf s.buf → SlotMemory.wf (heldReading j s).buf) ∧
      (heldReading j s).pos = s.pos ∧ (heldReading j s).cntOut = s.cntOut ∧
      (heldReading j s).phase = s.phase ∧ (heldReading j s).mode = s.mode ∧
      (heldReading j s).err = s.err ∧ (heldReading j s).out = s.out ∧
      (heldReading j s).host = s.host ∧ (heldReading j s).rdata = s.rdata ∧
      (heldReading j s).tick = s.tick ∧ (heldReading j s).unitsOut = s.unitsOut := by
  have hlen : (s.inp.take j).length = j := by simp [hj]
  obtain ⟨f1, f2, f3, f4, f5, f6, f7, f8, f9, f10, f11, f12, f13⟩ :=
    storeBytes_frame (s.inp.take j)
      { s with
        inp := s.inp.drop j, events := s.events ++ (s.inp.take j).map .took, answers := .never }
  refine ⟨f12, ?_, ?_, ?_, ?_, ?_, f11, ?_, fun hw => storeBytes_wf _ hw, f1, f2, f3, f4, f5, f6,
    f7, f8, f9, f10⟩
  · rw [heldReading, storeBytes_index, hlen]
  · rw [heldReading, storeBytes_remaining, hlen]
  · rw [heldReading, storeBytes_cntIn, hlen]
  · rw [heldReading, storeBytes_unitsIn, hlen]
  · rw [heldReading, f13, readEvents, if_neg (by omega), List.append_nil]
  · intro a ha
    exact storeBytes_kept (s.inp.take j) _ a (by rw [hlen]; exact ha)

/-- A REFILL that waits has not got as far as it would have. -/
theorem room_readEvents {a : Answers} {n : Nat} {inp : List Byte}
    (h : a.after (readEvents n inp).length = .never) :
    a.room (readEvents n inp).length ≤ n ∧ a.room (readEvents n inp).length ≤ inp.length := by
  have h1 := Answers.room_le a (readEvents n inp).length
  have hl := readEvents_length n inp
  rcases Nat.eq_zero_or_pos (readEvents n inp).length with h0 | h0
  · omega
  · have := Answers.room_lt h h0
    omega

/-! ### CONSUME -/

theorem fillLimit_le (p : Phase) : fillLimit p ≤ 128 := by cases p <;> decide

theorem cull_remaining_toNat {c : Amount} {s : State} (hc : c.toNat ≤ s.remaining.toNat) :
    (cull c s).remaining.toNat = s.remaining.toNat - c.toNat := by
  have := s.remaining.isLt
  rw [cull_remaining, BitVec.toNat_sub]
  omega

/-- A CONSUME whose requests are all answered. -/
theorem consume_consumed {c : Amount} {s : State} (h0 : 0 < c.toNat)
    (hc : c.toNat ≤ s.remaining.toNat) (hl : s.remaining.toNat ≤ fillLimit s.phase)
    (ha : s.answers.after (readEvents c.toNat s.inp).length ≠ .never) :
    ∃ t, consume c s = .next t ∧ Consumed c.toNat s t ∧
      (SlotMemory.wf s.buf → SlotMemory.wf t.buf) := by
  have hrem := cull_remaining_toNat hc
  obtain ⟨u, hu, hr, hw⟩ := refill_refilled (amount := c) (s := cull c s)
    (by rw [hrem, cull_phase]; omega) ha
  have hzero : (cull c s).remaining = 0#8 ↔ s.remaining.toNat = c.toNat := by
    rw [← BitVec.toNat_inj, hrem]; simp; omega
  obtain ⟨taken, index_eq, remaining_eq, counted, units_eq, events_eq, answers_eq, stored,
    marked, kept, frame⟩ := hr
  have hwait : ¬Waits u := by rw [Waits, answers_eq]; exact ha
  rw [hrem] at remaining_eq
  simp only [cull_inp, cull_index, cull_cntIn, cull_buf, cull_cntOut, cull_phase, cull_mode, cull_err,
    cull_out, cull_host, cull_rdata, cull_tick, cull_pos, cull_unitsIn, cull_unitsOut, cull_events,
    cull_answers, hzero, invalidate_read] at *
  refine ⟨advance c u, by simp [consume, hc, hu, andThen, hwait], ⟨?_, taken, index_eq, ?_, counted,
    units_eq, events_eq, answers_eq, ?_, ?_, ?_, ?_, ?_⟩, fun w => hw (invalidate_wf w _ _)⟩
  · rw [advance_pos, frame.1]
  · rw [advance_remaining]; omega
  · exact fun j b hj hb => stored j b hj hb
  · exact fun hi hr => marked h0 hi hr
  · intro k hk hj hm
    rw [advance_buf, kept _ hj (by tauto), if_pos ⟨k, hk, rfl⟩]
  · intro a hk hj hm
    rw [advance_buf, kept _ hj (by tauto), if_neg]
    rintro ⟨k, h1, h2⟩
    exact hk k h1 h2
  · exact frame.2

/-- A CONSUME of which a request is never answered: the `c` slots are culled, the block waits in the REFILL, and `pos` is
not advanced. -/
theorem consume_held {c : Amount} {s : State} (hc : c.toNat ≤ s.remaining.toNat)
    (hl : s.remaining.toNat ≤ fillLimit s.phase)
    (ha : s.answers.after (readEvents c.toNat s.inp).length = .never) :
    consume c s =
      .next (heldReading (s.answers.room (readEvents c.toNat s.inp).length) (cull c s)) := by
  have hrem := cull_remaining_toNat hc
  have hr := refill_held (amount := c) (s := cull c s) (by rw [hrem, cull_phase]; omega) ha
  have hw := (heldReading_spec (s := cull c s) (room_readEvents ha).2).2.2.2.2.2.2.1
  rw [consume, if_pos hc, hr]
  exact if_pos hw

/-- What CONSUME can answer: all its requests are answered, or the block waits for one. -/
theorem consume_cases {c : Amount} {s t : State} (h0 : 0 < c.toNat) (h : consume c s = .next t) :
    c.toNat ≤ s.remaining.toNat ∧ s.remaining.toNat ≤ fillLimit s.phase ∧
      ((¬Waits t ∧ s.answers.after (readEvents c.toNat s.inp).length ≠ .never ∧
          Consumed c.toNat s t ∧ (SlotMemory.wf s.buf → SlotMemory.wf t.buf)) ∨
        (s.answers.after (readEvents c.toNat s.inp).length = .never ∧
          t = heldReading (s.answers.room (readEvents c.toNat s.inp).length) (cull c s))) := by
  by_cases hc : c.toNat ≤ s.remaining.toNat
  · by_cases hl : s.remaining.toNat ≤ fillLimit s.phase
    · refine ⟨hc, hl, ?_⟩
      by_cases ha : s.answers.after (readEvents c.toNat s.inp).length = .never
      · rw [consume_held hc hl ha] at h
        cases h
        exact .inr ⟨ha, rfl⟩
      · obtain ⟨t', h1, h2, h3⟩ := consume_consumed h0 hc hl ha
        rw [h1] at h
        cases h
        exact .inl ⟨by rw [Waits, h2.answers_eq]; exact ha, ha, h2, h3⟩
    · have hrem := cull_remaining_toNat hc
      have : refill c (cull c s) = .refused .refillOverrun := by
        rw [refill, if_neg]
        rw [hrem, cull_phase]; omega
      simp [consume, hc, this, andThen] at h
  · simp [consume, hc] at h

/-! ### Packets -/

/-- What a packet can answer: its bytes are accepted and CONSUME goes as `consume_cases` says, or the block waits for OUT
to accept one. -/
theorem packet_cases {p : List Byte} {n c : Amount} {s t : State}
    (h : packet p n c s = .next t) :
    (s.answers.after p.length = .never ∧ t = outWrites p (increment .output n s)) ∨
      (s.answers.after p.length ≠ .never ∧ consume c (emit p n.toNat s) = .next t) := by
  have ha : (outWrites p (increment .output n s)).answers = s.answers.after p.length := by simp
  by_cases hn : s.answers.after p.length = .never
  · have h : (if Waits _ then _ else _) = _ := h
    rw [if_pos (ha.trans hn)] at h
    cases h
    exact .inl ⟨hn, rfl⟩
  · have h : (if Waits _ then _ else _) = _ := h
    rw [if_neg (fun e => hn (ha.symm.trans e)), outWrites_answered (by simpa using hn)] at h
    exact .inr ⟨hn, h⟩

/-- A packet whose requests are all answered. -/
theorem packet_consumed {p : List Byte} {n c : Amount} {s : State} (h0 : 0 < c.toNat)
    (hc : c.toNat ≤ s.remaining.toNat) (hl : s.remaining.toNat ≤ fillLimit s.phase)
    (ha : s.answers.after (p.length + (readEvents c.toNat s.inp).length) ≠ .never) :
    ∃ t, packet p n c s = .next t ∧ Consumed c.toNat (emit p n.toNat s) t := by
  rw [← Answers.after_after] at ha
  have hp : s.answers.after p.length ≠ .never := fun e => ha (by rw [e, Answers.never_after])
  obtain ⟨t, h1, h2, -⟩ := consume_consumed (s := emit p n.toNat s) h0 hc hl ha
  refine ⟨t, ?_, h2⟩
  show (if Waits _ then _ else _) = _
  rw [if_neg (by simpa using hp), outWrites_answered (by simpa using hp)]
  exact h1

end Sys2Proof.Machine
end

