-- ==== Sys2Proof/Laws/Decode.lean ====
section
/-! SUPPORT. Small facts about the code-byte map, so that no proof unfolds `decodeCode` again. -/

namespace Sys2Proof

/-- Only 0x00 is the terminator (R94). -/
theorem decodeCode_endStream {c : Byte} (h : decodeCode c = .endStream) : c = 0x00#8 := by
  unfold decodeCode at h
  split at h
  · assumption
  · split at h
    · cases h
    · split at h <;> cases h

/-- No code byte is a host command. -/
theorem decodeCode_not_command (c : Byte) :
    decodeCode c ≠ .compress ∧ decodeCode c ≠ .decompress := by
  unfold decodeCode
  split
  · simp
  · split
    · simp
    · split <;> simp

/-- Only the two commands have a `CTRL` word. -/
theorem decodeCtrl_ok {v : BitVec 2} {i : Instr} (h : decodeCtrl v = .ok i) :
    (v = 0b01#2 ∧ i = .compress) ∨ (v = 0b11#2 ∧ i = .decompress) := by
  have bits : ∀ v : BitVec 2, v.getLsbD 0 → v = if v.getLsbD 1 then 0b11#2 else 0b01#2 := by decide
  unfold decodeCtrl at h
  split at h
  · rename_i h0
    have hv := bits v h0
    injection h with h
    split at h <;> rename_i h1
    · exact .inr ⟨by rwa [if_pos h1] at hv, h.symm⟩
    · exact .inl ⟨by rwa [if_neg h1] at hv, h.symm⟩
  · cases h

end Sys2Proof
end

