-- ==== Sys2Proof/Laws/Window.lean ====
section
/-! SUPPORT. Spans of slots as byte lists, the window, and what CONSUME does to the window and to the invariants of
R25 to R30. -/

namespace Sys2Proof.Machine

/-! ### Spans -/

/-- A span reads as `bs` exactly when its slots hold the bytes of `bs` in order. -/
theorem spanBytes_eq_some (s : State) (off n : Nat) (bs : List Byte) :
    spanBytes s off n = some bs ↔
      bs.length = n ∧ ∀ k b, bs[k]? = some b → slotAt s (off + k) = .byte b := by
  induction n generalizing off bs with
  | zero =>
    constructor
    · intro h
      obtain rfl : [] = bs := by simpa [spanBytes] using h
      simp
    · rintro ⟨h, -⟩
      simp [spanBytes, List.length_eq_zero_iff.mp h]
  | succ n ih =>
    rw [spanBytes]
    cases hs : slotAt s off with
    | byte b =>
      cases bs with
      | nil => simp
      | cons c rest =>
        constructor
        · intro h
          obtain ⟨r, hr, he⟩ := Option.map_eq_some_iff.mp h
          obtain ⟨rfl, rfl⟩ := List.cons.inj he
          obtain ⟨hl, hk⟩ := (ih _ _).mp hr
          refine ⟨by simp [hl], ?_⟩
          intro k x hx
          cases k with
          | zero => simpa [hs] using hx
          | succ k =>
            have := hk k x (by simpa using hx)
            rwa [Nat.add_right_comm, Nat.add_assoc] at this
        · rintro ⟨hl, hk⟩
          have h0 := hk 0 c (by simp)
          rw [Nat.add_zero, hs] at h0
          obtain rfl := Slot.byte.inj h0
          refine Option.map_eq_some_iff.mpr ⟨rest, (ih _ _).mpr ⟨by simpa using hl, ?_⟩, rfl⟩
          intro k x hx
          have := hk (k + 1) x (by simpa using hx)
          rwa [← Nat.add_assoc, Nat.add_right_comm] at this
    | empty =>
      refine ⟨by simp, ?_⟩
      rintro ⟨hl, hk⟩
      cases bs with
      | nil => simp at hl
      | cons c rest => have h0 := hk 0 c (by simp); rw [Nat.add_zero, hs] at h0; cases h0
    | endMark =>
      refine ⟨by simp, ?_⟩
      rintro ⟨hl, hk⟩
      cases bs with
      | nil => simp at hl
      | cons c rest => have h0 := hk 0 c (by simp); rw [Nat.add_zero, hs] at h0; cases h0

/-- A span of byte slots reads as some list. -/
theorem spanBytes_isSome (s : State) (off n : Nat)
    (h : ∀ k, k < n → ∃ b, slotAt s (off + k) = .byte b) : ∃ bs, spanBytes s off n = some bs := by
  induction n generalizing off with
  | zero => exact ⟨[], rfl⟩
  | succ n ih =>
    obtain ⟨b, hb⟩ := h 0 (by omega)
    obtain ⟨bs, hbs⟩ := ih (off + 1) fun k hk => by
      obtain ⟨c, hc⟩ := h (k + 1) (by omega)
      exact ⟨c, by rw [← hc]; congr 1; omega⟩
    rw [Nat.add_zero] at hb
    exact ⟨b :: bs, by simp [spanBytes, hb, hbs]⟩

/-- A part of a span. -/
theorem spanBytes_part {s : State} {off n : Nat} {bs : List Byte}
    (h : spanBytes s off n = some bs) {d m : Nat} (hm : d + m ≤ n) :
    spanBytes s (off + d) m = some ((bs.drop d).take m) := by
  obtain ⟨hl, hk⟩ := (spanBytes_eq_some _ _ _ _).mp h
  refine (spanBytes_eq_some _ _ _ _).mpr ⟨by simp; omega, ?_⟩
  intro k b hb
  rw [List.getElem?_take] at hb
  split at hb
  · rw [List.getElem?_drop] at hb
    have := hk _ _ hb
    rwa [← Nat.add_assoc] at this
  · simp at hb

/-- The slots of a state whose fields `buf` and `pos` are another's read the same. -/
theorem slotAt_congr {s t : State} (hb : t.buf = s.buf) (hp : t.pos = s.pos) (k : Nat) :
    slotAt t k = slotAt s k := by
  simp [slotAt, hb, hp]

theorem spanBytes_congr {s t : State} (hb : t.buf = s.buf) (hp : t.pos = s.pos) (off n : Nat) :
    spanBytes t off n = spanBytes s off n := by
  induction n generalizing off with
  | zero => rfl
  | succ n ih => simp [spanBytes, slotAt_congr hb hp, ih]

/-! ### The window -/

theorem BufferInv.window_some {s : State} (h : BufferInv s) :
    ∃ w, window s = some w ∧ w.length = s.remaining.toNat := by
  obtain ⟨w, hw⟩ := spanBytes_isSome s 0 s.remaining.toNat fun k hk => by
    simpa using h.span k hk
  exact ⟨w, hw, ((spanBytes_eq_some _ _ _ _).mp hw).1⟩

theorem window_slot {s : State} {w : List Byte} (h : window s = some w) {k : Nat} {b : Byte}
    (hb : w[k]? = some b) : slotAt s k = .byte b := by
  simpa using ((spanBytes_eq_some _ _ _ _).mp h).2 k b hb

theorem window_length {s : State} {w : List Byte} (h : window s = some w) :
    w.length = s.remaining.toNat := ((spanBytes_eq_some _ _ _ _).mp h).1

/-- The buffer's invariant looks at five fields only. -/
theorem BufferInv.congr {s t : State} (h : BufferInv s) (hb : t.buf = s.buf) (hp : t.pos = s.pos)
    (hr : t.remaining = s.remaining) (hi : t.index = s.index)
    (hph : fillLimit s.phase ≤ fillLimit t.phase) : BufferInv t where
  cap := by rw [hr]; exact h.cap.trans hph
  index_eq := by rw [hi, hp, hr]; exact h.index_eq
  span := by simpa only [hr, slotAt_congr hb hp] using h.span
  outside := by simpa only [hr, slotAt_congr hb hp] using h.outside

/-! ### CONSUME and the window -/

/-- Where CONSUME starts from a buffer that meets the invariant, and IN is exhausted if the buffer is not topped up, the
slots after it are known: first what is left of the window, then the bytes refilled, then `EMPTY`. -/
theorem Consumed.slotAt_left {c : Nat} {s t : State} (h : Consumed c s t) (hs : BufferInv s)
    (hc : c ≤ s.remaining.toNat) {k : Nat} (hk : k + c < s.remaining.toNat) :
    slotAt t k = slotAt s (c + k) := by
  have hcap := hs.cap.trans (fillLimit_le _)
  rw [slotAt, h.pos_eq, slotIdx_slotIdx, slotAt]
  refine h.kept _ ?_ ?_ ?_
  · intro j hj e
    rw [slotIdx_inj _ (by omega) (by omega)] at e
    omega
  · intro j hj e
    rw [hs.index_eq, slotIdx_slotIdx] at e
    have := congrArg BitVec.toNat e
    simp only [slotIdx_toNat] at this
    have := s.pos.isLt
    omega
  · rintro ⟨-, hr, -⟩; omega

theorem Consumed.slotAt_refilled {c : Nat} {s t : State} (h : Consumed c s t) (hs : BufferInv s)
    (hc : c ≤ s.remaining.toNat) {j : Nat} {b : Byte} (hj : j < c) (hb : s.inp[j]? = some b) :
    slotAt t (s.remaining.toNat - c + j) = .byte b := by
  have := h.stored j b hj hb
  rw [hs.index_eq, slotIdx_slotIdx] at this
  rw [slotAt, h.pos_eq, slotIdx_slotIdx, ← this]
  congr 2
  omega

/-- CONSUME moves the window along the stream (R28): what is in the buffer followed by what is in IN loses its first `c`
bytes. -/
theorem Consumed.window_stream {c : Nat} {s t : State} (h : Consumed c s t) (hs : BufferInv s)
    (hc : c ≤ s.remaining.toNat) {w : List Byte} (hw : window s = some w) :
    ∃ w', window t = some w' ∧ w' ++ t.inp = (w ++ s.inp).drop c := by
  have hlw := window_length hw
  have hrem := h.remaining_eq
  refine ⟨w.drop c ++ s.inp.take c, ?_, ?_⟩
  · refine (spanBytes_eq_some _ _ _ _).mpr ⟨by simp; omega, ?_⟩
    intro k b hb
    rw [Nat.zero_add]
    by_cases hk : k < w.length - c
    · rw [List.getElem?_append_left (by simpa using hk), List.getElem?_drop] at hb
      rw [h.slotAt_left hs hc (by omega)]
      exact window_slot hw hb
    · rw [List.getElem?_append_right (by simpa using hk), List.getElem?_take, List.length_drop] at hb
      split at hb
      · rename_i hlt
        have := h.slotAt_refilled hs hc hlt hb
        rwa [show s.remaining.toNat - c + (k - (w.length - c)) = k by omega] at this
      · simp at hb
  · rw [h.taken, List.append_assoc, List.take_append_drop, List.drop_append_of_le_length (by omega)]

/-- CONSUME keeps the buffer's invariant, and leaves a window that is topped up or IN exhausted, and marked if empty. -/
theorem Consumed.inv {c : Nat} {s t : State} (h : Consumed c s t) (hs : BufferInv s)
    (h0 : 0 < c) (hc : c ≤ s.remaining.toNat)
    (htop : s.remaining.toNat < fillLimit s.phase → s.inp = []) :
    BufferInv t ∧ (t.remaining.toNat < fillLimit t.phase → t.inp = []) ∧
      (t.remaining = 0#8 → slotAt t 0 = .endMark) := by
  have hph : t.phase = s.phase := h.frame.2.1
  have hcap := hs.cap
  have hlim := fillLimit_le s.phase
  have hrem := h.remaining_eq
  have hpos : ∀ k, slotAt t k = SlotMemory.read t.buf (slotIdx s.pos (c + k)) := by
    intro k; rw [slotAt, h.pos_eq, slotIdx_slotIdx]
  refine ⟨⟨?_, ?_, ?_, ?_⟩, ?_, ?_⟩
  · rw [hph]; omega
  · rw [h.index_eq, h.pos_eq, hs.index_eq, slotIdx_slotIdx, slotIdx_slotIdx]
    congr 1; omega
  · intro k hk
    by_cases hkc : k + c < s.remaining.toNat
    · obtain ⟨b, hb⟩ := hs.span (c + k) (by omega)
      exact ⟨b, by rw [h.slotAt_left hs hc hkc, hb]⟩
    · obtain ⟨j, rfl⟩ : ∃ j, k = s.remaining.toNat - c + j := ⟨k - (s.remaining.toNat - c), by omega⟩
      have hj : j < s.inp.length := by omega
      exact ⟨_, h.slotAt_refilled hs hc (by omega) (List.getElem?_eq_getElem hj)⟩
  · intro k hk1 hk2
    by_cases hm : s.inp = [] ∧ s.remaining.toNat = c ∧ k = 0
    · right
      refine ⟨hm.2.2, ?_⟩
      rw [hpos, hm.2.2, Nat.add_zero, ← hm.2.1, ← hs.index_eq]
      exact h.marked hm.1 hm.2.1
    · left
      have hidx : ∀ j, j < min c s.inp.length → slotIdx s.pos (c + k) ≠ slotIdx s.index j := by
        intro j hj e
        rw [hs.index_eq, slotIdx_slotIdx] at e
        have := congrArg BitVec.toNat e
        simp only [slotIdx_toNat] at this
        have := s.pos.isLt
        omega
      have hmark : ¬(s.inp = [] ∧ s.remaining.toNat = c ∧ slotIdx s.pos (c + k) = s.index) := by
        rintro ⟨e1, e2, e3⟩
        rw [hs.index_eq] at e3
        have := congrArg BitVec.toNat e3
        simp only [slotIdx_toNat] at this
        have := s.pos.isLt
        exact hm ⟨e1, e2, by omega⟩
      rw [hpos]
      by_cases hlap : 128 ≤ c + k
      · -- one lap round: the slot is one of those consumed
        have e : slotIdx s.pos (c + k) = slotIdx s.pos (c + k - 128) := by
          rw [← slotIdx_128 _ (c + k - 128), Nat.sub_add_cancel hlap]
        rw [e] at hidx hmark ⊢
        exact h.culled _ (by omega) hidx hmark
      · by_cases hin : c + k < s.remaining.toNat
        · omega
        · have hkept := h.kept (slotIdx s.pos (c + k)) ?_ hidx hmark
          · rw [hkept]
            rcases hs.outside (c + k) (by omega) (by omega) with h1 | ⟨h1, h2⟩
            · exact h1
            · omega
          · intro j hj e
            rw [slotIdx_inj _ (by omega) (by omega)] at e
            omega
  · rw [hph, h.taken]
    intro hlt
    by_cases hfull : s.remaining.toNat < fillLimit s.phase
    · simp [htop hfull]
    · rw [List.drop_eq_nil_iff]; omega
  · intro hz
    have hz' : t.remaining.toNat = 0 := by rw [hz]; rfl
    have hi : s.inp = [] := by
      rw [← List.length_eq_zero_iff]; omega
    have hr : s.remaining.toNat = c := by omega
    rw [hpos, Nat.add_zero, ← hr, ← hs.index_eq]
    exact h.marked hi hr

end Sys2Proof.Machine
end

