-- ==== Sys2Proof/Laws/Scan.lean ====
section
/-! SUPPORT. The loops of the encoder's two scans, slot by slot, and that an iteration consumes something. -/

namespace Sys2Proof.Machine

/-! ### The loops -/

/-- RUNDETECT's loop passes slots equal to the first, and ends at one that differs or when its comparisons are spent. -/
theorem runFrom_spec (s : State) (fuel run : Nat) :
    run ≤ runFrom s fuel run ∧ runFrom s fuel run ≤ run + fuel ∧
      (∀ k, run ≤ k → k < runFrom s fuel run → slotAt s k = slotAt s 0) ∧
      (runFrom s fuel run < run + fuel → slotAt s (runFrom s fuel run) ≠ slotAt s 0) := by
  induction fuel generalizing run with
  | zero => simp [runFrom]; omega
  | succ fuel ih =>
    rw [runFrom]
    split
    · rename_i he
      obtain ⟨h1, h2, h3, h4⟩ := ih (run + 1)
      refine ⟨by omega, by omega, ?_, fun h => h4 (by omega)⟩
      intro k hk1 hk2
      rcases Nat.eq_or_lt_of_le hk1 with rfl | hlt
      · exact he
      · exact h3 k hlt hk2
    · rename_i he
      exact ⟨le_refl _, by omega, by omega, fun _ => he⟩

/-- LITSCAN's loop passes slots that differ from the next, and ends at one equal to the next or when its comparisons are
spent. -/
theorem litFrom_spec (s : State) (fuel len : Nat) :
    len ≤ litFrom s fuel len ∧ litFrom s fuel len ≤ len + fuel ∧
      (∀ k, len ≤ k → k < litFrom s fuel len → slotAt s k ≠ slotAt s (k + 1)) ∧
      (litFrom s fuel len < len + fuel →
        slotAt s (litFrom s fuel len) = slotAt s (litFrom s fuel len + 1)) := by
  induction fuel generalizing len with
  | zero => simp [litFrom]; omega
  | succ fuel ih =>
    rw [litFrom]
    split
    · rename_i he
      exact ⟨le_refl _, by omega, by omega, fun _ => he⟩
    · rename_i he
      obtain ⟨h1, h2, h3, h4⟩ := ih (len + 1)
      refine ⟨by omega, by omega, ?_, fun h => h4 (by omega)⟩
      intro k hk1 hk2
      rcases Nat.eq_or_lt_of_le hk1 with rfl | hlt
      · exact he
      · exact h3 k hlt hk2

/-! ### An iteration consumes something -/

theorem runDetect_bounds (s : State) : 1 ≤ runDetect s ∧ runDetect s ≤ 127 := by
  obtain ⟨h1, h2, -⟩ := runFrom_spec s (Config.maxRun - 1) 1
  exact ⟨h1, h2⟩

/-- Where the first two slots differ, and only there, there is no run (R143): so a literal has at least one symbol. -/
theorem litScan_bounds {s : State} (h : runDetect s < 2) : 1 ≤ litScan s ∧ litScan s ≤ 127 := by
  obtain ⟨-, h2, -, h4⟩ := litFrom_spec s Config.maxRun 0
  obtain ⟨h5, -, -, h6⟩ := runFrom_spec s (Config.maxRun - 1) 1
  have hmax : Config.maxRun = 127 := rfl
  rw [show runFrom s (Config.maxRun - 1) 1 = runDetect s from rfl] at h5 h6
  rw [show litFrom s Config.maxRun 0 = litScan s from rfl] at h2 h4
  refine ⟨?_, by omega⟩
  rcases Nat.eq_zero_or_pos (litScan s) with h0 | h0
  · have e1 := h4 (by omega)
    have e2 := h6 (by omega)
    rw [h0] at e1
    rw [show runDetect s = 1 by omega] at e2
    exact absurd e1.symm e2
  · exact h0

end Sys2Proof.Machine
end

