-- ==== Sys2Proof/Laws/Step.lean ====
section
/-! SUPPORT. What a step can do, said once: `step_cases` for the host's event and `phaseStep_cases` for the sequencer.
Every invariant follows from the two. -/

namespace Sys2Proof.Machine

/-! ### The encoder's packets -/

/-- A run of at least 2 gives a repeat packet (R143, R145). -/
theorem encIter_rep {v : Byte} {s : State} (h : 1 < runDetect s) :
    encIter v s =
      packet [repCode (BitVec.ofNat 7 (runDetect s)), v] 2#8 (BitVec.ofNat 8 (runDetect s)) s := by
  rw [encIter, if_pos h]
  rfl

/-- No run gives a literal packet (R143, R146). -/
theorem encIter_lit {v : Byte} {s : State} {payload : List Byte} (h : ¬1 < runDetect s)
    (hs : spanBytes s 0 (litScan s) = some payload) :
    encIter v s =
      packet (litCode (BitVec.ofNat 7 (litScan s)) :: payload) (BitVec.ofNat 8 (litScan s + 1))
        (BitVec.ofNat 8 (litScan s)) s := by
  rw [encIter, if_neg h, frameLit, hs]
  rfl

/-! ### The decoder's packets -/

/-- A field widened to an `amount` keeps its value. -/
theorem amount_toNat (n : BitVec 7) : (n.setWidth 8 : Amount).toNat = n.toNat := by
  have := n.isLt
  simp; omega

theorem litSize_toNat (n : BitVec 7) : (litSize n).toNat = n.toNat + 1 := by
  have := n.isLt
  rw [litSize, BitVec.toNat_add, amount_toNat]
  simp; omega

/-! ### The sequencer's part of a step -/

/-- The outcome of an action. -/
def settle (a : Action) : Result :=
  match a with
  | .run i t => exec i t
  | .settled r => r

/-- The sequencer's step when no command is accepted. -/
def phaseStep (s : State) : Result := settle (phaseAction s)

/-- A block that waits for a stream does nothing, whatever its phase (R285). -/
theorem phaseStep_waits {s : State} (h : Waits s) : phaseStep s = .next s := by
  rw [phaseStep, phaseAction, if_pos h]
  rfl

/-- In DEC the sequencer runs the instruction of the code byte at the scan position. -/
theorem phaseStep_dec {s : State} {c : Byte} (hp : s.phase = .dec) (hw : ¬Waits s)
    (hs : slotAt s 0 = .byte c) : phaseStep s = exec (decodeCode c) s := by
  rw [phaseStep, phaseAction, if_neg hw]
  simp only [hp, hs, settle]

theorem phaseStep_dec_end {s : State} (hp : s.phase = .dec) (hw : ¬Waits s)
    (hs : slotAt s 0 = .endMark) : phaseStep s = .next (stopDone s) := by
  rw [phaseStep, phaseAction, if_neg hw]
  simp only [hp, hs, settle]

/-- In ENC the sequencer runs the encoder's step. -/
theorem phaseStep_enc {s : State} (hp : s.phase = .enc) (hw : ¬Waits s) : phaseStep s = encStep s := by
  rw [phaseStep, phaseAction, if_neg hw]
  simp only [hp, settle]

theorem step_quiet_nil {s : State} (h : s.host = []) : step s = phaseStep (beginStep s) := by
  unfold step selectAction
  rw [h]
  rfl

theorem step_cons {s : State} {e : HostEvent} {rest : List HostEvent} (h : s.host = e :: rest) :
    step s = settle (eventAction e (beginStep s)) := by
  unfold step selectAction
  rw [h]
  rfl

/-- In a quiet step only the sequencer acts. -/
theorem step_quiet {s : State} (h : HostQuiet s) : step s = phaseStep (beginStep s) := by
  rcases h with h | ⟨rest, h⟩
  · exact step_quiet_nil h
  · exact step_cons h

/-- What the encoder's iteration can answer: what a packet does that consumes something. -/
theorem encIter_next {v : Byte} {s t : State} (h : encIter v s = .next t) :
    ∃ p n c, 0 < c.toNat ∧ packet p n c s = .next t := by
  obtain ⟨b1, b2⟩ := runDetect_bounds s
  by_cases hr : 1 < runDetect s
  · rw [encIter_rep hr] at h
    exact ⟨_, _, _, by simp; omega, h⟩
  · obtain ⟨l1, l2⟩ := litScan_bounds (s := s) (by omega)
    cases hsp : spanBytes s 0 (litScan s) with
    | some payload =>
      rw [encIter_lit hr hsp] at h
      exact ⟨_, _, _, by simp; omega, h⟩
    | none => simp [encIter, hr, frameLit, hsp, andThen] at h

/-- What TERMINATE can answer: the terminator is accepted and counted, or the block waits (R150, R285). -/
theorem terminate_cases {s t : State} (h : terminate s = .next t) :
    (s.answers.after 1 ≠ .never ∧ t = { emit [0x00#8] 1 s with phase := .done }) ∨
      (s.answers.after 1 = .never ∧ t = { s with answers := .never }) := by
  unfold terminate andThen at h
  by_cases ha : s.answers.after 1 = .never
  · simp only [outWrite, ha, if_true, Waits] at h
    cases h
    exact .inr ⟨ha, rfl⟩
  · simp only [outWrite, ha, if_false, Waits] at h
    cases h
    exact .inl ⟨ha, rfl⟩

/-- What a `REP` can answer. -/
theorem execRep_next {n : BitVec 7} {s t : State} (h : execRep n s = .next t) :
    (s.remaining.toNat < 2 ∧ t = raise .truncatedPacket s) ∨
      ∃ v, 2 ≤ s.remaining.toNat ∧ slotAt s 1 = .byte v ∧
        packet (List.replicate n.toNat v) (n.setWidth 8) 2#8 s = .next t := by
  unfold execRep at h
  split at h
  · rename_i hr
    exact .inl ⟨hr, by injection h with h; exact h.symm⟩
  · split at h
    · rename_i hr v hv
      exact .inr ⟨v, by omega, hv, h⟩
    · cases h
    · cases h

/-- What a `LIT` can answer. -/
theorem execLit_next {n : BitVec 7} {s t : State} (h : execLit n s = .next t) :
    (s.remaining.toNat < n.toNat + 1 ∧ t = raise .truncatedPacket s) ∨
      ∃ payload, n.toNat + 1 ≤ s.remaining.toNat ∧ spanBytes s 1 n.toNat = some payload ∧
        packet payload (n.setWidth 8) (litSize n) s = .next t := by
  unfold execLit at h
  rw [litSize_toNat] at h
  split at h
  · rename_i hr
    exact .inl ⟨hr, by injection h with h; exact h.symm⟩
  · split at h
    · rename_i hr payload hp
      exact .inr ⟨payload, by omega, hp, h⟩
    · cases h

/-- What the sequencer can do in a step (R226). -/
theorem phaseStep_cases {s t : State} (h : phaseStep s = .next t) :
    ((s.busy = false ∨ Waits s) ∧ t = s) ∨
    (s.phase = .enc ∧ slotAt s 0 = .endMark ∧ ¬Waits s ∧ terminate s = .next t) ∨
    (s.phase = .enc ∧ ∃ v p n c, slotAt s 0 = .byte v ∧ 0 < c.toNat ∧ ¬Waits s ∧
      packet p n c s = .next t) ∨
    (s.phase = .dec ∧ (slotAt s 0 = .endMark ∨ slotAt s 0 = .byte 0x00#8) ∧ ¬Waits s ∧
      t = stopDone s) ∨
    (s.phase = .dec ∧ ∃ b cause, slotAt s 0 = .byte b ∧ ¬Waits s ∧ t = raise cause s) ∨
    (s.phase = .dec ∧ ∃ b p n c, slotAt s 0 = .byte b ∧
      c.toNat = 1 + (decodeCode b).payloadLen ∧ ¬Waits s ∧ packet p n c s = .next t) := by
  by_cases hw : Waits s
  · rw [phaseStep_waits hw] at h
    cases h
    exact .inl ⟨.inr hw, rfl⟩
  unfold phaseStep phaseAction at h
  rw [if_neg hw] at h
  cases hp : s.phase <;> simp only [hp, settle] at h
  · injection h with h; exact .inl ⟨.inl (by simp [State.busy, hp]), h.symm⟩
  · cases hs : slotAt s 0 <;> simp only [encStep, hs] at h
    · obtain ⟨p, n, c, h0, hc⟩ := encIter_next h
      exact .inr (.inr (.inl ⟨rfl, _, p, n, c, rfl, h0, hw, hc⟩))
    · cases h
    · exact .inr (.inl ⟨rfl, rfl, hw, h⟩)
  · cases hs : slotAt s 0 with
    | empty => simp only [hs] at h; cases h
    | endMark =>
      simp only [hs] at h; injection h with h
      exact .inr (.inr (.inr (.inl ⟨rfl, .inl rfl, hw, h.symm⟩)))
    | byte b =>
      simp only [hs] at h
      cases hd : decodeCode b with
      | endStream =>
        simp only [hd, exec, execEnd] at h; injection h with h
        refine .inr (.inr (.inr (.inl ⟨rfl, .inr ?_, hw, h.symm⟩)))
        rw [decodeCode_endStream hd]
      | reserved80 =>
        simp only [hd, exec, execReserved80] at h; injection h with h
        exact .inr (.inr (.inr (.inr (.inl ⟨rfl, b, _, rfl, hw, h.symm⟩))))
      | rep n =>
        simp only [hd, exec] at h
        rcases execRep_next h with ⟨-, h⟩ | ⟨v, -, -, h⟩
        · exact .inr (.inr (.inr (.inr (.inl ⟨rfl, b, _, rfl, hw, h⟩))))
        · exact .inr (.inr (.inr (.inr (.inr ⟨rfl, b, _, _, _, rfl, by rw [hd]; rfl, hw, h⟩))))
      | lit n =>
        simp only [hd, exec] at h
        rcases execLit_next h with ⟨-, h⟩ | ⟨p, -, -, h⟩
        · exact .inr (.inr (.inr (.inr (.inl ⟨rfl, b, _, rfl, hw, h⟩))))
        · exact .inr (.inr (.inr (.inr (.inr ⟨rfl, b, p, _, _, rfl, by
            rw [hd, litSize_toNat, Nat.add_comm]; rfl, hw, h⟩))))
      | compress => exact absurd hd (decodeCode_not_command b).1
      | decompress => exact absurd hd (decodeCode_not_command b).2
  · injection h with h; exact .inl ⟨.inl (by simp [State.busy, hp]), h.symm⟩
  · injection h with h; exact .inl ⟨.inl (by simp [State.busy, hp]), h.symm⟩

/-! ### A whole step -/

/-- What a step can do from the state `s` in which it acts, where the host does `e` (nothing, if none). `u` is the state
the sequencer goes on from: only the environment differs from `s`. -/
inductive StepKind (e : Option HostEvent) (s t : State) : Prop where
  /-- Only the sequencer acts; the host waited, read a register, or wrote `CTRL` without effect. -/
  | sequenced (u : State) (rd : BitVec 16) (tk : Nat) (hu : u = { s with rdata := rd, tick := tk })
      (h : phaseStep u = .next t) (he : e ≠ some .reset)
  /-- The host connected the streams and the block was quiescent. -/
  | connected (bytes : List Byte) (answers : Answers) (hb : s.busy = false)
      (ht : t = { s with inp := bytes, out := [], answers := answers.released })
      (he : e = some (.connect bytes answers))
  /-- The host asserted reset. -/
  | reset (ht : t = hardReset s) (he : e = some .reset)
  /-- A command was accepted. -/
  | started (m : Mode) (hb : s.busy = false) (h : start m s = .next t)
      (he : e = some (.ctrlWrite (modeCode m ++ 1#1)))

theorem phaseStep_not_busy {s : State} (h : s.busy = false) : phaseStep s = .next s := by
  unfold phaseStep phaseAction
  split
  · rfl
  · cases hp : s.phase <;> simp_all [State.busy, settle]

/-- What a step can do when the host does `e`. -/
theorem eventAction_cases {e : HostEvent} {s t : State} (h : settle (eventAction e s) = .next t) :
    StepKind (some e) s t := by
  cases e with
  | wait => exact .sequenced _ s.rdata s.tick rfl h (by simp)
  | reset =>
    simp only [eventAction, settle] at h
    injection h with h
    exact .reset h.symm rfl
  | ctrlWrite v =>
    simp only [eventAction] at h
    split at h
    · exact .sequenced _ s.rdata s.tick rfl h (by simp)
    · rename_i hb
      have hb : s.busy = false := by simpa using hb
      split at h
      · rename_i i hi
        rcases decodeCtrl_ok hi with ⟨rfl, rfl⟩ | ⟨rfl, rfl⟩
        · refine .started .compress hb ?_ rfl
          simp only [settle, exec, execCompress] at h
          rwa [if_neg (by simpa using hb)] at h
        · refine .started .decompress hb ?_ rfl
          simp only [settle, exec, execDecompress] at h
          rwa [if_neg (by simpa using hb)] at h
      · exact .sequenced _ s.rdata s.tick rfl h (by simp)
  | read num =>
    simp only [eventAction] at h
    split at h
    · exact .sequenced _ _ _ rfl h (by simp)
    · simp [settle] at h
  | connect bytes answers =>
    simp only [eventAction] at h
    split at h
    · simp [settle] at h
    · rename_i hb
      have hb : s.busy = false := by simpa using hb
      have h : phaseStep _ = .next t := h
      rw [phaseStep_not_busy (by simpa [State.busy] using hb)] at h
      injection h with h
      exact .connected bytes answers hb h.symm rfl

/-- What a step can do: one of the four kinds. -/
theorem step_cases {s t : State} (h : step s = .next t) :
    StepKind s.host.head? (beginStep s) t := by
  cases hh : s.host with
  | nil =>
    rw [step_quiet_nil hh] at h
    exact .sequenced _ s.rdata s.tick rfl h (by simp)
  | cons e rest =>
    rw [step_cons hh] at h
    exact eventAction_cases h

/-! ### Runs -/

theorem core_run_next (M : Host.Core) (k : Nat) {s t : M.State} (h : M.step s = .next t) :
    M.run (k + 1) s = M.run k t := by
  refine (Host.Core.run.eq_2 M s k).trans ?_
  rw [h]

/-- A run of `k + 1` steps is a step and a run of `k`. -/
theorem run_next (k : Nat) {s t : State} (h : step s = .next t) :
    core.run (k + 1) s = core.run k t := core_run_next core k h

/-! ### START -/

/-- START's REFILL can take its whole fill, where all its requests are answered. -/
theorem start_next (m : Mode) (s : State) (hf : Fair s) :
    ∃ t, start m s = .next t ∧
      SlotMemory.wf t.buf ∧
      match m with
      | .compress => Refilled 127 (startInit .compress .enc s) t
      | .decompress => Refilled 128 (startInit .decompress .dec s) t := by
  have hall : ∀ k, s.answers.after k ≠ .never := fun k => by rw [show s.answers = .always from hf]; simp
  cases m
  · obtain ⟨t, h1, h2, h3⟩ := refill_refilled (amount := 127) (s := startInit .compress .enc s)
      (by simp [fillLimit, Config.encFill]) (hall _)
    exact ⟨t, h1, h3 SlotMemory.wf_nil, h2⟩
  · obtain ⟨t, h1, h2, h3⟩ := refill_refilled (amount := 128) (s := startInit .decompress .dec s)
      (by simp [fillLimit, Config.decFill]) (hall _)
    exact ⟨t, h1, h3 SlotMemory.wf_nil, h2⟩

/-- START always answers a next state: its REFILL is within the precondition, and the block may wait in it. -/
theorem start_total (m : Mode) (s : State) : ∃ t, start m s = .next t := by
  cases m <;> unfold start refill <;> rw [if_pos (by simp [fillLimit, Config.encFill])] <;>
    exact ⟨_, rfl⟩

end Sys2Proof.Machine
end

