-- ==== Sys2Proof/Laws/Encoder.lean ====
section
/-! SUPPORT. The two scans of the encoder on a byte list, and that the scans of the slots find the same. -/

namespace Sys2Proof.Machine

/-! ### The scans of a list -/

theorem headRun_bounds (b : Byte) (rest : List Byte) :
    1 ≤ headRun (b :: rest) ∧ headRun (b :: rest) ≤ rest.length + 1 := by
  induction rest generalizing b with
  | nil => simp [headRun]
  | cons c rest ih =>
    rw [headRun]
    split
    · have := ih c; simp; omega
    · simp

theorem headRun_same (b : Byte) (rest : List Byte) {k : Nat} (h : k < headRun (b :: rest)) :
    (b :: rest)[k]? = some b := by
  induction rest generalizing b k with
  | nil => simp only [headRun] at h; obtain rfl : k = 0 := by omega
           rfl
  | cons c rest ih =>
    rw [headRun] at h
    cases k with
    | zero => rfl
    | succ k =>
      split at h
      · rename_i e
        subst e
        simpa using ih b (by omega)
      · omega

theorem headRun_stops (b : Byte) (rest : List Byte) (h : headRun (b :: rest) < rest.length + 1) :
    (b :: rest)[headRun (b :: rest)]? ≠ some b := by
  induction rest generalizing b with
  | nil => simp [headRun] at h
  | cons c rest ih =>
    rw [headRun] at h ⊢
    split
    · rename_i e
      subst e
      rw [if_pos rfl] at h
      simpa using ih b (by simpa using h)
    · rename_i e
      simpa using fun h => e h.symm

theorem headLit_le (w : List Byte) : headLit w ≤ w.length := by
  induction w with
  | nil => simp [headLit]
  | cons b rest ih =>
    cases rest with
    | nil => simp [headLit]
    | cons c rest =>
      rw [headLit]
      split
      · omega
      · simpa using ih

theorem headLit_differs (w : List Byte) {k : Nat} (h : k < headLit w) (hk : k + 1 < w.length) :
    w[k]? ≠ w[k + 1]? := by
  induction w generalizing k with
  | nil => simp at hk
  | cons b rest ih =>
    cases rest with
    | nil => simp at hk
    | cons c rest =>
      rw [headLit] at h
      split at h
      · omega
      · rename_i e
        cases k with
        | zero => simpa using e
        | succ k => simpa using ih (k := k) (by omega) (by simpa using hk)

theorem headLit_stops (w : List Byte) (h : headLit w < w.length) :
    headLit w + 1 < w.length ∧ w[headLit w]? = w[headLit w + 1]? := by
  induction w with
  | nil => simp at h
  | cons b rest ih =>
    cases rest with
    | nil => simp [headLit] at h
    | cons c rest =>
      rw [headLit] at h ⊢
      split
      · rename_i e; simp [e]
      · rename_i e
        rw [if_neg e] at h
        obtain ⟨h1, h2⟩ := ih (by simpa using h)
        exact ⟨by simpa using h1, by simpa using h2⟩

/-- A literal scan finds at least one byte exactly where a run scan finds no second one. -/
theorem headLit_pos (b : Byte) (rest : List Byte) (h : headRun (b :: rest) < 2) :
    1 ≤ headLit (b :: rest) := by
  cases rest with
  | nil => simp [headLit]
  | cons c rest =>
    rw [headRun] at h
    rw [headLit]
    split
    · rename_i e
      rw [if_pos e] at h
      have := headRun_bounds c rest
      omega
    · omega

/-! ### The scans of the window -/

/-- The slot after the window is `EMPTY`, and so are the ones that follow, up to the scan position one lap later. -/
theorem slotAt_beyond {s : State} (hs : BufferInv s) {k : Nat} (h0 : 0 < k)
    (h1 : s.remaining.toNat ≤ k) (h2 : k < 128) : slotAt s k = .empty := by
  rcases hs.outside k h1 h2 with h | ⟨h, -⟩
  · exact h
  · omega

theorem slotAt_window {s : State} {w : List Byte} (hw : window s = some w) {k : Nat}
    (hk : k < w.length) : ∃ b, w[k]? = some b ∧ slotAt s k = .byte b :=
  ⟨w[k], List.getElem?_eq_getElem hk, window_slot hw (List.getElem?_eq_getElem hk)⟩

/-- RUNDETECT on the slots is the run of the window (R142, R153). -/
theorem runDetect_eq {s : State} (hs : BufferInv s) (hp : s.phase = .enc) {b : Byte} {rest : List Byte}
    (hw : window s = some (b :: rest)) : runDetect s = headRun (b :: rest) := by
  have hlen : rest.length + 1 = s.remaining.toNat := window_length hw
  have hcap : s.remaining.toNat ≤ 127 := by have := hs.cap; rwa [hp] at this
  have h0 : slotAt s 0 = .byte b := window_slot hw (k := 0) rfl
  obtain ⟨r1, r2, r3, r4⟩ := runFrom_spec s (Config.maxRun - 1) 1
  obtain ⟨b1, b2⟩ := headRun_bounds b rest
  rw [show runFrom s (Config.maxRun - 1) 1 = runDetect s from rfl] at r1 r2 r3 r4
  have hmax : 1 + (Config.maxRun - 1) = 127 := rfl
  rw [hmax] at r2 r4
  rcases Nat.lt_trichotomy (runDetect s) (headRun (b :: rest)) with hlt | heq | hgt
  · exact absurd (by rw [window_slot hw (headRun_same b rest hlt), h0]) (r4 (by omega))
  · exact heq
  · exfalso
    have hslot := r3 _ b1 hgt
    rw [h0] at hslot
    by_cases hfull : headRun (b :: rest) < rest.length + 1
    · obtain ⟨x, hx, hsx⟩ := slotAt_window hw (k := headRun (b :: rest)) (by simpa using hfull)
      rw [hsx] at hslot
      have := Slot.byte.inj hslot
      subst this
      exact headRun_stops _ rest hfull hx
    · rw [slotAt_beyond hs (by omega) (by omega) (by omega)] at hslot
      cases hslot

/-- LITSCAN on the slots is the literal scan of the window (R144, R153). -/
theorem litScan_eq {s : State} (hs : BufferInv s) (hp : s.phase = .enc) {w : List Byte}
    (hw : window s = some w) (hne : w ≠ []) : litScan s = headLit w := by
  have hlen : w.length = s.remaining.toNat := window_length hw
  have hpos : 0 < w.length := List.length_pos_iff.mpr hne
  have hcap : s.remaining.toNat ≤ 127 := by have := hs.cap; rwa [hp] at this
  obtain ⟨r1, r2, r3, r4⟩ := litFrom_spec s Config.maxRun 0
  have b2 := headLit_le w
  rw [show litFrom s Config.maxRun 0 = litScan s from rfl] at r1 r2 r3 r4
  have hmax : 0 + Config.maxRun = 127 := rfl
  rw [hmax] at r2 r4
  rcases Nat.lt_trichotomy (litScan s) (headLit w) with hlt | heq | hgt
  · exfalso
    have hslot := r4 (by omega)
    obtain ⟨x, hx, hsx⟩ := slotAt_window hw (k := litScan s) (by omega)
    by_cases hk : litScan s + 1 < w.length
    · obtain ⟨y, hy, hsy⟩ := slotAt_window hw hk
      rw [hsx, hsy] at hslot
      exact headLit_differs w hlt hk (by rw [hx, hy, Slot.byte.inj hslot])
    · rw [hsx, slotAt_beyond hs (by omega) (by omega) (by omega)] at hslot
      cases hslot
  · exact heq
  · exfalso
    have hne := r3 _ (Nat.zero_le _) hgt
    by_cases hfull : headLit w < w.length
    · obtain ⟨h1, h2⟩ := headLit_stops w hfull
      obtain ⟨x, hx, hsx⟩ := slotAt_window hw hfull
      obtain ⟨y, hy, hsy⟩ := slotAt_window hw h1
      rw [hx, hy] at h2
      exact hne (by rw [hsx, hsy, Option.some.inj h2])
    · rw [slotAt_beyond hs (k := headLit w) (by omega) (by omega) (by omega),
        slotAt_beyond hs (k := headLit w + 1) (by omega) (by omega) (by omega)] at hne
      exact hne rfl

/-- An iteration of the encoder on a window: it answers a next state, with the packet that R153 gives for the window
emitted and the packet's symbols consumed, where the streams answer. -/
theorem encIter_window {s : State} (hs : BufferInv s) (hp : s.phase = .enc) (hf : Fair s) {b : Byte}
    {rest : List Byte} (hw : window s = some (b :: rest)) :
    ∃ t, encIter b s = .next t ∧
      (2 ≤ headRun (b :: rest) →
        Consumed (headRun (b :: rest))
          (emit [repCode (BitVec.ofNat 7 (headRun (b :: rest))), b] 2 s) t) ∧
      (headRun (b :: rest) < 2 →
        Consumed (headLit (b :: rest))
          (emit (litCode (BitVec.ofNat 7 (headLit (b :: rest))) ::
            (b :: rest).take (headLit (b :: rest))) (headLit (b :: rest) + 1) s) t) := by
  have hlen : rest.length + 1 = s.remaining.toNat := window_length hw
  have hrun := runDetect_eq hs hp hw
  obtain ⟨b1, b2⟩ := headRun_bounds b rest
  have hcap : s.remaining.toNat ≤ 127 := by have := hs.cap; rwa [hp] at this
  have toNat_c : ∀ {c : Nat}, c ≤ 127 → (BitVec.ofNat 8 c).toNat = c := fun hc => by
    simp; omega
  have hall : ∀ k, s.answers.after k ≠ .never := fun k => by rw [show s.answers = .always from hf]; simp
  by_cases h2 : 2 ≤ headRun (b :: rest)
  · have e := toNat_c (c := headRun (b :: rest)) (by omega)
    obtain ⟨t, ht, hc⟩ := packet_consumed (p := [repCode (BitVec.ofNat 7 (headRun (b :: rest))), b])
      (n := 2#8) (c := BitVec.ofNat 8 (headRun (b :: rest))) (s := s) (by omega) (by omega) hs.cap
      (hall _)
    rw [e] at hc
    refine ⟨t, ?_, fun _ => hc, fun h => by omega⟩
    rw [encIter_rep (by omega), hrun, ht]
  · have hlit := litScan_eq hs hp hw (by simp)
    have hpos := headLit_pos b rest (by omega)
    have hle := headLit_le (b :: rest)
    rw [List.length_cons] at hle
    have e := toNat_c (c := headLit (b :: rest)) (by omega)
    have hsp : spanBytes s 0 (litScan s) = some ((b :: rest).take (headLit (b :: rest))) := by
      have := spanBytes_part hw (d := 0) (m := headLit (b :: rest)) (by omega)
      rw [hlit]
      simpa using this
    obtain ⟨t, ht, hc⟩ := packet_consumed
      (p := litCode (BitVec.ofNat 7 (headLit (b :: rest))) :: (b :: rest).take (headLit (b :: rest)))
      (n := BitVec.ofNat 8 (headLit (b :: rest) + 1)) (c := BitVec.ofNat 8 (headLit (b :: rest)))
      (s := s) (by omega) (by omega) hs.cap (hall _)
    rw [e, show (BitVec.ofNat 8 (headLit (b :: rest) + 1)).toNat = headLit (b :: rest) + 1 by
      simp; omega] at hc
    refine ⟨t, ?_, fun h => by omega, fun _ => hc⟩
    rw [encIter_lit (by omega) hsp, hlit, ht]

end Sys2Proof.Machine
end

