-- ==== Sys2Proof/Laws/PerInstr.lean ====
section
/-! SUPPORT. Statements about every instruction as syntax, one lemma per constructor: the family `PacketSize`. -/

namespace Sys2Proof.Laws.PacketSize

open Sys2Proof

/-- What R90 and R93 say of an instruction's size: its payload is at most 127 bytes, so a packet has at most 128; and
where its word is a code byte of a well-formed packet, that byte alone gives the payload's length. -/
def Statement (i : Instr) : Prop :=
  i.payloadLen ≤ 127 ∧
    ∀ c, i.wellFormed = true → encode i = .code c → (decodeCode c).payloadLen = i.payloadLen

theorem endStream : Statement .endStream := by
  refine ⟨by decide, ?_⟩
  rintro c - h
  cases h
  rfl

theorem reserved80 : Statement .reserved80 := by
  refine ⟨by decide, ?_⟩
  rintro c - h
  cases h
  rfl

theorem rep (count : BitVec 7) : Statement (.rep count) := by
  refine ⟨by simp [Instr.payloadLen], ?_⟩
  rintro c hw h
  cases h
  revert count
  decide

theorem lit (length : BitVec 7) : Statement (.lit length) := by
  refine ⟨by simp only [Instr.payloadLen]; have := length.isLt; omega, ?_⟩
  rintro c hw h
  cases h
  revert length
  decide

theorem compress : Statement .compress := by
  refine ⟨by decide, ?_⟩
  rintro c - h
  cases h

theorem decompress : Statement .decompress := by
  refine ⟨by decide, ?_⟩
  rintro c - h
  cases h

end Sys2Proof.Laws.PacketSize
end

