-- ==== Sys2Proof/Tests/Slice0.lean ====
section
/-! SUPPORT. Tests: the encodings written out from 30_encoding.md, and single steps taken from the vectors and programs
of 95_test_vectors.md. -/

namespace Sys2Proof.Tests

open Sys2Proof.Machine

/-! ### Well-formedness and decoding -/

theorem test_wellFormed_refuses_rep_zero : (Instr.rep 0#7).wellFormed = false := by decide

theorem test_wellFormed_refuses_lit_zero : (Instr.lit 0#7).wellFormed = false := by decide

/-- R95: `0x03` = REP with R = 3, bits 0 0000011. -/
theorem test_decode_rep : decode (.code 0b00000011#8) = .ok (.rep 3#7) := rfl

/-- R95: `0x82` = LIT with L = 2, bits 1 0000010. -/
theorem test_decode_lit : decode (.code 0b10000010#8) = .ok (.lit 2#7) := rfl

/-- R94: the last code byte of each range. -/
theorem test_decode_range_ends :
    decode (.code 0b01111111#8) = .ok (.rep 127#7) ∧
      decode (.code 0b11111111#8) = .ok (.lit 127#7) := ⟨rfl, rfl⟩

/-- R94, R95: 0x00 is the terminator. -/
theorem test_decode_end : decode (.code 0b00000000#8) = .ok .endStream := rfl

/-- R96: 0x80 is reserved. -/
theorem test_decode_reserved : decode (.code 0b10000000#8) = .ok .reserved80 := rfl

/-- R102: `CTRL = 0b01` is COMPRESS, `CTRL = 0b11` is DECOMPRESS; R38, T6: START = 0 is no command. -/
theorem test_decode_ctrl :
    decode (.ctrl 0b01#2) = .ok .compress ∧ decode (.ctrl 0b11#2) = .ok .decompress ∧
      decode (.ctrl 0b10#2) = .error .noStart ∧ decode (.ctrl 0b00#2) = .error .noStart :=
  ⟨rfl, rfl, rfl, rfl⟩

/-- R93: the next code byte stands `1 + L` bytes after a literal's, and a packet cut short is none. -/
theorem test_decodePacket :
    decodePacket [0x82#8, 0x58#8, 0x59#8, 0x00#8] = .ok (.lit 2#7, [0x58#8, 0x59#8], [0x00#8]) ∧
      decodePacket [0x83#8, 0x41#8, 0x42#8] = .error .truncated ∧
      decodePacket [] = .error .noCodeByte := ⟨rfl, rfl, rfl⟩

/-- The table's words, and a REP 1 given with its payload byte. -/
theorem test_decodeTableWord :
    decodeTableWord 8 0x00 = some .endStream ∧ decodeTableWord 8 0x80 = some .reserved80 ∧
      decodeTableWord 8 0x05 = some (.rep 5#7) ∧ decodeTableWord 8 0x85 = some (.lit 5#7) ∧
      decodeTableWord 8 0x01 = some .compress ∧ decodeTableWord 8 0x03 = some .decompress ∧
      decodeTableWord 16 0x4101 = some (.rep 1#7) := by decide

/-! ### Steps of the decoder -/

/-- A block in DEC with `bytes` at the scan position `at_` and `inp` left in IN. -/
def decState (at_ : SlotIdx) (bytes inp : List Byte) : State :=
  { placePacket bytes { State.reset with pos := at_, inp := inp } with host := [] }

/-- A block in ENC with `bytes` at the scan position `at_`. -/
def encState (at_ : SlotIdx) (bytes inp : List Byte) : State :=
  { decState at_ bytes inp with phase := .enc, mode := .compress }

/-- What a test looks at in a next state; nothing for a stop. -/
def view {α : Type} (r : Result) (f : State → α) : Option α :=
  match r with
  | .next s => some (f s)
  | .fault _ | .refused _ => none

/-- DV2: END at the scan position; the slot is not consumed. -/
theorem test_end_stops :
    view (step (decState 0#7 [0x00#8] [])) (fun t => (t.phase, t.pos, t.remaining, t.out)) =
      some (.done, 0#7, 1#8, []) := by decide

/-- DV7: the marker stops DECOMPRESS as the terminator does. -/
theorem test_marker_stops :
    view (step { decState 2#7 [] [] with buf := [(2, .endMark)] }) (fun t => t.phase) =
      some .done := by decide

/-- DV11: the reserved code. -/
theorem test_reserved_raises :
    view (step (decState 0#7 [0x80#8] [])) (fun t => (t.phase, t.err, t.remaining, t.out)) =
      some (.error, 2#2, 1#8, []) := by decide

/-- P2, step 1: REP 3, 'A'. -/
theorem test_rep :
    view (step (decState 0#7 [0x03#8, 0x41#8, 0x81#8, 0x42#8, 0x00#8] []))
        (fun t => (t.pos, t.index, t.remaining, t.out, t.cntOut.toList.head?)) =
      some (2#7, 5#7, 3#8, [0x41#8, 0x41#8, 0x41#8], some 3#16) := by decide

/-- DV10: a REP whose payload byte is missing. -/
theorem test_rep_truncated :
    view (step (decState 0#7 [0x03#8] []))
        (fun t => (t.phase, t.err, t.remaining, t.out, t.cntOut.val)) =
      some (.error, 1#2, 1#8, [], 0) := by decide

/-- A LIT whose payload wraps from slot 127 to slot 0 (R72), with one byte refilled; the consumed slots are culled. -/
theorem test_lit_wraps :
    view (step (decState 126#7 [0x82#8, 0x58#8, 0x59#8] [0x00#8]))
        (fun t => (t.pos, t.remaining, t.out, t.buf)) =
      some (1#7, 1#8, [0x58#8, 0x59#8], [(1, .byte 0x00#8)]) := by decide

/-- DV9 and T3: a truncated LIT has no effect but the error; `STATUS` is 0b10111. -/
theorem test_lit_truncated :
    view (step (decState 0#7 [0x83#8, 0x41#8, 0x42#8] []))
        (fun t => (statusWord t, t.remaining, t.pos, t.out)) =
      some (0b10111#5, 3#8, 0#7, []) := by decide

/-! ### Commands -/

/-- P1, step 0: the host writes `CTRL` = 0b01 with AAAB on IN. -/
theorem test_compress_starts :
    view (step { State.reset with inp := [0x41#8, 0x41#8, 0x41#8, 0x42#8], host := [.ctrlWrite 0b01#2] })
        (fun t => (t.phase, t.pos, t.index, t.remaining, t.inp)) =
      some (.enc, 0#7, 4#7, 4#8, []) := by decide

/-- T5: a write of `CTRL` while BUSY is ignored. -/
theorem test_start_while_busy :
    view (exec .compress { decState 0#7 [0x00#8] [] with out := [1#8] })
        (fun t => (t.phase, t.mode, t.remaining)) = some (.dec, .decompress, 1#8) := by decide

/-- DV1 and T4: START(1) on an empty IN clears the error and sets the marker in slot 0. -/
theorem test_decompress_starts :
    view (step { State.reset with phase := .error, err := 1#2, pos := 9#7, host := [.ctrlWrite 0b11#2] })
        (fun t => (t.phase, t.err, t.pos, t.buf)) =
      some (.dec, 0#2, 0#7, [(0, .endMark)]) := by decide

/-! ### Steps of the encoder -/

/-- P1, step 1: the run of three becomes a repeat packet. -/
theorem test_encoder_repeat :
    view (step (encState 0#7 [0x41#8, 0x41#8, 0x41#8, 0x42#8] []))
        (fun t => (t.pos, t.remaining, t.out, t.buf)) =
      some (3#7, 1#8, [0x03#8, 0x41#8], [(3, .byte 0x42#8)]) := by decide

/-- F4: window A B B C gives a literal of one byte. -/
theorem test_encoder_literal :
    view (step (encState 0#7 [0x41#8, 0x42#8, 0x42#8, 0x43#8] [])) (fun t => (t.pos, t.out)) =
      some (1#7, [0x81#8, 0x41#8]) := by decide

/-- E3: a zero byte is data; the marker is set once the window is empty. -/
theorem test_encoder_zero_byte :
    view (step (encState 0#7 [0x00#8] [])) (fun t => (t.phase, t.out, t.buf)) =
      some (.enc, [0x81#8, 0x00#8], [(1, .endMark)]) := by decide

/-- P1, step 3: TERMINATE. -/
theorem test_terminate :
    view (step { encState 4#7 [] [] with buf := [(4, .endMark)] })
        (fun t => (t.phase, t.out, t.cntOut.val)) = some (.done, [0x00#8], 1) := by decide

/-! ### Operations -/

/-- B7: `index` wraps from 127 to 0. -/
theorem test_refill_wraps :
    view (refill 3#8 { State.reset with pos := 126#7, index := 126#7, inp := [1#8, 2#8, 3#8] })
        (fun t => (t.pos, t.index, t.remaining, t.buf)) =
      some (126#7, 1#7, 3#8, [(0, .byte 3#8), (126, .byte 1#8), (127, .byte 2#8)]) := by decide

/-- B3: no marker while `remaining` is 1. -/
theorem test_refill_no_marker :
    view (refill 3#8 { State.reset with pos := 3#7, index := 4#7, remaining := 1#8, buf := [(3, .byte 0x42#8)] })
        (fun t => t.buf) = some [(3, .byte 0x42#8)] := by decide

/-- B9: INVALIDATE(126, 3) wraps and leaves slot 1. -/
theorem test_invalidate_wraps :
    invalidate [(0, .byte 1#8), (1, .byte 2#8), (126, .byte 3#8), (127, .byte 4#8)] 126#7 3#8 =
      [(1, .byte 2#8)] := by decide

/-- A counter with the groups given, group 0 first, and zeros above. -/
def counterOf (gs : List Group) : Counter := Vector.ofFn fun g => gs.getD g.val 0#16

/-- CV4: 998 and 5 units are 1003. -/
theorem test_increment_carries :
    (incrementCounter 5 (counterOf [998#16])).toList = (counterOf [3#16, 1#16]).toList := by decide

/-- CV8: one unit past 10^27 - 1 leaves 0; CV9's 128 units leave 127, here 4 units leave 3. -/
theorem test_increment_wraps :
    (incrementCounter 1 (Vector.replicate 9 999#16)).toList = Counter.zero.toList ∧
      (incrementCounter 4 (Vector.replicate 9 999#16)).val = 3 := by decide

/-- CV5: 1000000 renders as `001,000,000`. -/
theorem test_format :
    format [] (counterOf [0#16, 0#16, 1#16]) = "001,000,000".toList := by decide

/-- CV11 and CV1: 5 renders as `005`, 0 as `FMT_ZERO`. -/
theorem test_format_small :
    format [] (counterOf [5#16]) = ['0', '0', '5'] ∧ format ['x'] Counter.zero = ['x'] := by decide

/-- T1: after reset `STATUS` and the counters read 0; CTRL reads 0 (R38); register 2 does not exist (U12). -/
theorem test_registers_after_reset :
    readReg State.reset 0x01 = some 0#16 ∧ readReg State.reset 0x10 = some 0#16 ∧
      readReg State.reset 0x28 = some 0#16 ∧ readReg State.reset 0x00 = some 0#16 ∧
      readReg State.reset 0x29 = none ∧ readReg State.reset 0x02 = none := by decide

/-- R78: inside a REP's step all writes come before all reads. -/
theorem test_event_order :
    view (step (decState 0#7 [0x02#8, 0x41#8] [0x00#8])) (fun t => t.events) =
      some [.wrote 0x41#8, .wrote 0x41#8, .took 0x00#8, .ended] := by decide

/-- R285, U13: a step of four requests, of which the streams answer three: the block waits inside it, in DEC, with the
three done and the packet not consumed; and all four. -/
theorem test_hang :
    view (step { decState 0#7 [0x02#8, 0x41#8] [0x00#8] with answers := .upTo 3 })
        (fun t => (t.phase, t.answers, t.pos, t.events)) =
      some (.dec, .never, 0#7, [.wrote 0x41#8, .wrote 0x41#8, .took 0x00#8]) ∧
    view (step { decState 0#7 [0x02#8, 0x41#8] [0x00#8] with answers := .upTo 4 })
        (fun t => (t.phase, t.answers, t.pos)) = some (.dec, .upTo 0, 2#7) := by decide

/-- R285, U13: a START whose REFILL is not answered: the phase is DEC, the one byte is taken. -/
theorem test_start_hangs :
    view (step { State.reset with
          phase := .error, inp := [0x41#8], answers := .upTo 1, host := [.ctrlWrite 0b11#2] })
        (fun t => (t.phase, t.mode, t.answers, t.inp, t.remaining)) =
      some (.dec, .decompress, .never, [], 1#8) := by decide

/-- R285, R83: in a hang `STATUS` can be read: BUSY, in mode decompress. -/
theorem test_hang_status :
    view (step { decState 0#7 [0x02#8, 0x41#8] [] with answers := .never, host := [.read 0x01] })
        (fun t => (t.rdata, t.phase, t.answers, t.pos)) =
      some (0b10001#16, .dec, .never, 0#7) := by decide

/-- R150, R285: OUT never accepts the terminator: it is neither written nor counted. -/
theorem test_terminate_hangs :
    view (step { encState 4#7 [] [] with buf := [(4, .endMark)], answers := .upTo 0 })
        (fun t => (t.phase, t.out, t.cntOut.val, t.answers)) = some (.enc, [], 0, .never) := by decide

/-- R83: a counter register that has held only 0 in the run reads 0. -/
theorem test_busy_read_zero :
    readReg (decState 0#7 [0x02#8, 0x41#8] []) 0x18 = some 0#16 := by
  simp [readReg, State.busy, decState, placePacket, State.reset, counterGroup, Config.nGroups, Nat.mod_one,
    counterAfter, incrementCounter, Counter.zero]

/-- T7: reset during a run; OUT keeps what was written. -/
theorem test_reset_event :
    view (step { decState 5#7 [0x81#8, 0x41#8] [] with out := [7#8], host := [.reset, .wait] })
        (fun t => (t.phase, t.buf, t.out, t.host)) =
      some (.idle, [], [7#8], [.wait]) := by decide

/-- S1 and E8 on the list level, and their decoding (S1, DV4). -/
theorem test_list_level :
    enc [0x41#8, 0x41#8, 0x41#8, 0x42#8] = [0x03#8, 0x41#8, 0x81#8, 0x42#8, 0x00#8] ∧
      enc [0x41#8, 0x41#8, 0x42#8, 0x42#8] = [0x02#8, 0x41#8, 0x02#8, 0x42#8, 0x00#8] ∧
      dec [0x03#8, 0x41#8, 0x81#8, 0x42#8, 0x00#8] = ([0x41#8, 0x41#8, 0x41#8, 0x42#8], none) := by
  decide

/-- P5: the output of the packets before the faulty one, and the cause. -/
theorem test_dec_truncated :
    dec [0x02#8, 0x41#8, 0x83#8, 0x78#8, 0x79#8] =
      ([0x41#8, 0x41#8], some .truncatedPacket) := by decide

/-! ### Placed words are the next ones run -/

theorem test_withFetchWord_lit :
    step (State.reset.withFetchWord 8 0x82) =
      exec (.lit 2#7) (beginStep (State.reset.withFetchWord 8 0x82)) := by rfl

theorem test_withFetchWord_compress :
    step (State.reset.withFetchWord 8 0x01) =
      exec .compress (beginStep (State.reset.withFetchWord 8 0x01)) := by rfl

/-! ### Witnesses: what the statements assume can be met, for each clause at the ends of its range

Encoding. -/

theorem witness_PacketDecodeEncode :
    (∃ bytes, (Instr.lit 1#7).wellFormed = true ∧ encodePacket (.lit 1#7) [0x41#8] = some bytes ∧
      [0x41#8].length = (Instr.lit 1#7).payloadLen) ∧
    (∃ bytes, (Instr.rep 127#7).wellFormed = true ∧ encodePacket (.rep 127#7) [0x41#8] = some bytes ∧
      [0x41#8].length = (Instr.rep 127#7).payloadLen) ∧
    ∃ bytes, Instr.endStream.wellFormed = true ∧ encodePacket .endStream [] = some bytes ∧
      ([] : List Byte).length = Instr.endStream.payloadLen :=
  ⟨⟨_, rfl, rfl, rfl⟩, ⟨_, rfl, rfl, rfl⟩, ⟨_, rfl, rfl, rfl⟩⟩

theorem witness_PacketEncodeDecode :
    decodePacket [0x02#8, 0x41#8, 0x00#8] = .ok (.rep 2#7, [0x41#8], [0x00#8]) := rfl

theorem witness_CodeByteMap :
    (0x00#8).toNat = 0x00 ∧ (0x01 ≤ (0x01#8).toNat ∧ (0x01#8).toNat ≤ 0x7F) ∧
      (0x01 ≤ (0x7F#8).toNat ∧ (0x7F#8).toNat ≤ 0x7F) ∧ (0x80#8).toNat = 0x80 ∧
      0x81 ≤ (0x81#8).toNat ∧ 0x81 ≤ (0xFF#8).toNat := by decide

theorem witness_DecodeEncode :
    (Instr.rep 1#7).wellFormed = true ∧ (Instr.rep 127#7).wellFormed = true ∧
      (Instr.lit 1#7).wellFormed = true ∧ (Instr.lit 127#7).wellFormed = true ∧
      Instr.compress.wellFormed = true := by decide

theorem witness_PlacedWordRuns :
    decodeTableWord 8 0x81 = some (.lit 1#7) ∧ decodeTableWord 2 0b11 = some .decompress := by decide

/-! The decoder. -/

theorem witness_EndStops :
    ((decState 5#7 [0x00#8] []).phase = .dec ∧ HostQuiet (decState 5#7 [0x00#8] []) ∧
      ¬Waits (decState 5#7 [0x00#8] []) ∧ slotAt (decState 5#7 [0x00#8] []) 0 = .byte 0x00#8) ∧
    ({ decState 5#7 [] [] with buf := [(5, .endMark)] }.phase = .dec ∧
      HostQuiet { decState 5#7 [] [] with buf := [(5, .endMark)] } ∧
      ¬Waits { decState 5#7 [] [] with buf := [(5, .endMark)] } ∧
      slotAt { decState 5#7 [] [] with buf := [(5, .endMark)] } 0 = .endMark) :=
  ⟨⟨rfl, .inl rfl, by decide, rfl⟩, ⟨rfl, .inl rfl, by decide, rfl⟩⟩

theorem witness_ReservedRaises :
    (decState 5#7 [0x80#8] []).phase = .dec ∧ HostQuiet (decState 5#7 [0x80#8] []) ∧
      ¬Waits (decState 5#7 [0x80#8] []) ∧ slotAt (decState 5#7 [0x80#8] []) 0 = .byte 0x80#8 :=
  ⟨rfl, .inl rfl, by decide, rfl⟩

/-- One slot short, and the payload byte just there, at the end of the buffer. -/
theorem witness_RepResult :
    (decState 127#7 [0x7F#8] []).remaining.toNat < 2 ∧
    (Fair (decState 127#7 [0x7F#8, 0x41#8] []) ∧
      2 ≤ (decState 127#7 [0x7F#8, 0x41#8] []).remaining.toNat ∧
      (decState 127#7 [0x7F#8, 0x41#8] []).remaining.toNat ≤
        fillLimit (decState 127#7 [0x7F#8, 0x41#8] []).phase ∧
      slotAt (decState 127#7 [0x7F#8, 0x41#8] []) 1 = .byte 0x41#8) := by decide

/-- The last payload byte missing, and just there. -/
theorem witness_LitResult :
    (decState 127#7 [0x82#8, 0x41#8] []).remaining.toNat < (2#7).toNat + 1 ∧
    (Fair (decState 127#7 [0x82#8, 0x41#8, 0x42#8] []) ∧
      (2#7).toNat + 1 ≤ (decState 127#7 [0x82#8, 0x41#8, 0x42#8] []).remaining.toNat ∧
      (decState 127#7 [0x82#8, 0x41#8, 0x42#8] []).remaining.toNat ≤
        fillLimit (decState 127#7 [0x82#8, 0x41#8, 0x42#8] []).phase ∧
      [0x41#8, 0x42#8].length = (2#7).toNat ∧
      ∀ k b, [0x41#8, 0x42#8][k]? = some b →
        slotAt (decState 127#7 [0x82#8, 0x41#8, 0x42#8] []) (1 + k) = .byte b) := by
  refine ⟨by decide, rfl, by decide, by decide, rfl, ?_⟩
  rintro (_ | _ | k) b hb
  · cases hb; rfl
  · cases hb; rfl
  · cases hb

/-- Both packets, completing and truncated; and one in which the block waits for OUT, one in which it waits for IN. -/
theorem witness_PacketFrame :
    (∃ t, exec (.rep 3#7) (decState 0#7 [0x03#8, 0x41#8] []) = .next t) ∧
      (∃ t, exec (.lit 1#7) (decState 0#7 [0x81#8, 0x41#8] []) = .next t) ∧
      (∃ t, exec (.rep 3#7) (decState 0#7 [0x03#8] []) = .next t) ∧
      (∃ t, exec (.lit 1#7) (decState 0#7 [0x81#8] []) = .next t) ∧
      (∃ t, exec (.rep 3#7) { decState 0#7 [0x03#8, 0x41#8] [] with answers := .upTo 2 } = .next t ∧
        Waits t) ∧
      ∃ t, exec (.lit 1#7) { decState 0#7 [0x81#8, 0x41#8] [] with answers := .upTo 1 } = .next t ∧
        Waits t :=
  ⟨⟨_, rfl⟩, ⟨_, rfl⟩, ⟨_, rfl⟩, ⟨_, rfl⟩, ⟨_, rfl, rfl⟩, ⟨_, rfl, rfl⟩⟩

/-- The marker, then every clause on a code byte, the truncated packets at both ends of their code ranges. -/
theorem witness_DecoderTestOrder :
    (∀ bytes, (decState 3#7 bytes []).phase = .dec ∧ HostQuiet (decState 3#7 bytes []) ∧
      ¬Waits (decState 3#7 bytes [])) ∧
    slotAt { decState 3#7 [] [] with buf := [(3, .endMark)] } 0 = .endMark ∧
    (slotAt (decState 3#7 [0x00#8] []) 0 = .byte 0x00#8 ∧
      slotAt (decState 3#7 [0x80#8] []) 0 = .byte 0x80#8) ∧
    (∀ c : Byte, c = 0x01#8 ∨ c = 0x7F#8 → slotAt (decState 3#7 [c] []) 0 = .byte c ∧
      0x01 ≤ c.toNat ∧ c.toNat ≤ 0x7F ∧ (decState 3#7 [c] []).remaining.toNat < 2) ∧
    ∀ c : Byte, c = 0x81#8 ∨ c = 0xFF#8 → slotAt (decState 3#7 [c] []) 0 = .byte c ∧
      0x81 ≤ c.toNat ∧ (decState 3#7 [c] []).remaining.toNat < 1 + (c.toNat - 0x80) := by
  refine ⟨fun bytes => ⟨rfl, .inl rfl, by simp [Waits, decState, placePacket, State.reset]⟩, rfl,
    ⟨rfl, rfl⟩, ?_, ?_⟩
  · rintro c (rfl | rfl) <;> decide
  · rintro c (rfl | rfl) <;> decide

/-- The ways on: a stop, a literal, a repeat, and a repeat for which OUT never answers. -/
theorem witness_DecoderAdvance :
    (∃ t, slotAt (decState 9#7 [0x00#8] []) 0 = .byte 0x00#8 ∧
      step (decState 9#7 [0x00#8] []) = .next t) ∧
    (∃ t, slotAt (decState 9#7 [0x81#8, 1#8] []) 0 = .byte 0x81#8 ∧
      step (decState 9#7 [0x81#8, 1#8] []) = .next t) ∧
    (∃ t, slotAt (decState 9#7 [0x01#8, 1#8] []) 0 = .byte 0x01#8 ∧
      step (decState 9#7 [0x01#8, 1#8] []) = .next t) ∧
    (∃ t, step { decState 9#7 [0x01#8, 1#8] [] with answers := .upTo 0 } = .next t ∧ Waits t) ∧
    ∀ bytes, (decState 9#7 bytes []).phase = .dec ∧ HostQuiet (decState 9#7 bytes []) :=
  ⟨⟨_, rfl, rfl⟩, ⟨_, rfl, rfl⟩, ⟨_, rfl, rfl⟩, ⟨_, rfl, rfl⟩, fun _ => ⟨rfl, .inl rfl⟩⟩

theorem witness_StepRunsPacket :
    (decState 9#7 [0x83#8] []).phase = .dec ∧ HostQuiet (decState 9#7 [0x83#8] []) ∧
      ¬Waits (decState 9#7 [0x83#8] []) ∧ slotAt (decState 9#7 [0x83#8] []) 0 = .byte 0x83#8 :=
  ⟨rfl, .inl rfl, by decide, rfl⟩

/-! Commands. -/

/-- The block after reset, in phase `p`, with the host's coming events `evs`. -/
def hostState (p : Phase) (evs : List HostEvent) : State :=
  { State.reset with phase := p, inp := [0x41#8], host := evs }

/-- The three phases in which START is accepted. -/
theorem witness_StartResult :
    (hostState .idle []).busy = false ∧ (hostState .done []).busy = false ∧
      (hostState .error []).busy = false ∧ ∀ p, Fair (hostState p []) :=
  ⟨rfl, rfl, rfl, fun _ => rfl⟩

theorem witness_StartWindow :
    (hostState .done []).busy = false ∧ Fair (hostState .done []) ∧
      ((Instr.compress = .compress ∧ Config.encFill = 127) ∧
        (Instr.decompress = .decompress ∧ Config.decFill = 128)) := by decide

theorem witness_StartAcceptance :
    (hostState .enc [.ctrlWrite 0b11#2]).busy = true ∧ (hostState .dec [.ctrlWrite 0b01#2]).busy = true ∧
      ((hostState .idle [.ctrlWrite 0b01#2]).busy = false ∧ (0b01#2).getLsbD 0 = true) ∧
      ((hostState .error [.ctrlWrite 0b11#2]).busy = false ∧ (0b11#2).getLsbD 0 = true) ∧
      ((hostState .done [.ctrlWrite 0b10#2]).busy = false ∧ (0b10#2).getLsbD 0 = false) := by decide

theorem witness_CommandWhileBusy :
    (hostState .enc []).busy = true ∧ (hostState .dec []).busy = true := by decide

/-- Accepted, with streams that answer and streams that do not, and not accepted. -/
theorem witness_CommandFrame :
    (∃ t, exec .compress (hostState .idle []) = .next t) ∧
      (∃ t, exec .decompress (hostState .error []) = .next t) ∧
      (∃ t, exec .decompress { hostState .error [] with answers := .upTo 1 } = .next t ∧ Waits t) ∧
      ∃ t, exec .decompress (hostState .enc []) = .next t :=
  ⟨⟨_, rfl⟩, ⟨_, rfl⟩, ⟨_, rfl, rfl⟩, ⟨_, rfl⟩⟩

theorem witness_StepRunsCommand :
    (hostState .error [.ctrlWrite 0b01#2]).busy = false ∧
      decode (.ctrl 0b01#2) = .ok .compress := ⟨rfl, rfl⟩

/-! Buffer operations. -/

/-- An empty buffer meets the invariant of the buffer, wherever it stands and whatever IN holds. -/
theorem emptyBuffer_inv (p : Phase) (i : SlotIdx) (inp : List Byte) :
    BufferInv { State.reset with phase := p, pos := i, index := i, inp := inp } where
  cap := Nat.zero_le _
  index_eq := (BitVec.add_zero i).symm
  span := fun _ hk => absurd hk (Nat.not_lt_zero _)
  outside := fun _ _ _ => .inl rfl

/-- IN has more than is asked for, some but less, and nothing. -/
theorem witness_RefillOutcome :
    (0 < (2#8).toNat ∧ BufferInv { State.reset with phase := .dec, pos := 127#7, index := 127#7, inp := [1#8, 2#8, 3#8] } ∧
      Fair { State.reset with phase := .dec, pos := 127#7, index := 127#7, inp := [1#8, 2#8, 3#8] } ∧
      (State.reset.remaining.toNat + (2#8).toNat ≤ fillLimit .dec)) ∧
    (0 < (127#8).toNat ∧ BufferInv { State.reset with phase := .enc, pos := 0#7, index := 0#7, inp := [1#8] } ∧
      Fair { State.reset with phase := .enc, pos := 0#7, index := 0#7, inp := [1#8] } ∧
      (State.reset.remaining.toNat + (127#8).toNat ≤ fillLimit .enc)) ∧
    (0 < (128#8).toNat ∧ BufferInv { State.reset with phase := .dec, pos := 0#7, index := 0#7, inp := [] } ∧
      Fair { State.reset with phase := .dec, pos := 0#7, index := 0#7, inp := [] } ∧
      (State.reset.remaining.toNat + (128#8).toNat ≤ fillLimit .dec)) :=
  ⟨⟨by decide, emptyBuffer_inv _ _ _, rfl, by decide⟩, ⟨by decide, emptyBuffer_inv _ _ _, rfl, by decide⟩,
    ⟨by decide, emptyBuffer_inv _ _ _, rfl, by decide⟩⟩

theorem witness_RefillZero :
    { State.reset with phase := .enc, remaining := 127#8 }.remaining.toNat ≤ fillLimit .enc ∧
      { State.reset with phase := .dec, remaining := 128#8 }.remaining.toNat ≤ fillLimit .dec := by
  decide

/-- One slot, and the one after it; 127 slots from slot 1 on, and the one left out. -/
theorem witness_InvalidateEnds :
    SlotMemory.wf [(0, .byte 1#8), (127, .endMark)] ∧
      (0 < (1#8).toNat ∧ 127#7 = slotIdx 127#7 0) ∧ (∀ k, ¬(k < (1#8).toNat ∧ 0#7 = slotIdx 127#7 k)) ∧
      (126 < (127#8).toNat ∧ 127#7 = slotIdx 1#7 126) ∧
      ∀ k, ¬(k < (127#8).toNat ∧ 0#7 = slotIdx 1#7 k) := by
  refine ⟨by decide, by decide, ?_, by decide, ?_⟩
  · rintro k ⟨hk, e⟩
    obtain rfl : k = 0 := by simpa using hk
    revert e
    decide
  · rintro k ⟨hk, e⟩
    have hk : k < 127 := by simpa using hk
    have := congrArg BitVec.toNat e
    rw [slotIdx_toNat] at this
    have : 0 = (1 + k) % 128 := this
    omega

theorem witness_CanonicalUnique :
    SlotMemory.wf [(0, .byte 1#8), (127, .endMark)] ∧
      SlotMemory.wf (SlotMemory.write [(127, .endMark)] 0#7 (.byte 1#8)) ∧
      ∀ a, SlotMemory.read [(0, .byte 1#8), (127, .endMark)] a =
        SlotMemory.read (SlotMemory.write [(127, .endMark)] 0#7 (.byte 1#8)) a := by decide

/-! The counter. -/

/-- All nine groups at 999; no leading 999; eight of them, then 998. -/
theorem witness_UnitWalk :
    (∀ j, j < 9 → (Vector.replicate 9 999#16 : Counter).toList[j]? = some 999#16) ∧
      ((counterOf [5#16]).toList[0]? = some 5#16 ∧ 5#16 ≠ 999#16) ∧
      (∀ j, j < 8 → (counterOf (List.replicate 8 999#16 ++ [998#16])).toList[j]? = some 999#16) ∧
      ((counterOf (List.replicate 8 999#16 ++ [998#16])).toList[8]? = some 998#16 ∧
        998#16 ≠ 999#16) := by decide

/-- A counter whose nine groups are all `g`. -/
theorem replicate_inRange {g : Group} (h : g.toNat ≤ 999) : Counter.InRange (Vector.replicate 9 g) := by
  intro x hx
  simp at hx
  rw [hx]
  exact h

theorem witness_IncrementValue :
    Counter.InRange (Vector.replicate 9 999#16) ∧ Counter.InRange Counter.zero :=
  ⟨replicate_inRange (by decide), zero_inRange⟩

/-- Only group 0 is not 0, and group 8 is not 0. -/
theorem witness_FormatShowsValue :
    (Counter.InRange (counterOf [5#16]) ∧ 0 < 9 ∧ (counterOf [5#16]).toList[0]? ≠ some 0#16 ∧
      ∀ g, 0 < g → g < 9 → (counterOf [5#16]).toList[g]? = some 0#16) ∧
    (Counter.InRange (Vector.replicate 9 999#16) ∧ 8 < 9 ∧
      (Vector.replicate 9 999#16).toList[8]? ≠ some 0#16 ∧
      ∀ g, 8 < g → g < 9 → (Vector.replicate 9 999#16).toList[g]? = some 0#16) := by
  have e : (counterOf [5#16]).toList = 5#16 :: List.replicate 8 0#16 := by decide
  refine ⟨⟨?_, by decide, by rw [e]; decide, ?_⟩,
    ⟨replicate_inRange (by decide), by decide, by simp, fun g h h' => by omega⟩⟩
  · intro g hg
    rw [e] at hg
    rcases List.mem_cons.mp hg with rfl | hg
    · decide
    · rw [List.eq_of_mem_replicate hg]
      decide
  · intro g h0 h9
    obtain ⟨g, rfl⟩ : ∃ n, g = n + 1 := ⟨g - 1, by omega⟩
    rw [e, List.getElem?_cons_succ, List.getElem?_replicate, if_pos (by omega)]

/-! The encoder. -/

/-- The end of COMPRESS as the next step: the marker at the scan position `i`, everything else `EMPTY`. -/
def encEnded (i : SlotIdx) : State :=
  { State.reset with phase := .enc, pos := i, index := i, buf := [(i.toNat, .endMark)] }

theorem witness_EncoderTerminates :
    (encEnded 4#7).phase = .enc ∧ HostQuiet (encEnded 4#7) ∧ Fair (encEnded 4#7) ∧
      { encEnded 4#7 with answers := .upTo 0 }.answers = .upTo 0 ∧
      slotAt (encEnded 4#7) 0 = .endMark ∧ BufferInv (encEnded 4#7) := by
  refine ⟨rfl, .inl rfl, rfl, rfl, rfl, Nat.zero_le _, rfl, fun _ h => absurd h (Nat.not_lt_zero _), ?_⟩
  intro k _ hk
  rcases Nat.eq_zero_or_pos k with rfl | h0
  · exact .inr ⟨rfl, rfl⟩
  · left
    have e : (slotIdx 4#7 k).toNat = (4 + k) % 128 := slotIdx_toNat _ _
    show SlotMemory.lookup [(4, .endMark)] (slotIdx 4#7 k).toNat = .empty
    rw [e, SlotMemory.lookup, if_neg (by omega), SlotMemory.lookup]

/-- A block in ENC with three bytes in its window, at the end of the buffer. -/
def encThree (b0 b1 b2 : Byte) : State :=
  { State.reset with
    phase := .enc, pos := 126#7, index := 1#7, remaining := 3#8
    buf := [(0, .byte b2), (126, .byte b0), (127, .byte b1)] }

theorem encThree_slots (b0 b1 b2 : Byte) :
    slotAt (encThree b0 b1 b2) 0 = .byte b0 ∧ slotAt (encThree b0 b1 b2) 1 = .byte b1 ∧
      slotAt (encThree b0 b1 b2) 2 = .byte b2 := by
  simp [slotAt, encThree, slotIdx, SlotMemory.read, SlotMemory.lookup]

theorem encThree_window (b0 b1 b2 : Byte) : window (encThree b0 b1 b2) = some [b0, b1, b2] := by
  have h := encThree_slots b0 b1 b2
  show spanBytes (encThree b0 b1 b2) 0 3 = some [b0, b1, b2]
  simp [spanBytes, h.1, h.2.1, h.2.2]

theorem encThree_inv (b0 b1 b2 : Byte) : BlockInv (encThree b0 b1 b2) where
  canonical := ⟨by simp [encThree], by simp [encThree]⟩
  buffer := fun _ =>
    { cap := by show 3 ≤ 127; decide
      index_eq := by show 1#7 = slotIdx 126#7 3; decide
      span := by
        intro k hk
        have hk : k < 3 := hk
        rcases (by omega : k = 0 ∨ k = 1 ∨ k = 2) with rfl | rfl | rfl
        · exact ⟨b0, (encThree_slots b0 b1 b2).1⟩
        · exact ⟨b1, (encThree_slots b0 b1 b2).2.1⟩
        · exact ⟨b2, (encThree_slots b0 b1 b2).2.2⟩
      outside := by
        intro k hk hk'
        have hk : 3 ≤ k := hk
        have e : (slotIdx 126#7 k).toNat = (126 + k) % 128 := slotIdx_toNat _ _
        left
        show SlotMemory.lookup [(0, .byte b2), (126, .byte b0), (127, .byte b1)]
          (slotIdx 126#7 k).toNat = .empty
        rw [e]
        simp only [SlotMemory.lookup]
        rw [if_neg (by omega), if_neg (by omega), if_neg (by omega)] }
  run := fun _ =>
    { topped := fun _ _ => rfl
      marked := fun _ (h : 3#8 = 0#8) => absurd h (by decide) }
  modeOk := ⟨fun _ => rfl, fun (h : Phase.enc = .dec) => absurd h (by decide)⟩
  errOk := rfl
  counters := ⟨zero_inRange, zero_inRange⟩
  counted := ⟨rfl, rfl⟩
  waits := fun _ => rfl

/-- A block that waits, in ENC, wherever its step stands. -/
theorem waiting_inv (b0 b1 b2 : Byte) :
    BlockInv { encThree b0 b1 b2 with remaining := 0#8, answers := .never } where
  canonical := (encThree_inv b0 b1 b2).canonical
  buffer := fun h => absurd rfl h
  run := fun h => absurd rfl h
  modeOk := (encThree_inv b0 b1 b2).modeOk
  errOk := rfl
  counters := ⟨zero_inRange, zero_inRange⟩
  counted := ⟨rfl, rfl⟩
  waits := fun _ => rfl

/-- A run of exactly two, and none. -/
theorem witness_EncoderIteration :
    (∀ b0 b1 b2, BlockInv (encThree b0 b1 b2) ∧ HostQuiet (encThree b0 b1 b2) ∧
      Fair (encThree b0 b1 b2)) ∧
    (∀ b0 b1 b2, (encThree b0 b1 b2).phase = .enc ∧
      window (encThree b0 b1 b2) = some (b0 :: [b1, b2])) ∧
    2 ≤ headRun (0x41#8 :: [0x41#8, 0x42#8]) ∧ headRun (0x41#8 :: [0x42#8, 0x42#8]) < 2 :=
  ⟨fun _ _ _ => ⟨encThree_inv _ _ _, .inl rfl, rfl⟩, fun _ _ _ => ⟨rfl, encThree_window _ _ _⟩, by decide,
    by decide⟩

theorem witness_LitScan :
    slotAt (encThree 0x41#8 0x42#8 0x43#8) 0 ≠
        slotAt (encThree 0x41#8 0x42#8 0x43#8) 1 ∧
      BufferInv (encThree 0x41#8 0x42#8 0x43#8) ∧
      (encThree 0x41#8 0x42#8 0x43#8).phase = .enc ∧
      1 ≤ (encThree 0x41#8 0x42#8 0x43#8).remaining.toNat :=
  ⟨by decide, (encThree_inv _ _ _).buffer (by decide), rfl, by decide⟩

/-! The sequencer. -/

/-- A step that keeps its phase, one for each way of changing it. -/
theorem witness_PhaseTransitions :
    (∃ t, step (decState 0#7 [0x02#8, 0x41#8] []) = .next t ∧ t.phase = .dec) ∧
    (∃ t, step (hostState .enc [.reset]) = .next t ∧ t.phase = .idle) ∧
    (∃ t, step (hostState .error [.ctrlWrite 0b01#2]) = .next t ∧ t.phase = .enc) ∧
    (∃ t, step (hostState .done [.ctrlWrite 0b11#2]) = .next t ∧ t.phase = .dec) ∧
    (∃ t, step { encState 4#7 [] [] with buf := [(4, .endMark)] } = .next t ∧ t.phase = .done) ∧
    (∃ t, step (decState 0#7 [0x00#8] []) = .next t ∧ t.phase = .done) ∧
    (∃ t, step (decState 0#7 [0x80#8] []) = .next t ∧ t.phase = .error) :=
  ⟨⟨_, rfl, rfl⟩, ⟨_, rfl, rfl⟩, ⟨_, rfl, rfl⟩, ⟨_, rfl, rfl⟩, ⟨_, rfl, rfl⟩, ⟨_, rfl, rfl⟩,
    ⟨_, rfl, rfl⟩⟩

theorem witness_RunIsOver :
    ((hostState .idle []).busy = false ∧ HostQuiet (hostState .idle [])) ∧
      ((hostState .error [.wait]).busy = false ∧ HostQuiet (hostState .error [.wait])) :=
  ⟨⟨rfl, .inl rfl⟩, ⟨rfl, .inr ⟨[], rfl⟩⟩⟩

/-- ERROR kept, left by reset, left by START. -/
theorem witness_ErrorIsSticky :
    (∃ t, step { hostState .error [.ctrlWrite 0b10#2] with err := 1#2 } = .next t) ∧
      (∃ t, step { hostState .error [.reset] with err := 1#2 } = .next t) ∧
      ∃ t, step { hostState .error [.ctrlWrite 0b11#2] with err := 2#2 } = .next t :=
  ⟨⟨_, rfl⟩, ⟨_, rfl⟩, ⟨_, rfl⟩⟩

theorem witness_ResetInAnyPhase : (hostState .dec [.reset, .wait]).host = .reset :: [.wait] := rfl

/-- The first and the last group, in a run and outside. -/
theorem witness_CounterRegisters :
    0 < 9 ∧ 8 < 9 ∧ CountersInRange (hostState .done []) ∧ (hostState .done []).busy = false ∧
      CountersInRange (hostState .dec []) ∧ (hostState .dec []).busy = true :=
  ⟨by decide, by decide, ⟨zero_inRange, zero_inRange⟩, rfl, ⟨zero_inRange, zero_inRange⟩, rfl⟩

/-- A read in a run, of `STATUS` and of the first and the last counter register. -/
theorem witness_ReadsAreHarmless :
    (∃ v, readReg { encState 4#7 [0x41#8] [] with host := [.read 0x01] } 0x01 = some v) ∧
      (∃ v, readReg { encState 4#7 [0x41#8] [] with host := [.read 0x10] } 0x10 = some v) ∧
      ∃ v, readReg { encState 4#7 [0x41#8] [] with host := [.read 0x28] } 0x28 = some v :=
  ⟨⟨_, rfl⟩, by simp [readReg, counterGroup, Config.nGroups, encState, State.busy],
    by simp [readReg, counterGroup, Config.nGroups, encState, State.busy]⟩

/-- A next state, a fault and a refusal. -/
theorem witness_CountersAreSilent :
    ((∀ num rest, (decState 0#7 [0x02#8, 0x41#8] []).host ≠ .read num :: rest) ∧
      ∃ t, step (decState 0#7 [0x02#8, 0x41#8] []) = .next t) ∧
    ((∀ num rest, (hostState .dec []).host ≠ .read num :: rest) ∧
      step (hostState .dec []) = .fault .stuckEmptySlot) ∧
    ((∀ num rest, (hostState .dec [.connect [] .always]).host ≠ .read num :: rest) ∧
      step (hostState .dec [.connect [] .always]) = .refused .connectWhileBusy) :=
  ⟨⟨by simp [decState, placePacket], ⟨_, rfl⟩⟩, ⟨by simp [hostState], rfl⟩,
    ⟨by simp [hostState], rfl⟩⟩

/-! Invariants and whole operations. -/

theorem witness_InvStep :
    (BlockInv (encThree 0x41#8 0x41#8 0x42#8) ∧
      ∃ t, step (encThree 0x41#8 0x41#8 0x42#8) = .next t) ∧
    BlockInv { encThree 0x41#8 0x41#8 0x42#8 with remaining := 0#8, answers := .never } ∧
      ∃ t, step { encThree 0x41#8 0x41#8 0x42#8 with remaining := 0#8, answers := .never } = .next t :=
  ⟨⟨encThree_inv _ _ _, ⟨_, rfl⟩⟩, waiting_inv _ _ _, ⟨_, rfl⟩⟩

theorem witness_CanonicalStep :
    BufferCanonical (decState 127#7 [0x02#8, 0x41#8] [0x00#8]) ∧
      ∃ t, step (decState 127#7 [0x02#8, 0x41#8] [0x00#8]) = .next t :=
  ⟨show SlotMemory.wf [(0, .byte 0x41#8), (127, .byte 0x02#8)] by decide, ⟨_, rfl⟩⟩

theorem witness_CountersStep :
    CountersInRange (decState 127#7 [0x02#8, 0x41#8] [0x00#8]) ∧
      ∃ t, step (decState 127#7 [0x02#8, 0x41#8] [0x00#8]) = .next t :=
  ⟨⟨zero_inRange, zero_inRange⟩, ⟨_, rfl⟩⟩

/-- Streams that answer, streams that do not, and a block that waits for them; the two ways in which the host offends, and
a `CTRL` write during a run, which is none. -/
theorem witness_NeverStops :
    (BlockInv (encThree 0x41#8 0x41#8 0x42#8) ∧ ¬HostOffends (encThree 0x41#8 0x41#8 0x42#8)) ∧
      (BlockInv { encThree 0x41#8 0x41#8 0x42#8 with remaining := 0#8, answers := .never } ∧
        ¬HostOffends { encThree 0x41#8 0x41#8 0x42#8 with remaining := 0#8, answers := .never }) ∧
      ¬HostOffends (hostState .enc [.ctrlWrite 0b11#2]) ∧
      HostOffends (hostState .enc [.connect [] .always]) ∧ HostOffends (hostState .idle [.read 2]) :=
  ⟨⟨encThree_inv _ _ _, fun h => h⟩, ⟨waiting_inv _ _ _, fun h => h⟩, fun h => h, rfl, rfl⟩

theorem witness_WindowMoves :
    BlockInv (encThree 0x41#8 0x41#8 0x42#8) ∧
      (encThree 0x41#8 0x41#8 0x42#8).busy = true ∧
      HostQuiet (encThree 0x41#8 0x41#8 0x42#8) ∧
      ∃ t, step (encThree 0x41#8 0x41#8 0x42#8) = .next t ∧ ¬Waits t :=
  ⟨encThree_inv _ _ _, rfl, .inl rfl, ⟨_, rfl, by decide⟩⟩

theorem witness_CompressRun :
    (hostState .idle [.ctrlWrite 0b01#2]).busy = false ∧ Fair (hostState .idle [.ctrlWrite 0b01#2]) ∧
      (hostState .idle [.ctrlWrite 0b01#2]).host = [.ctrlWrite 0b01#2] := ⟨rfl, rfl, rfl⟩

/-- An input for each of the three ways in which DECOMPRESS ends. -/
theorem witness_DecompressRun :
    (hostState .done [.ctrlWrite 0b11#2]).busy = false ∧ Fair (hostState .done [.ctrlWrite 0b11#2]) ∧
      (hostState .done [.ctrlWrite 0b11#2]).host = [.ctrlWrite 0b11#2] ∧
      (dec [0x00#8]).2 = none ∧ (dec [0x41#8]).2 = some .truncatedPacket ∧
      (dec [0x80#8]).2 = some .reservedCode := ⟨rfl, rfl, rfl, rfl, rfl, rfl⟩

/-- E1's output on IN: the terminator alone, from the empty input. -/
theorem witness_RoundTrip :
    { hostState .done [.ctrlWrite 0b11#2] with inp := [0x00#8] }.busy = false ∧
      Fair { hostState .done [.ctrlWrite 0b11#2] with inp := [0x00#8] } ∧
      { hostState .done [.ctrlWrite 0b11#2] with inp := [0x00#8] }.host = [.ctrlWrite 0b11#2] ∧
      { hostState .done [.ctrlWrite 0b11#2] with inp := [0x00#8] }.inp = enc [] :=
  ⟨rfl, rfl, rfl, rfl⟩

/-- P2's packets, the terminator, and one byte after it. -/
theorem witness_DecompressEndState :
    (∀ q ∈ [(Instr.rep 3#7, [0x41#8]), (.lit 1#7, [0x42#8])], q.1.wellFormed = true ∧
      (∃ n, q.1 = .rep n ∨ q.1 = .lit n) ∧ q.2.length = q.1.payloadLen) ∧
    [(Instr.rep 3#7, [0x41#8]), (.lit 1#7, [0x42#8])].flatMap
        (fun q => (encodePacket q.1 q.2).getD []) = [0x03#8, 0x41#8, 0x81#8, 0x42#8] ∧
    { hostState .idle [.ctrlWrite 0b11#2] with
        inp := [0x03#8, 0x41#8, 0x81#8, 0x42#8, 0x00#8, 0x05#8] }.inp =
      [0x03#8, 0x41#8, 0x81#8, 0x42#8] ++ 0x00#8 :: [0x05#8] ∧
    Fair (hostState .idle [.ctrlWrite 0b11#2]) := by
  refine ⟨?_, rfl, rfl, rfl⟩
  intro q hq
  have h : q = (Instr.rep 3#7, [0x41#8]) ∨ q = (.lit 1#7, [0x42#8]) := by simpa using hq
  rcases h with rfl | rfl
  · exact ⟨rfl, ⟨3#7, .inl rfl⟩, rfl⟩
  · exact ⟨rfl, ⟨1#7, .inr rfl⟩, rfl⟩

/-! Streams. -/

/-- A step that writes and reads, one that ends COMPRESS, one that is not BUSY, and one that connects the streams. -/
theorem witness_StreamOrder :
    (∃ t, step (decState 0#7 [0x02#8, 0x41#8] [0x00#8]) = .next t) ∧
    (∃ t, step (encEnded 4#7) = .next t ∧ (encEnded 4#7).phase = .enc ∧ t.phase = .done) ∧
    ((hostState .idle [.wait]).busy = false ∧ (∃ t, step (hostState .idle [.wait]) = .next t) ∧
      ∀ bytes answers rest, (hostState .idle [.wait]).host ≠ .connect bytes answers :: rest) ∧
    ∃ t, step (hostState .idle [.connect [1#8] (.upTo 3)]) = .next t :=
  ⟨⟨_, rfl⟩, ⟨_, rfl, rfl, rfl⟩, ⟨rfl, ⟨_, rfl⟩, by simp [hostState]⟩, ⟨_, rfl⟩⟩

/-- Streams that answer everything, all four requests of the step, and one fewer. -/
theorem witness_StreamAnswers :
    Fair (decState 0#7 [0x02#8, 0x41#8] [0x00#8]) ∧
    (∀ bytes answers rest,
      (decState 0#7 [0x02#8, 0x41#8] [0x00#8]).host ≠ .connect bytes answers :: rest) ∧
    ∃ t, step { decState 0#7 [0x02#8, 0x41#8] [0x00#8] with answers := .always } = .next t ∧
      ({ decState 0#7 [0x02#8, 0x41#8] [0x00#8] with answers := .upTo 4 }.answers = .upTo 4 ∧
        t.events.length ≤ 4) ∧
      { decState 0#7 [0x02#8, 0x41#8] [0x00#8] with answers := .upTo 3 }.answers = .upTo 3 ∧
        3 < t.events.length :=
  ⟨rfl, by simp [decState, placePacket], ⟨_, rfl, ⟨rfl, by decide⟩, rfl, by decide⟩⟩

/-- A block that waits, in DEC, with the host's coming events `evs`. -/
def hungState (evs : List HostEvent) : State := { hostState .dec evs with answers := .never }

/-- A host that does nothing, one that writes `CTRL`, one that reads a register, and one that resets. -/
theorem witness_HangStays :
    (∀ evs, Waits (hungState evs) ∧ (hungState evs).busy = true) ∧ HostQuiet (hungState []) ∧
      HostQuiet (hungState [.wait]) ∧ readReg (hungState [.read 0x01]) 0x01 = some 0b00001#16 :=
  ⟨fun _ => ⟨rfl, rfl⟩, .inl rfl, .inr ⟨[], rfl⟩, rfl⟩

/-- Neither byte nor `EOS`, and the byte but not `EOS`, for both commands. -/
theorem witness_StartHangs :
    ∀ n, n = 0 ∨ n = 1 →
      { hostState .done [] with answers := .upTo n }.busy = false ∧
      { hostState .done [] with answers := .upTo n }.answers = .upTo n ∧
      n < (readEvents 127 { hostState .done [] with answers := .upTo n }.inp).length ∧
      n < (readEvents 128 { hostState .done [] with answers := .upTo n }.inp).length := by
  rintro n (rfl | rfl) <;> decide

end Sys2Proof.Tests
end

section
/-! PROOFS. The state as the host and the buffer show it: the values after reset, the registers (R38 to R40), and that
the canonical form is one list for one buffer (log 2). -/

namespace Sys2Proof.Machine

/-! ### Reset and the registers -/

theorem zero_groups : ∀ g ∈ Counter.zero.toList, g = 0#16 := by
  simp [Counter.zero]

/-- Settles O38: each field of `State.reset` as R50 gives it. -/
theorem resetValues : Obligations.ResetValues :=
  ⟨fun _ => rfl, rfl, rfl, rfl, zero_groups, zero_groups, rfl, rfl, rfl, rfl, fun _ => rfl⟩

theorem statusWord_phase (s : State) : (statusWord s).extractLsb' 0 2 = phaseCode s.phase := by
  rw [statusWord, BitVec.extractLsb'_append_eq_right]

theorem statusWord_err (s : State) : (statusWord s).extractLsb' 2 2 = s.err := by
  have fields : ∀ (m : BitVec 1) (e p : BitVec 2), (m ++ e ++ p).extractLsb' 2 2 = e := by decide
  exact fields _ _ _

theorem statusWord_mode (s : State) : (statusWord s).extractLsb' 4 1 = modeCode s.mode := by
  have fields : ∀ (m : BitVec 1) (e p : BitVec 2), (m ++ e ++ p).extractLsb' 4 1 = m := by decide
  exact fields _ _ _

/-- Settles O39, field by field of `STATUS`. -/
theorem statusFields : Obligations.StatusFields := by
  intro s
  refine ⟨rfl, rfl, ?_, statusWord_err s, ?_⟩
  · rw [statusWord_phase]
    cases s.phase <;> rfl
  · rw [statusWord_mode]
    cases s.mode <;> rfl

/-! ### The counter registers -/

theorem counterGroup_in (cin cout : Counter) {g : Nat} (hg : g < 9) :
    counterGroup cin cout (0x10 + g) = cin.toList[g]? := by
  rw [counterGroup, if_pos (by simp only [Config.nGroups]; omega), Nat.add_sub_cancel_left]

theorem counterGroup_out (cin cout : Counter) {g : Nat} (hg : g < 9) :
    counterGroup cin cout (0x20 + g) = cout.toList[g]? := by
  rw [counterGroup, if_neg (by simp only [Config.nGroups]; omega),
    if_pos (by simp only [Config.nGroups]; omega), Nat.add_sub_cancel_left]

/-- A group in range has bits 15:10 zero. -/
theorem group_and_mask {v : Group} (h : v.toNat ≤ 999) : v &&& 0x3FF#16 = v := by
  apply BitVec.eq_of_toNat_eq
  rw [BitVec.toNat_and, show (0x3FF#16).toNat = 2 ^ 10 - 1 from rfl, Nat.and_two_pow_sub_one_eq_mod]
  omega

/-- A counter in range shows its groups unmasked. -/
theorem Counter.InRange.map_mask {c : Counter} (h : c.InRange) (g : Nat) :
    (c.toList[g]?).map (· &&& 0x3FF#16) = c.toList[g]? := by
  cases hg : c.toList[g]? with
  | none => rfl
  | some v => exact congrArg some (group_and_mask (h v (List.mem_of_getElem? hg)))

/-- A counter in range has a group of at most 999 under each of its nine numbers. -/
theorem Counter.InRange.exists_group {c : Counter} (h : c.InRange) {g : Nat} (hg : g < 9) :
    ∃ v, c.toList[g]? = some v ∧ v.toNat ≤ 999 := by
  have hlt : g < c.toList.length := by rwa [counter_toList_length]
  exact ⟨_, List.getElem?_eq_getElem hlt, h _ (List.getElem_mem hlt)⟩

theorem counterAfter_inRange (k : Nat) : (counterAfter k).InRange :=
  incrementCounter_inRange zero_inRange k

/-- The moment of the run that a read of counter register `num` shows, of `units` counted so far. -/
def shownMoment (s : State) (num units : Nat) : Nat := Config.busyMoment s.tick num % (units + 1)

theorem shownMoment_le (s : State) (num units : Nat) : shownMoment s num units ≤ units :=
  Nat.le_of_lt_succ (Nat.mod_lt _ (Nat.succ_pos units))

/-- The accumulator whose groups a read of register `num` shows, `c` being the accumulator and `units` its count (R83). -/
def shownCounter (s : State) (num : Nat) (c : Counter) (units : Nat) : Counter :=
  if s.busy then counterAfter (shownMoment s num units) else c

theorem shownCounter_inRange (s : State) (num units : Nat) {c : Counter} (h : c.InRange) :
    (shownCounter s num c units).InRange := by
  rw [shownCounter]
  split
  · exact counterAfter_inRange _
  · exact h

/-- A counter register shows a group of one of the two shown accumulators, masked (R40). -/
theorem readReg_counter (s : State) {num : Nat} (hn : 1 < num) :
    readReg s num =
      (counterGroup (shownCounter s num s.cntIn s.unitsIn)
        (shownCounter s num s.cntOut s.unitsOut) num).map (· &&& 0x3FF#16) := by
  rw [readReg, if_neg (by omega), if_neg (by omega), shownCounter, shownCounter]
  split <;> rfl

theorem readReg_cntIn {s : State} (hs : CountersInRange s) {g : Nat} (hg : g < 9) :
    readReg s (0x10 + g) = (shownCounter s (0x10 + g) s.cntIn s.unitsIn).toList[g]? := by
  rw [readReg_counter s (by omega), counterGroup_in _ _ hg,
    (shownCounter_inRange s _ _ hs.1).map_mask]

theorem readReg_cntOut {s : State} (hs : CountersInRange s) {g : Nat} (hg : g < 9) :
    readReg s (0x20 + g) = (shownCounter s (0x20 + g) s.cntOut s.unitsOut).toList[g]? := by
  rw [readReg_counter s (by omega), counterGroup_out _ _ hg,
    (shownCounter_inRange s _ _ hs.2).map_mask]

/-- Settles O40: both registers read a group of the shown accumulator, which is in range in every phase. -/
theorem counterRegisters : Obligations.CounterRegisters := by
  intro s g hg hs
  rw [readReg_cntIn hs hg, readReg_cntOut hs hg]
  refine ⟨?_, ?_, ?_, ?_⟩
  · intro hb
    simp [shownCounter, hb]
  · intro hb
    exact ⟨⟨_, shownMoment_le s (0x10 + g) s.unitsIn, by rw [shownCounter, if_pos hb]⟩,
      _, shownMoment_le s (0x20 + g) s.unitsOut, by rw [shownCounter, if_pos hb]⟩
  · exact (shownCounter_inRange s _ _ hs.1).exists_group hg
  · exact (shownCounter_inRange s _ _ hs.2).exists_group hg

/-! ### The canonical form -/

/-- In the canonical form the entries are the slots that do not read `EMPTY`, each with what it reads. -/
theorem SlotMemory.mem_iff_read {m : SlotMemory} (h : wf m) (a : SlotIdx) (v : Slot) :
    (a.toNat, v) ∈ m ↔ v ≠ .empty ∧ read m a = v := by
  obtain ⟨hsorted, hentries⟩ := h
  rw [read]
  induction m with
  | nil => simp [lookup, eq_comm]
  | cons c rest ih =>
    obtain ⟨k, w⟩ := c
    rw [List.pairwise_cons] at hsorted
    obtain ⟨hhead, hsorted⟩ := hsorted
    have hrest := ih hsorted fun d hd => hentries d (List.mem_cons_of_mem _ hd)
    by_cases hk : k = a.toNat
    · have hnot : (a.toNat, v) ∉ rest := fun hm => by
        have hlt : k < a.toNat := hhead _ hm
        omega
      have hw : w ≠ .empty := (hentries (k, w) (by simp)).2
      rw [List.mem_cons, or_iff_left hnot, lookup, if_pos hk, Prod.mk.injEq]
      constructor
      · rintro ⟨-, rfl⟩
        exact ⟨hw, rfl⟩
      · rintro ⟨-, rfl⟩
        exact ⟨hk.symm, rfl⟩
    · simp only [List.mem_cons, lookup, if_neg hk, hrest]
      simp [Ne.symm hk]

theorem SlotMemory.mem_of_read_eq {m m' : SlotMemory} (h : wf m) (h' : wf m')
    (hread : ∀ a, read m a = read m' a) {c : Nat × Slot} (hc : c ∈ m) : c ∈ m' := by
  obtain ⟨k, v⟩ := c
  obtain ⟨a, rfl⟩ : ∃ a : SlotIdx, a.toNat = k :=
    ⟨BitVec.ofNat 7 k, by rw [BitVec.toNat_ofNat]; exact Nat.mod_eq_of_lt (h.2 _ hc).1⟩
  rw [mem_iff_read h' a v, ← hread]
  exact (mem_iff_read h a v).mp hc

/-- Settles O22: both lists hold the same entries, in rising order of slot number. -/
theorem canonicalUnique : Obligations.CanonicalUnique := by
  intro m m' hm hm' hread
  have irrefl : Std.Irrefl fun c d : Nat × Slot => c.1 < d.1 := ⟨fun c => Nat.lt_irrefl c.1⟩
  have antisymm : Std.Antisymm fun c d : Nat × Slot => c.1 < d.1 :=
    ⟨fun _ _ h h' => absurd h' (Nat.lt_asymm h)⟩
  exact hm.1.eq_of_mem_iff hm'.1 fun c =>
    ⟨SlotMemory.mem_of_read_eq hm hm' hread,
      SlotMemory.mem_of_read_eq hm' hm fun a => (hread a).symm⟩

end Sys2Proof.Machine
end

section
/-! PROOFS. The state and its invariants (10_state.md): what REFILL, CONSUME, a packet, TERMINATE and START keep, and
that every step keeps `BlockInv`. -/

namespace Sys2Proof.Machine

/-! ### What an operation of a run keeps, whether the block waits in it or not -/

/-- Each accumulator of `t` is the one of `s` after some number of units, and the counts of units say how many. -/
def CountsOn (s t : State) : Prop :=
  (∃ i, t.cntIn = incrementCounter i s.cntIn ∧ t.unitsIn = s.unitsIn + i) ∧
    ∃ o, t.cntOut = incrementCounter o s.cntOut ∧ t.unitsOut = s.unitsOut + o

theorem CountsOn.trans {s t u : State} (h : CountsOn s t) (h' : CountsOn t u) : CountsOn s u := by
  obtain ⟨⟨i, hi, hui⟩, o, ho, huo⟩ := h
  obtain ⟨⟨j, hj, huj⟩, p, hp, hup⟩ := h'
  exact ⟨⟨i + j, by rw [hj, hi, incrementCounter_add], by omega⟩,
    o + p, by rw [hp, ho, incrementCounter_add], by omega⟩

theorem CountsOn.inRange {s t : State} (h : CountsOn s t) (hs : CountersInRange s) :
    CountersInRange t := by
  obtain ⟨⟨i, hi, -⟩, o, ho, -⟩ := h
  exact ⟨hi ▸ incrementCounter_inRange hs.1 i, ho ▸ incrementCounter_inRange hs.2 o⟩

theorem CountsOn.counted {s t : State} (h : CountsOn s t) (hs : CountersCounted s) :
    CountersCounted t := by
  obtain ⟨⟨i, hi, hui⟩, o, ho, huo⟩ := h
  obtain ⟨hin, hout⟩ := hs
  exact ⟨by rw [hi, hui, hin, counterAfter, counterAfter, incrementCounter_add],
    by rw [ho, huo, hout, counterAfter, counterAfter, incrementCounter_add]⟩

/-- What REFILL, CONSUME and a packet have in common, also where the block waits in them: phase, mode and `err` stay, the
canonical form stays, and the accumulators only count. -/
structure RunsOn (s t : State) : Prop where
  phase_eq : t.phase = s.phase
  mode_eq : t.mode = s.mode
  err_eq : t.err = s.err
  canonical : BufferCanonical s → BufferCanonical t
  counts : CountsOn s t

theorem RunsOn.trans {s t u : State} (h : RunsOn s t) (h' : RunsOn t u) : RunsOn s u where
  phase_eq := h'.phase_eq.trans h.phase_eq
  mode_eq := h'.mode_eq.trans h.mode_eq
  err_eq := h'.err_eq.trans h.err_eq
  canonical := h'.canonical ∘ h.canonical
  counts := h.counts.trans h'.counts

theorem cull_runsOn (c : Amount) (s : State) : RunsOn s (cull c s) :=
  ⟨rfl, rfl, rfl, fun hw => invalidate_wf hw s.pos c, ⟨0, rfl, rfl⟩, 0, rfl, rfl⟩

theorem emit_runsOn (p : List Byte) (n : Nat) (s : State) : RunsOn s (emit p n s) :=
  ⟨rfl, rfl, rfl, id, ⟨0, rfl, rfl⟩, n, rfl, rfl⟩

theorem outWrites_increment_runsOn (p : List Byte) (n : Amount) (s : State) :
    RunsOn s (outWrites p (increment .output n s)) where
  phase_eq := by simp
  mode_eq := by simp
  err_eq := by simp
  canonical hw := by simpa [BufferCanonical] using hw
  counts := ⟨⟨0, by simp [incrementCounter]⟩, n.toNat, by simp⟩

theorem heldReading_runsOn {j : Nat} {s : State} (hj : j ≤ s.inp.length) :
    RunsOn s (heldReading j s) := by
  obtain ⟨-, -, -, hin, huin, -, -, -, hwf, -, hout, hphase, hmode, herr, -, -, -, -, huout⟩ :=
    heldReading_spec hj
  exact ⟨hphase, hmode, herr, hwf, ⟨j, hin, huin⟩, 0, hout, huout⟩

theorem Refilled.runsOn {n : Nat} {s t : State} (h : Refilled n s t)
    (hw : SlotMemory.wf s.buf → SlotMemory.wf t.buf) : RunsOn s t := by
  obtain ⟨-, hout, hphase, hmode, herr, -, -, -, -, huout⟩ := h.frame
  exact ⟨hphase, hmode, herr, hw, ⟨_, h.counted, h.units_eq⟩, 0, hout, huout⟩

theorem Consumed.runsOn {c : Nat} {s t : State} (h : Consumed c s t)
    (hw : SlotMemory.wf s.buf → SlotMemory.wf t.buf) : RunsOn s t := by
  obtain ⟨hout, hphase, hmode, herr, -, -, -, -, huout⟩ := h.frame
  exact ⟨hphase, hmode, herr, hw, ⟨_, h.counted, h.units_eq⟩, 0, hout, huout⟩

theorem refill_runsOn {n : Amount} {s t : State} (h : refill n s = .next t) : RunsOn s t := by
  obtain ⟨-, ⟨-, -, hr, hw⟩ | ⟨ha, rfl⟩⟩ := refill_cases h
  · exact hr.runsOn hw
  · exact heldReading_runsOn (room_readEvents ha).2

theorem consume_runsOn {c : Amount} {s t : State} (h0 : 0 < c.toNat) (h : consume c s = .next t) :
    RunsOn s t := by
  obtain ⟨-, -, ⟨-, -, hc, hw⟩ | ⟨ha, rfl⟩⟩ := consume_cases h0 h
  · exact hc.runsOn hw
  · exact (cull_runsOn c s).trans (heldReading_runsOn (room_readEvents ha).2)

theorem packet_runsOn {p : List Byte} {n c : Amount} {s t : State} (h0 : 0 < c.toNat)
    (h : packet p n c s = .next t) : RunsOn s t := by
  obtain ⟨-, rfl⟩ | ⟨-, hc⟩ := packet_cases h
  · exact outWrites_increment_runsOn p n s
  · exact (emit_runsOn p n.toNat s).trans (consume_runsOn h0 hc)

theorem start_runsOn {m : Mode} {s t : State} (h : start m s = .next t) :
    ∃ p, (p = .enc ∧ m = .compress ∨ p = .dec ∧ m = .decompress) ∧ RunsOn (startInit m p s) t := by
  cases m with
  | compress => exact ⟨.enc, .inl ⟨rfl, rfl⟩, refill_runsOn h⟩
  | decompress => exact ⟨.dec, .inr ⟨rfl, rfl⟩, refill_runsOn h⟩

theorem terminate_frame {s t : State} (h : terminate s = .next t) :
    t.buf = s.buf ∧ CountsOn s t := by
  obtain ⟨-, rfl⟩ | ⟨-, rfl⟩ := terminate_cases h
  · exact ⟨rfl, ⟨0, rfl, rfl⟩, 1, rfl, rfl⟩
  · exact ⟨rfl, ⟨0, rfl, rfl⟩, 0, rfl, rfl⟩

/-! ### How an invariant of the step is proved -/

/-- The sequencer's part of a step keeps `P` if TERMINATE, the normal stop, the exception and a packet do. -/
theorem phaseStep_keeps {P : State → Prop}
    (hterminate : ∀ s t, s.phase = .enc → P s → ¬Waits s → terminate s = .next t → P t)
    (hstop : ∀ s, s.phase = .dec → ¬Waits s → P s → P (stopDone s))
    (hraise : ∀ cause s, s.phase = .dec → ¬Waits s → P s → P (raise cause s))
    (hpacket : ∀ p n c s t, s.busy = true → ¬Waits s → 0 < c.toNat → P s →
      packet p n c s = .next t → P t)
    {s t : State} (hs : P s) (h : phaseStep s = .next t) : P t := by
  rcases phaseStep_cases h with ⟨-, rfl⟩ | ⟨hp, -, hw, ht⟩ | ⟨hp, v, p, n, c, -, h0, hw, hc⟩ |
    ⟨hp, -, hw, rfl⟩ | ⟨hp, b, cause, -, hw, rfl⟩ | ⟨hp, b, p, n, c, -, hlen, hw, hc⟩
  · exact hs
  · exact hterminate s t hp hs hw ht
  · exact hpacket p n c s t (by simp [State.busy, hp]) hw h0 hs hc
  · exact hstop s hp hw hs
  · exact hraise cause s hp hw hs
  · exact hpacket p n c s t (by simp [State.busy, hp]) hw (by omega) hs hc

/-- A step keeps `P` if the host's own side of it, reset, START and the sequencer do. -/
theorem step_keeps {P : State → Prop}
    (hhost : ∀ s rd tk, P s → P { beginStep s with rdata := rd, tick := tk })
    (hconnect : ∀ s bytes answers, s.busy = false → P s →
      P { beginStep s with inp := bytes, out := [], answers := Answers.released answers })
    (hreset : ∀ s, P (hardReset s))
    (hstart : ∀ m s t, start m s = .next t → P t)
    (hphase : ∀ s t, P s → phaseStep s = .next t → P t)
    {s t : State} (hs : P s) (h : step s = .next t) : P t := by
  cases step_cases h with
  | sequenced u rd tk hu hstep _ => exact hphase u t (hu ▸ hhost s rd tk hs) hstep
  | connected bytes answers hb ht _ => exact ht ▸ hconnect s bytes answers hb hs
  | reset ht _ => exact ht ▸ hreset (beginStep s)
  | started m _ hstep _ => exact hstart m (beginStep s) t hstep

/-! ### The slot list and the counters -/

/-- Settles O45: every operation writes slots by `SlotMemory.write` alone, which keeps the form, or clears them. -/
theorem canonicalStep : Obligations.CanonicalStep := by
  intro s t
  refine step_keeps (fun _ _ _ hs => hs) (fun _ _ _ _ hs => hs) (fun _ => SlotMemory.wf_nil) ?_ ?_
  · intro m s t h
    obtain ⟨p, -, hr⟩ := start_runsOn h
    exact hr.canonical SlotMemory.wf_nil
  · intro s t
    refine phaseStep_keeps ?_ (fun _ _ _ hs => hs) (fun _ _ _ _ hs => hs) ?_
    · intro s t _ hs _ h
      rw [BufferCanonical, (terminate_frame h).1]
      exact hs
    · exact fun _ _ _ _ _ _ _ h0 hs h => (packet_runsOn h0 h).canonical hs

/-- Settles O46: the accumulators change by unit walks, which keep every group in range, or are cleared. -/
theorem countersStep : Obligations.CountersStep := by
  intro s t
  refine step_keeps (fun _ _ _ hs => hs) (fun _ _ _ _ hs => hs)
    (fun _ => ⟨zero_inRange, zero_inRange⟩) ?_ ?_
  · intro m s t h
    obtain ⟨p, -, hr⟩ := start_runsOn h
    exact hr.counts.inRange ⟨zero_inRange, zero_inRange⟩
  · intro s t
    refine phaseStep_keeps ?_ (fun _ _ _ hs => hs) (fun _ _ _ _ hs => hs) ?_
    · exact fun _ _ _ hs _ h => (terminate_frame h).2.inRange hs
    · exact fun _ _ _ _ _ _ _ h0 hs h => (packet_runsOn h0 h).counts.inRange hs

/-! ### REFILL and the buffer's invariant -/

/-- REFILL keeps R25 and R27 to R30: the bytes stored follow the valid span, and the marker goes to the scan position. -/
theorem Refilled.bufferInv {n : Nat} {s t : State} (h : Refilled n s t) (hs : BufferInv s)
    (hn : s.remaining.toNat + n ≤ fillLimit s.phase) : BufferInv t := by
  obtain ⟨hpos, -, hphase, -⟩ := h.frame
  have hlim := fillLimit_le s.phase
  have hrem := h.remaining_eq
  have hslot : ∀ k, slotAt t k = SlotMemory.read t.buf (slotIdx s.pos k) := by
    intro k; rw [slotAt, hpos]
  have hindex : ∀ j, slotIdx s.index j = slotIdx s.pos (s.remaining.toNat + j) := by
    intro j; rw [hs.index_eq, slotIdx_slotIdx]
  -- a slot that is neither refilled nor marked reads as before
  have hkept : ∀ k, k < 128 → (k < s.remaining.toNat ∨ t.remaining.toNat ≤ k) →
      ¬(0 < n ∧ s.inp = [] ∧ s.remaining = 0#8 ∧ k = 0) → slotAt t k = slotAt s k := by
    intro k hk hout hmark
    rw [hslot]
    refine h.kept _ ?_ ?_
    · intro j hj e
      rw [hindex, slotIdx_inj _ hk (by omega)] at e
      omega
    · rintro ⟨h0, hi, hr, e⟩
      rw [hs.index_eq, hr, slotIdx_inj _ hk (by decide)] at e
      exact hmark ⟨h0, hi, hr, e⟩
  refine ⟨?_, ?_, ?_, ?_⟩
  · rw [hphase]; omega
  · rw [h.index_eq, hindex, hpos, hrem]
  · intro k hk
    by_cases hin : k < s.remaining.toNat
    · rw [hkept k (by omega) (.inl hin) (by rintro ⟨-, -, hr, -⟩; simp [hr] at hin)]
      exact hs.span k hin
    · obtain ⟨j, rfl⟩ : ∃ j, k = s.remaining.toNat + j := ⟨k - s.remaining.toNat, by omega⟩
      have hj : j < s.inp.length := by omega
      exact ⟨_, by
        rw [hslot, ← hindex]
        exact h.stored j _ (by omega) (List.getElem?_eq_getElem hj)⟩
  · intro k hk1 hk2
    by_cases hmark : 0 < n ∧ s.inp = [] ∧ s.remaining = 0#8 ∧ k = 0
    · obtain ⟨h0, hi, hr, rfl⟩ := hmark
      have hm := h.marked h0 hi hr
      rw [hs.index_eq, hr] at hm
      exact .inr ⟨rfl, by rw [hslot]; exact hm⟩
    · rw [hkept k hk2 (.inr hk1) hmark]
      exact hs.outside k (by omega) hk2

/-- An empty buffer with its pointers equal meets R25 to R30. -/
theorem startInit_bufferInv (m : Mode) (p : Phase) (s : State) : BufferInv (startInit m p s) where
  cap := Nat.zero_le _
  index_eq := rfl
  span k hk := absurd hk (Nat.not_lt_zero k)
  outside _ _ _ := .inl rfl

/-- What START's whole REFILL leaves: the invariants of a running operation (R123, R124). -/
theorem Refilled.start_inv {m : Mode} {p : Phase} {s t : State}
    (h : Refilled (fillLimit p) (startInit m p s) t) : BufferInv t ∧ RunInv t := by
  have hb : BufferInv t := h.bufferInv (startInit_bufferInv m p s) (by simp)
  have hphase : t.phase = p := h.frame.2.2.1
  have hpos : t.pos = 0#7 := h.frame.1
  have hrem : t.remaining.toNat = min (fillLimit p) s.inp.length := by simpa using h.remaining_eq
  have hlim : 0 < fillLimit p := by cases p <;> decide
  refine ⟨hb, ?_, ?_⟩
  · intro _ hlt
    rw [hphase] at hlt
    have htaken : t.inp = s.inp.drop (fillLimit p) := h.taken
    rw [htaken, List.drop_eq_nil_iff]
    omega
  · intro _ hz
    have hi : s.inp = [] := by
      rw [← List.length_eq_zero_iff]
      rw [hz] at hrem
      simp at hrem
      omega
    have hm := h.marked hlim hi rfl
    rwa [slotAt, hpos, slotIdx_zero]

/-- START leaves a block that meets R25 to R30, or waits in its REFILL. -/
theorem start_inv {m : Mode} {s t : State} (h : start m s = .next t) (hw : ¬Waits t) :
    BufferInv t ∧ RunInv t := by
  have refilled : ∀ p n, n.toNat = fillLimit p → refill n (startInit m p s) = .next t →
      BufferInv t ∧ RunInv t := by
    intro p n hn h
    obtain ⟨-, ⟨-, -, hr, -⟩ | ⟨ha, rfl⟩⟩ := refill_cases h
    · exact (hn ▸ hr).start_inv
    · obtain ⟨-, -, -, -, -, -, hwaits, -⟩ := heldReading_spec (room_readEvents ha).2
      exact absurd hwaits hw
  cases m with
  | compress => exact refilled .enc _ rfl h
  | decompress => exact refilled .dec _ rfl h

/-! ### A packet and the buffer's invariant -/

/-- A packet that the block completes is a CONSUME after its bytes are emitted. -/
theorem packet_consumed_of_not_waits {p : List Byte} {n c : Amount} {s t : State} (h0 : 0 < c.toNat)
    (h : packet p n c s = .next t) (hw : ¬Waits t) :
    c.toNat ≤ s.remaining.toNat ∧ Consumed c.toNat (emit p n.toNat s) t := by
  obtain ⟨ha, rfl⟩ | ⟨-, hc⟩ := packet_cases h
  · exact absurd (by simpa [Waits] using ha) hw
  · obtain ⟨hle, -, ⟨-, -, hcon, -⟩ | ⟨ha, rfl⟩⟩ := consume_cases h0 hc
    · exact ⟨hle, hcon⟩
    · obtain ⟨-, -, -, -, -, -, hwaits, -⟩ :=
        heldReading_spec (s := cull c (emit p n.toNat s)) (room_readEvents ha).2
      exact absurd hwaits hw

theorem BufferInv.emit {s : State} (h : BufferInv s) (p : List Byte) (n : Nat) :
    BufferInv (emit p n s) := h.congr rfl rfl rfl rfl le_rfl

/-- A packet of a running operation that the block completes keeps R25 to R30. -/
theorem packet_inv {p : List Byte} {n c : Amount} {s t : State} (h0 : 0 < c.toNat)
    (hb : BufferInv s) (hr : RunInv s) (hbusy : s.busy = true) (h : packet p n c s = .next t)
    (hw : ¬Waits t) : BufferInv t ∧ RunInv t := by
  obtain ⟨hc, hcon⟩ := packet_consumed_of_not_waits h0 h hw
  obtain ⟨hbuf, htop, hmark⟩ := hcon.inv (hb.emit p n.toNat) h0 hc (hr.topped hbusy)
  exact ⟨hbuf, fun _ => htop, fun _ => hmark⟩

/-! ### What holds of the block whether it waits or not -/

/-- The parts of `BlockInv` that are said of a block inside a step too. -/
structure ControlInv (s : State) : Prop where
  canonical : BufferCanonical s
  modeOk : ModeInv s
  errOk : ErrInv s
  counters : CountersInRange s
  counted : CountersCounted s

theorem BlockInv.control {s : State} (h : BlockInv s) : ControlInv s :=
  ⟨h.canonical, h.modeOk, h.errOk, h.counters, h.counted⟩

theorem ControlInv.runsOn {s t : State} (hs : ControlInv s) (h : RunsOn s t) : ControlInv t where
  canonical := h.canonical hs.canonical
  modeOk := by rw [ModeInv, h.phase_eq, h.mode_eq]; exact hs.modeOk
  errOk := by rw [ErrInv, h.phase_eq, h.err_eq]; exact hs.errOk
  counters := h.counts.inRange hs.counters
  counted := h.counts.counted hs.counted

theorem startInit_control {m : Mode} {p : Phase}
    (h : p = .enc ∧ m = .compress ∨ p = .dec ∧ m = .decompress) (s : State) :
    ControlInv (startInit m p s) where
  canonical := SlotMemory.wf_nil
  modeOk := by rcases h with ⟨rfl, rfl⟩ | ⟨rfl, rfl⟩ <;> simp [ModeInv]
  errOk := by rcases h with ⟨rfl, rfl⟩ | ⟨rfl, rfl⟩ <;> simp [ErrInv]
  counters := ⟨zero_inRange, zero_inRange⟩
  counted := ⟨rfl, rfl⟩

theorem busy_congr {s t : State} (h : t.phase = s.phase) : t.busy = s.busy := by
  rw [State.busy, h, State.busy]

/-- A block that a `RunsOn` operation leaves BUSY meets the invariants if its buffer does where it does not wait. -/
theorem BlockInv.of_runsOn {s t : State} (hs : ControlInv s) (hbusy : s.busy = true)
    (h : RunsOn s t) (hbuf : ¬Waits t → BufferInv t ∧ RunInv t) : BlockInv t where
  canonical := (hs.runsOn h).canonical
  buffer hw := (hbuf hw).1
  run hw := (hbuf hw).2
  modeOk := (hs.runsOn h).modeOk
  errOk := (hs.runsOn h).errOk
  counters := (hs.runsOn h).counters
  counted := (hs.runsOn h).counted
  waits _ := (busy_congr h.phase_eq).trans hbusy

/-! ### The parts of a step and the invariants -/

/-- A block that is not BUSY runs no operation, so nothing is said of one. -/
theorem RunInv.of_not_busy {s : State} (h : s.busy = false) : RunInv s :=
  ⟨fun hb => by simp [h] at hb, fun hb => by simp [h] at hb⟩

/-- Ending the operation, in DONE with `err` as it was, keeps the invariants (R150, R171). -/
theorem BlockInv.stopDone {s : State} (h : BlockInv s) (hw : ¬Waits s) (hbusy : s.busy = true) :
    BlockInv (stopDone s) where
  canonical := h.canonical
  buffer _ := (h.buffer hw).congr rfl rfl rfl rfl (fillLimit_le s.phase)
  run _ := .of_not_busy rfl
  modeOk := by simp [ModeInv]
  errOk := by
    have hne : s.phase ≠ .error := by rintro e; simp [State.busy, e] at hbusy
    simpa [ErrInv, hne] using h.errOk
  counters := h.counters
  counted := h.counted
  waits hw' := absurd hw' hw

/-- Taking the exception keeps the invariants (R244). -/
theorem BlockInv.raise {s : State} (h : BlockInv s) (hw : ¬Waits s) (cause : Cause) :
    BlockInv (raise cause s) where
  canonical := h.canonical
  buffer _ := (h.buffer hw).congr rfl rfl rfl rfl (fillLimit_le s.phase)
  run _ := .of_not_busy rfl
  modeOk := by simp [ModeInv]
  errOk := by cases cause <;> simp [ErrInv, Cause.code]
  counters := h.counters
  counted := h.counted
  waits hw' := absurd hw' hw

/-- TERMINATE keeps the invariants: it is an `OutWrite` that is counted and the end of the operation, or the block waits
(R150, R285). -/
theorem BlockInv.terminate {s t : State} (h : BlockInv s) (hp : s.phase = .enc) (hw : ¬Waits s)
    (ht : terminate s = .next t) : BlockInv t := by
  have hbusy : s.busy = true := by simp [State.busy, hp]
  obtain ⟨ha, rfl⟩ | ⟨-, rfl⟩ := terminate_cases ht
  · have hemit : BlockInv (emit [0x00#8] 1 s) :=
      .of_runsOn h.control hbusy (emit_runsOn _ 1 s) fun _ =>
        ⟨(h.buffer hw).emit _ 1, (h.run hw).topped, (h.run hw).marked⟩
    exact hemit.stopDone ha hbusy
  · exact .of_runsOn h.control hbusy ⟨rfl, rfl, rfl, id, ⟨0, rfl, rfl⟩, 0, rfl, rfl⟩
      fun hw' => absurd rfl hw'

/-- START establishes the invariants, whatever the state it is given (R222). -/
theorem start_blockInv {m : Mode} {s t : State} (h : start m s = .next t) : BlockInv t := by
  obtain ⟨p, hp, hr⟩ := start_runsOn h
  have hbusy : (startInit m p s).busy = true := by
    rcases hp with ⟨rfl, -⟩ | ⟨rfl, -⟩ <;> rfl
  exact .of_runsOn (startInit_control hp s) hbusy hr (start_inv h)

/-- What reset gives meets the invariants, whatever the environment. -/
theorem hardReset_blockInv (s : State) : BlockInv (hardReset s) where
  canonical := SlotMemory.wf_nil
  buffer _ := (startInit_bufferInv .compress .enc s).congr rfl rfl rfl rfl (fillLimit_le _)
  run _ := .of_not_busy rfl
  modeOk := by simp [ModeInv]
  errOk := by simp [ErrInv]
  counters := ⟨zero_inRange, zero_inRange⟩
  counted := ⟨rfl, rfl⟩
  waits hw := absurd hw (Answers.released_ne s.answers)

/-- Only a quiescent block is given new streams, and it does not wait. -/
theorem BlockInv.connect {s : State} (h : BlockInv s) (hb : s.busy = false) (bytes : List Byte)
    (answers : Answers) :
    BlockInv { beginStep s with inp := bytes, out := [], answers := answers.released } :=
  have hw : ¬Waits s := fun hw => by simp [h.waits hw] at hb
  { canonical := h.canonical
    buffer := fun _ => (h.buffer hw).congr rfl rfl rfl rfl le_rfl
    run := fun _ => .of_not_busy hb
    modeOk := h.modeOk
    errOk := h.errOk
    counters := h.counters
    counted := h.counted
    waits := fun hw' => absurd hw' (Answers.released_ne answers) }

/-- The invariants do not look at the host's events, the event record, or the latest read. -/
theorem BlockInv.host {s : State} (h : BlockInv s) (rd : BitVec 16) (tk : Nat) :
    BlockInv { beginStep s with rdata := rd, tick := tk } where
  canonical := h.canonical
  buffer hw := (h.buffer hw).congr rfl rfl rfl rfl le_rfl
  run hw := ⟨(h.run hw).topped, (h.run hw).marked⟩
  modeOk := h.modeOk
  errOk := h.errOk
  counters := h.counters
  counted := h.counted
  waits := h.waits

/-- The sequencer keeps the invariants (R226). -/
theorem phaseStep_blockInv {s t : State} (hs : BlockInv s) (h : phaseStep s = .next t) :
    BlockInv t := by
  refine phaseStep_keeps ?_ ?_ ?_ ?_ hs h
  · exact fun s t hp hs hw ht => hs.terminate hp hw ht
  · exact fun s hp hw hs => hs.stopDone hw (by simp [State.busy, hp])
  · exact fun cause s _ hw hs => hs.raise hw cause
  · exact fun p n c s t hbusy hw h0 hs ht =>
      .of_runsOn hs.control hbusy (packet_runsOn h0 ht) (packet_inv h0 (hs.buffer hw) (hs.run hw) hbusy ht)

/-- Settles O44, part by part of the step: the host's side, reset, START, and what the sequencer does. -/
theorem invStep : Obligations.InvStep := fun _ _ hs h =>
  step_keeps (fun _ rd tk hs => hs.host rd tk) (fun _ bytes answers hb hs => hs.connect hb bytes answers)
    hardReset_blockInv (fun _ _ _ => start_blockInv) (fun _ _ => phaseStep_blockInv) hs h

/-- Settles O43: reset's state is what the reset input makes of it. -/
theorem invAtReset : Obligations.InvAtReset := hardReset_blockInv State.reset

/-! ### The window -/

/-- The window looks at three fields only. -/
theorem window_congr {s t : State} (hb : t.buf = s.buf) (hp : t.pos = s.pos)
    (hr : t.remaining = s.remaining) : window t = window s := by
  rw [window, hr, spanBytes_congr hb hp, window]

/-- The window followed by the rest of IN loses its first `c` bytes, at most 128, and `pos` advances by `c`. -/
def StreamMoves (s t : State) : Prop :=
  ∃ c w w', c ≤ 128 ∧ window s = some w ∧ window t = some w' ∧
    w' ++ t.inp = (w ++ s.inp).drop c ∧ t.pos = slotIdx s.pos c

/-- A state that differs in neither buffer nor IN: `c` is 0. -/
theorem StreamMoves.of_unmoved {s t : State} (hs : BufferInv s) (hb : t.buf = s.buf)
    (hp : t.pos = s.pos) (hr : t.remaining = s.remaining) (hi : t.inp = s.inp) :
    StreamMoves s t := by
  obtain ⟨w, hw, -⟩ := hs.window_some
  exact ⟨0, w, w, Nat.zero_le _, hw, (window_congr hb hp hr).trans hw, by rw [hi, List.drop_zero],
    by rw [hp, slotIdx_zero]⟩

/-- A packet that is completed drops what it consumes (R147, R176). -/
theorem packet_streamMoves {p : List Byte} {n c : Amount} {s t : State} (hs : BufferInv s)
    (h0 : 0 < c.toNat) (h : packet p n c s = .next t) (hw : ¬Waits t) : StreamMoves s t := by
  obtain ⟨hc, hcon⟩ := packet_consumed_of_not_waits h0 h hw
  obtain ⟨w, hwin, -⟩ := hs.window_some
  have hemit : window (emit p n.toNat s) = some w := (window_congr (s := s) (t := emit p n.toNat s) rfl rfl rfl).trans hwin
  obtain ⟨w', hw', hstream⟩ := hcon.window_stream (hs.emit p n.toNat) hc hemit
  exact ⟨c.toNat, w, w', hc.trans (hs.cap.trans (fillLimit_le _)), hwin, hw', hstream, hcon.pos_eq⟩

/-- What the sequencer does to the window in a step that the block completes (R226, R232). -/
theorem phaseStep_streamMoves {s t : State} (hs : BufferInv s) (h : phaseStep s = .next t)
    (hw : ¬Waits t) : StreamMoves s t := by
  rcases phaseStep_cases h with ⟨-, rfl⟩ | ⟨-, -, -, ht⟩ | ⟨-, v, p, n, c, -, h0, -, hc⟩ |
    ⟨-, -, -, rfl⟩ | ⟨-, b, cause, -, -, rfl⟩ | ⟨-, b, p, n, c, -, hlen, -, hc⟩
  · exact .of_unmoved hs rfl rfl rfl rfl
  · obtain ⟨-, rfl⟩ | ⟨-, rfl⟩ := terminate_cases ht
    · exact .of_unmoved hs rfl rfl rfl rfl
    · exact absurd rfl hw
  · exact packet_streamMoves hs h0 hc hw
  · exact .of_unmoved hs rfl rfl rfl rfl
  · exact .of_unmoved hs rfl rfl rfl rfl
  · exact packet_streamMoves hs (by omega) hc hw

/-- Settles O48: a quiet step is the sequencer's, and a block that waits would still wait after it. -/
theorem windowMoves : Obligations.WindowMoves := by
  intro s t hs _ hquiet h hw
  rw [step_quiet hquiet] at h
  have hnot : ¬Waits s := by
    intro hwaits
    rw [phaseStep_waits (s := beginStep s) hwaits] at h
    cases h
    exact hw hwaits
  have hbuf : BufferInv (beginStep s) := (hs.buffer hnot).congr rfl rfl rfl rfl le_rfl
  obtain ⟨c, w, w', hc, hwin, hmoved⟩ := phaseStep_streamMoves hbuf h hw
  exact ⟨c, w, w', hc, (window_congr (s := s) (t := beginStep s) rfl rfl rfl).symm.trans hwin, hmoved⟩

end Sys2Proof.Machine
end

section
/-! PROOFS. R34: no rule reads a counter. Every operation of the step is run from a state and from the same state with
other accumulators, and ends alike. -/

namespace Sys2Proof.Machine

/-- `s` with other values in the two accumulators. -/
def recount (ci co : Counter) (s : State) : State := { s with cntIn := ci, cntOut := co }

/-- Two outcomes that are alike but for the accumulators. -/
inductive SameButCounters : Result → Result → Prop
  | next (ci co : Counter) (t : State) : SameButCounters (.next t) (.next (recount ci co t))
  | fault (e : Fault) : SameButCounters (.fault e) (.fault e)
  | refused (e : Refusal) : SameButCounters (.refused e) (.refused e)

/-- An operation that does not look at the accumulators. -/
def CounterBlind (f : State → Result) : Prop :=
  ∀ ci co s, SameButCounters (f s) (f (recount ci co s))

/-! ### What is read of the state -/

@[simp] theorem recount_phase (ci co : Counter) (s : State) : (recount ci co s).phase = s.phase := rfl
@[simp] theorem recount_busy (ci co : Counter) (s : State) : (recount ci co s).busy = s.busy := rfl
@[simp] theorem slotAt_recount (ci co : Counter) (s : State) (k : Nat) :
    slotAt (recount ci co s) k = slotAt s k := rfl

@[simp] theorem spanBytes_recount (ci co : Counter) (s : State) (off n : Nat) :
    spanBytes (recount ci co s) off n = spanBytes s off n := 
  spanBytes_congr (s := s) (t := recount ci co s) rfl rfl off n

@[simp] theorem runDetect_recount (ci co : Counter) (s : State) :
    runDetect (recount ci co s) = runDetect s := by
  have loop : ∀ fuel run, runFrom (recount ci co s) fuel run = runFrom s fuel run := by
    intro fuel
    induction fuel with
    | zero => intro run; rfl
    | succ fuel ih => intro run; simp only [runFrom, slotAt_recount, ih]
  exact loop _ _

@[simp] theorem litScan_recount (ci co : Counter) (s : State) :
    litScan (recount ci co s) = litScan s := by
  have loop : ∀ fuel len, litFrom (recount ci co s) fuel len = litFrom s fuel len := by
    intro fuel
    induction fuel with
    | zero => intro len; rfl
    | succ fuel ih => intro len; simp only [litFrom, slotAt_recount, ih]
  exact loop _ _

/-! ### REFILL, CONSUME and packets -/

theorem SameButCounters.ite {p : Prop} [Decidable p] {a b a' b' : Result}
    (h : p → SameButCounters a a') (h' : ¬p → SameButCounters b b') :
    SameButCounters (if p then a else b) (if p then a' else b') := by
  by_cases hp : p
  · rw [if_pos hp, if_pos hp]
    exact h hp
  · rw [if_neg hp, if_neg hp]
    exact h' hp

theorem SameButCounters.next_ite {p : Prop} [Decidable p] {t u t' u' : State}
    (h : p → SameButCounters (.next t) (.next t')) (h' : ¬p → SameButCounters (.next u) (.next u')) :
    SameButCounters (.next (if p then t else u)) (.next (if p then t' else u')) := by
  rw [apply_ite Host.Outcome.next, apply_ite Host.Outcome.next]
  exact .ite h h'

theorem SameButCounters.andThen {r r' : Result} {f : State → Result} (h : SameButCounters r r')
    (hf : CounterBlind f) : SameButCounters (andThen r f) (andThen r' f) := by
  cases h with
  | next ci co t => exact .ite (p := Waits t) (fun _ => .next ci co t) fun _ => hf ci co t
  | fault e => exact .fault e
  | refused e => exact .refused e

theorem storeBytes_same (ci co : Counter) (bs : List Byte) (s : State) :
    SameButCounters (.next (storeBytes bs s)) (.next (storeBytes bs (recount ci co s))) := by
  have hcomm : ∀ ci s, storeBytes bs (recount ci co s) =
      recount (incrementCounter bs.length ci) co (storeBytes bs s) := by
    induction bs with
    | nil => exact fun _ _ => rfl
    | cons b rest ih => exact fun ci s => ih (incrementCounter 1 ci) (storeByte b s)
  rw [hcomm]
  exact .next _ _ _

/-- `OutWrite`s after an INCREMENT of `cnt[out]`. -/
theorem outWrites_increment_same (ci co : Counter) (bs : List Byte) (n : Amount) (s : State) :
    SameButCounters (.next (outWrites bs (increment .output n s)))
      (.next (outWrites bs (increment .output n (recount ci co s)))) := by
  rw [outWrites_eq, outWrites_eq]
  exact .next ci (incrementCounter n.toNat co) _

/-- REFILL's loop by its closed form: it waits, sets the marker, or stores bytes. -/
theorem refillFrom_same (ci co : Counter) (k n : Nat) (s : State) :
    SameButCounters (.next (refillFrom k n s)) (.next (refillFrom k n (recount ci co s))) := by
  rw [refillFrom_eq, refillFrom_eq]
  exact .next_ite (fun _ => storeBytes_same ci co _ _) fun _ =>
    .next_ite (fun _ => .next ci co _) fun _ => storeBytes_same ci co _ _

theorem refill_blind (amount : Amount) : CounterBlind (refill amount) := fun ci co s =>
  .ite (fun _ => refillFrom_same ci co 0 amount.toNat s) fun _ => .refused _

theorem consume_blind (c : Amount) : CounterBlind (consume c) := fun ci co s =>
  .ite (fun _ => (refill_blind c ci co (cull c s)).andThen fun ci co t => .next ci co (advance c t))
    fun _ => .refused _

theorem packet_blind (bytes : List Byte) (n c : Amount) : CounterBlind (packet bytes n c) :=
  fun ci co s =>
  (outWrites_increment_same ci co bytes n s).andThen (consume_blind c)

/-! ### The instructions and the encoder's step -/

theorem SameButCounters.refl (r : Result) : SameButCounters r r := by
  cases r with
  | next t => exact .next t.cntIn t.cntOut t
  | fault e => exact .fault e
  | refused e => exact .refused e

/-- START clears the accumulators before it does anything else (R222). -/
theorem start_blind (m : Mode) : CounterBlind (start m) := by
  intro ci co s
  cases m with
  | compress => exact .refl (start .compress s)
  | decompress => exact .refl (start .decompress s)

theorem execRep_blind (n : BitVec 7) : CounterBlind (execRep n) := by
  intro ci co s
  refine .ite (fun _ => .next ci co _) fun _ => ?_
  rw [slotAt_recount]
  cases slotAt s 1 with
  | byte v => exact packet_blind _ _ _ ci co s
  | empty => exact .fault _
  | endMark => exact .fault _

theorem execLit_blind (n : BitVec 7) : CounterBlind (execLit n) := by
  intro ci co s
  refine .ite (fun _ => .next ci co _) fun _ => ?_
  rw [spanBytes_recount]
  cases spanBytes s 1 n.toNat with
  | some payload => exact packet_blind _ _ _ ci co s
  | none => exact .fault _

theorem exec_blind (i : Instr) : CounterBlind (exec i) := by
  intro ci co s
  cases i with
  | endStream => exact .next ci co _
  | reserved80 => exact .next ci co _
  | rep n => exact execRep_blind n ci co s
  | lit n => exact execLit_blind n ci co s
  | compress => exact .ite (fun _ => .next ci co s) fun _ => start_blind .compress ci co s
  | decompress => exact .ite (fun _ => .next ci co s) fun _ => start_blind .decompress ci co s

theorem encIter_blind (v : Byte) : CounterBlind (encIter v) := by
  intro ci co s
  by_cases hrun : 1 < runDetect s
  · rw [encIter_rep hrun, encIter_rep (by rwa [runDetect_recount]), runDetect_recount]
    exact packet_blind _ _ _ ci co s
  · have hrun' : ¬1 < runDetect (recount ci co s) := by rwa [runDetect_recount]
    cases hs : spanBytes s 0 (litScan s) with
    | some payload =>
      rw [encIter_lit hrun hs, encIter_lit hrun' (by rwa [litScan_recount, spanBytes_recount]),
        litScan_recount]
      exact packet_blind _ _ _ ci co s
    | none =>
      simp only [encIter, hrun, runDetect_recount, litScan_recount, frameLit, spanBytes_recount, hs,
        if_false]
      exact .fault _

theorem terminate_blind : CounterBlind terminate := by
  intro ci co s
  refine SameButCounters.andThen ?_ fun ci co t => .next ci (incrementCounter 1 co) _
  rw [outWrite_eq, outWrite_eq, outWrites_eq, outWrites_eq]
  exact .next ci co _

theorem encStep_blind : CounterBlind encStep := by
  intro ci co s
  rw [encStep, encStep, slotAt_recount]
  cases slotAt s 0 with
  | endMark => exact terminate_blind ci co s
  | byte v => exact encIter_blind v ci co s
  | empty => exact .fault _

/-! ### The step -/

theorem phaseStep_blind : CounterBlind phaseStep := by
  intro ci co s
  by_cases hw : Waits s
  · rw [phaseStep_waits hw, phaseStep_waits (s := recount ci co s) hw]
    exact .next ci co s
  · have hw' : ¬Waits (recount ci co s) := hw
    cases hp : s.phase with
    | enc =>
      rw [phaseStep_enc hp hw, phaseStep_enc (s := recount ci co s) hp hw']
      exact encStep_blind ci co s
    | dec =>
      cases hs : slotAt s 0 with
      | byte c =>
        rw [phaseStep_dec hp hw hs, phaseStep_dec (s := recount ci co s) hp hw' hs]
        exact exec_blind _ ci co s
      | endMark =>
        rw [phaseStep_dec_end hp hw hs, phaseStep_dec_end (s := recount ci co s) hp hw' hs]
        exact .next ci co _
      | empty =>
        simp only [phaseStep, phaseAction, hw, hw', hp, hs, recount_phase, slotAt_recount, if_false,
          settle]
        exact .fault _
    | idle | done | error =>
      have hb : s.busy = false := by simp [State.busy, hp]
      rw [phaseStep_not_busy hb, phaseStep_not_busy (s := recount ci co s) hb]
      exact .next ci co s

/-- Whatever the host does, but for a register read. -/
theorem eventAction_blind {e : HostEvent} (he : ∀ num, e ≠ .read num) :
    CounterBlind fun s => settle (eventAction e s) := by
  intro ci co s
  cases e with
  | wait => exact phaseStep_blind ci co s
  | read num => exact absurd rfl (he num)
  | reset => exact .next Counter.zero Counter.zero (hardReset s)
  | ctrlWrite v =>
    cases hb : s.busy with
    | true =>
      simp only [eventAction, recount_busy, hb, if_true]
      exact phaseStep_blind ci co s
    | false =>
      simp only [eventAction, recount_busy, hb, Bool.false_eq_true, if_false]
      cases decodeCtrl v with
      | ok i => exact exec_blind i ci co s
      | error _ => exact phaseStep_blind ci co s
  | connect bytes answers =>
    cases hb : s.busy with
    | true =>
      simp only [eventAction, recount_busy, hb, if_true]
      exact .refused _
    | false =>
      simp only [eventAction, recount_busy, hb, Bool.false_eq_true, if_false]
      exact phaseStep_blind ci co { s with inp := bytes, out := [], answers := answers.released }

theorem step_blind {s : State} (hs : ∀ num rest, s.host ≠ .read num :: rest) (ci co : Counter) :
    SameButCounters (step s) (step (recount ci co s)) := by
  cases hh : s.host with
  | nil =>
    rw [step_quiet_nil hh, step_quiet_nil (s := recount ci co s) hh]
    exact phaseStep_blind ci co (beginStep s)
  | cons e rest =>
    rw [step_cons hh, step_cons (s := recount ci co s) hh]
    exact eventAction_blind (fun num e => hs num rest (e ▸ hh)) ci co (beginStep s)

/-- Settles O42: the two outcomes are alike but for the accumulators. -/
theorem countersAreSilent : Obligations.CountersAreSilent := by
  intro s ci co hs
  have h := step_blind hs ci co
  refine ⟨fun t ht => ?_, fun e he => ?_, fun e he => ?_⟩
  · rw [ht] at h
    generalize hr : step (recount ci co s) = r at h
    cases h with
    | next ci' co' => exact ⟨_, hr, rfl⟩
  · rw [he] at h
    generalize hr : step (recount ci co s) = r at h
    cases h with
    | fault => exact hr
  · rw [he] at h
    generalize hr : step (recount ci co s) = r at h
    cases h with
    | refused => exact hr

end Sys2Proof.Machine
end

section
/-! PROOFS. The streams as the host observes them: the order of the events in a step (R78), and that OUT and IN change by
exactly these events (R66, R67). -/

namespace Sys2Proof.Machine

/-! ### The stream events of an operation (R78) -/

/-- From `s` to `t` the block writes `written` and then does what REFILL(n) does on IN; OUT and IN change by exactly
that. -/
structure Streams (written : List Byte) (n : Nat) (s t : State) : Prop where
  events_eq : t.events = s.events ++ (written.map .wrote ++ readEvents n s.inp)
  out_eq : t.out = s.out ++ written
  inp_eq : t.inp = s.inp.drop n

@[simp] theorem readEvents_zero (inp : List Byte) : readEvents 0 inp = [] := rfl

theorem mem_readEvents {n : Nat} {inp : List Byte} {e : StreamEvent} (h : e ∈ readEvents n inp) :
    e = .ended ∨ ∃ b, e = .took b := by
  obtain h | h := List.mem_append.mp h
  · obtain ⟨b, -, rfl⟩ := List.mem_map.mp h
    exact .inr ⟨b, rfl⟩
  · split at h
    · exact .inl (List.mem_singleton.mp h)
    · cases h

theorem takenBytes_append (es fs : List StreamEvent) :
    takenBytes (es ++ fs) = takenBytes es ++ takenBytes fs := List.filterMap_append

theorem takenBytes_map_took (bs : List Byte) : takenBytes (bs.map .took) = bs := by
  simp [takenBytes]

/-- The bytes REFILL(n) reports as taken are those it removes from IN; an `EOS` takes none. -/
theorem takenBytes_readEvents (n : Nat) (inp : List Byte) :
    takenBytes (readEvents n inp) = inp.take n := by
  rw [readEvents, takenBytes_append, takenBytes_map_took]
  split <;> exact List.append_nil _

/-- An operation that leaves events, OUT and IN alone. -/
theorem Streams.silent {s t : State} (he : t.events = s.events) (ho : t.out = s.out)
    (hi : t.inp = s.inp) : Streams [] 0 s t :=
  ⟨by simp [he], by simp [ho], by simp [hi]⟩

/-- `OutWrite`s, then an operation that only reads. -/
theorem Streams.after_emit {p : List Byte} {k n : Nat} {s t : State}
    (h : Streams [] n (emit p k s) t) : Streams p n s t :=
  ⟨by simpa using h.events_eq, by simpa using h.out_eq, h.inp_eq⟩

theorem Refilled.streams {n : Nat} {s t : State} (h : Refilled n s t) : Streams [] n s t := by
  obtain ⟨-, -, -, -, -, hout, -⟩ := h.frame
  exact ⟨h.events_eq, by simp [hout], h.taken⟩

theorem Consumed.streams {c : Nat} {s t : State} (h : Consumed c s t) : Streams [] c s t := by
  obtain ⟨-, -, -, -, hout, -⟩ := h.frame
  exact ⟨h.events_eq, by simp [hout], h.taken⟩

/-- A REFILL that waits did what one of as many bytes does. -/
theorem heldReading_streams {j : Nat} {s : State} (hj : j ≤ s.inp.length) :
    Streams [] j s (heldReading j s) := by
  obtain ⟨hinp, -, -, -, -, hevents, -, -, -, -, -, -, -, -, hout, -⟩ := heldReading_spec hj
  exact ⟨hevents, by simp [hout], hinp⟩

theorem refill_streams {n : Amount} {s t : State} (h : refill n s = .next t) :
    ∃ k, Streams [] k s t := by
  obtain ⟨-, ⟨-, -, hr, -⟩ | ⟨ha, rfl⟩⟩ := refill_cases h
  · exact ⟨_, hr.streams⟩
  · exact ⟨_, heldReading_streams (room_readEvents ha).2⟩

theorem consume_streams {c : Amount} {s t : State} (h0 : 0 < c.toNat) (h : consume c s = .next t) :
    ∃ k, Streams [] k s t := by
  obtain ⟨-, -, ⟨-, -, hc, -⟩ | ⟨ha, rfl⟩⟩ := consume_cases h0 h
  · exact ⟨_, hc.streams⟩
  · obtain ⟨hevents, hout, hinp⟩ := heldReading_streams (s := cull c s) (room_readEvents ha).2
    exact ⟨_, hevents, hout, hinp⟩

/-- A packet writes first and reads afterwards; where OUT does not accept all of it, nothing is read (R78, R79). -/
theorem packet_streams {p : List Byte} {n c : Amount} {s t : State} (h0 : 0 < c.toNat)
    (h : packet p n c s = .next t) : ∃ written k, Streams written k s t := by
  obtain ⟨-, rfl⟩ | ⟨-, hc⟩ := packet_cases h
  · exact ⟨p.take (s.answers.room p.length), 0, by simp [outWrites_eq], by simp [outWrites_eq], by simp⟩
  · obtain ⟨k, hk⟩ := consume_streams h0 hc
    exact ⟨p, k, hk.after_emit⟩

theorem start_streams {m : Mode} {s t : State} (h : start m s = .next t) :
    ∃ k, Streams [] k s t := by
  obtain ⟨p, k, hk⟩ : ∃ p k, Streams [] k (startInit m p s) t := by
    cases m with
    | compress => exact ⟨.enc, refill_streams h⟩
    | decompress => exact ⟨.dec, refill_streams h⟩
  exact ⟨k, hk.events_eq, hk.out_eq, hk.inp_eq⟩

theorem terminate_streams {s t : State} (h : terminate s = .next t) :
    ∃ written, Streams written 0 s t := by
  obtain ⟨-, rfl⟩ | ⟨-, rfl⟩ := terminate_cases h
  · exact ⟨[0x00#8], by simp, rfl, rfl⟩
  · exact ⟨[], .silent rfl rfl rfl⟩

/-! ### The stream events of a step -/

/-- The sequencer writes before it reads, and writes nothing where no operation runs (R78). -/
theorem phaseStep_streams {s t : State} (h : phaseStep s = .next t) :
    ∃ written k, Streams written k s t ∧ (s.busy = false → written = []) := by
  cases hb : s.busy with
  | false =>
    obtain rfl : s = t := by simpa [phaseStep_not_busy hb] using h
    exact ⟨[], 0, .silent rfl rfl rfl, fun _ => rfl⟩
  | true =>
    suffices ∃ written k, Streams written k s t by
      obtain ⟨written, k, hk⟩ := this
      exact ⟨written, k, hk, nofun⟩
    rcases phaseStep_cases h with ⟨-, rfl⟩ | ⟨-, -, -, ht⟩ | ⟨-, v, p, n, c, -, h0, -, hc⟩ |
      ⟨-, -, -, rfl⟩ | ⟨-, b, cause, -, -, rfl⟩ | ⟨-, b, p, n, c, -, hlen, -, hc⟩
    · exact ⟨[], 0, .silent rfl rfl rfl⟩
    · obtain ⟨written, hw⟩ := terminate_streams ht
      exact ⟨written, 0, hw⟩
    · exact packet_streams h0 hc
    · exact ⟨[], 0, .silent rfl rfl rfl⟩
    · exact ⟨[], 0, .silent rfl rfl rfl⟩
    · exact packet_streams (by omega) hc

/-- ENC is left for DONE by TERMINATE alone, whose one event is its `OutWrite` (R150). -/
theorem phaseStep_enc_done {s t : State} (h : phaseStep s = .next t) (hs : s.phase = .enc)
    (ht : t.phase = .done) : t.events = s.events ++ [.wrote 0x00#8] := by
  have hne : t.phase ≠ s.phase := by simp [hs, ht]
  rcases phaseStep_cases h with ⟨-, rfl⟩ | ⟨-, -, -, hterm⟩ | ⟨-, v, p, n, c, -, h0, -, hc⟩ |
    ⟨hdec, -⟩ | ⟨hdec, -⟩ | ⟨hdec, -⟩
  · exact absurd rfl hne
  · obtain ⟨-, rfl⟩ | ⟨-, rfl⟩ := terminate_cases hterm
    · rfl
    · exact absurd rfl hne
  · exact absurd (packet_runsOn h0 hc).phase_eq hne
  all_goals simp [hs] at hdec

/-- A step by its events: they happen from a state `u` that has OUT and IN of `s`, unless the host connects others. -/
theorem step_streams {s t : State} (h : step s = .next t) :
    ∃ u written k, u.events = [] ∧ Streams written k u t ∧ (s.busy = false → written = []) ∧
      ((∀ bytes answers rest, s.host ≠ .connect bytes answers :: rest) →
        u.out = s.out ∧ u.inp = s.inp) := by
  cases step_cases h with
  | sequenced u rd tk hu hstep _ =>
    subst hu
    obtain ⟨written, k, hk, hquiet⟩ := phaseStep_streams hstep
    exact ⟨_, written, k, rfl, hk, hquiet, fun _ => ⟨rfl, rfl⟩⟩
  | connected bytes answers _ ht he =>
    subst ht
    obtain ⟨rest, hrest⟩ := List.head?_eq_some_iff.mp he
    exact ⟨_, [], 0, rfl, .silent rfl rfl rfl, fun _ => rfl, fun hno => absurd hrest (hno _ _ _)⟩
  | reset ht _ =>
    subst ht
    exact ⟨beginStep s, [], 0, rfl, .silent rfl rfl rfl, fun _ => rfl, fun _ => ⟨rfl, rfl⟩⟩
  | started m _ hstep _ =>
    obtain ⟨k, hk⟩ := start_streams hstep
    exact ⟨beginStep s, [], k, rfl, hk, fun _ => rfl, fun _ => ⟨rfl, rfl⟩⟩

/-- The step that ends COMPRESS: the host can neither connect streams nor start an operation while ENC runs. -/
theorem step_enc_done {s t : State} (h : step s = .next t) (hs : s.phase = .enc)
    (ht : t.phase = .done) : t.events = [.wrote 0x00#8] := by
  have hbusy : (beginStep s).busy = true := by simp [State.busy, hs]
  cases step_cases h with
  | sequenced u rd tk hu hstep _ =>
    subst hu
    exact phaseStep_enc_done hstep hs ht
  | connected _ _ hb _ _ => simp [hbusy] at hb
  | reset hr _ => simp [hr] at ht
  | started _ hb _ _ => simp [hbusy] at hb

/-- Settles O56: the writes and reads of `step_streams`, and TERMINATE's step apart. -/
theorem streamOrder : Obligations.StreamOrder := by
  intro s t h
  obtain ⟨u, written, k, hu, ⟨hevents, hout, hinp⟩, hquiet, hsame⟩ := step_streams h
  refine ⟨written, readEvents k u.inp, by simpa [hu] using hevents, fun _ => mem_readEvents, hquiet,
    step_enc_done h, fun hno => ?_⟩
  obtain ⟨ho, hi⟩ := hsame hno
  exact ⟨by rw [hout, ho], by rw [takenBytes_readEvents, hinp, List.take_append_drop, hi]⟩

end Sys2Proof.Machine
end

section
/-! PROOFS. R83: a register read disturbs nothing. Every operation of the step commutes with putting the delivered value
and the count of reads into the state. -/

namespace Sys2Proof.Machine

/-- What a register read leaves in the state: the value delivered, and the count of reads (log 3, log 5). -/
def noteRead (v : BitVec 16) (tk : Nat) (s : State) : State := { s with rdata := v, tick := tk }

/-- An outcome with `g` done to its next state. -/
def onNext (g : State → State) : Result → Result
  | .next t => .next (g t)
  | .fault e => .fault e
  | .refused e => .refused e

/-- An operation that neither looks at what register reads leave nor changes it. -/
def ReadBlind (f : State → Result) : Prop :=
  ∀ v tk s, f (noteRead v tk s) = onNext (noteRead v tk) (f s)

/-! ### What is read of the state -/

section
variable (v : BitVec 16) (tk : Nat) (s : State)

@[simp] theorem noteRead_phase : (noteRead v tk s).phase = s.phase := rfl
@[simp] theorem noteRead_busy : (noteRead v tk s).busy = s.busy := rfl
@[simp] theorem slotAt_noteRead (k : Nat) : slotAt (noteRead v tk s) k = slotAt s k := rfl
@[simp] theorem spanBytes_noteRead (off n : Nat) :
    spanBytes (noteRead v tk s) off n = spanBytes s off n :=
  spanBytes_congr (s := s) (t := noteRead v tk s) rfl rfl off n

theorem runFrom_noteRead (fuel run : Nat) :
    runFrom (noteRead v tk s) fuel run = runFrom s fuel run := by
  induction fuel generalizing run with
  | zero => rfl
  | succ fuel ih => simp only [runFrom, slotAt_noteRead, ih]

theorem litFrom_noteRead (fuel len : Nat) :
    litFrom (noteRead v tk s) fuel len = litFrom s fuel len := by
  induction fuel generalizing len with
  | zero => rfl
  | succ fuel ih => simp only [litFrom, slotAt_noteRead, ih]

@[simp] theorem runDetect_noteRead : runDetect (noteRead v tk s) = runDetect s :=
  runFrom_noteRead v tk s _ _

@[simp] theorem litScan_noteRead : litScan (noteRead v tk s) = litScan s :=
  litFrom_noteRead v tk s _ _

end

/-! ### How outcomes are composed -/

/-- Two operations in a row; the first may leave the block waiting. -/
theorem ReadBlind.andThen {f g : State → Result} (hf : ReadBlind f) (hg : ReadBlind g) :
    ReadBlind fun s => andThen (f s) g := by
  intro v tk s
  simp only [hf v tk s]
  cases f s with
  | next t =>
    have hw : Waits (noteRead v tk t) ↔ Waits t := .rfl
    simp only [onNext, Machine.andThen, hw]
    rw [hg v tk t]
    split <;> rfl
  | fault e => rfl
  | refused e => rfl

/-- A test that does not look at the read. -/
theorem ReadBlind.ite {p : State → Prop} [DecidablePred p] {f g : State → Result} (hf : ReadBlind f)
    (hg : ReadBlind g) (hp : ∀ v tk s, p (noteRead v tk s) ↔ p s) :
    ReadBlind fun s => if p s then f s else g s := by
  intro v tk s
  simp only [hp v tk s, hf v tk s, hg v tk s, apply_ite (onNext (noteRead v tk))]

/-- An operation that always answers a next state. -/
theorem ReadBlind.next {f : State → State}
    (hf : ∀ v tk s, f (noteRead v tk s) = noteRead v tk (f s)) : ReadBlind fun s => .next (f s) :=
  fun v tk s => congrArg Host.Outcome.next (hf v tk s)

/-! ### The operations -/

theorem outWrites_noteRead (bs : List Byte) (v : BitVec 16) (tk : Nat) (s : State) :
    outWrites bs (noteRead v tk s) = noteRead v tk (outWrites bs s) := by
  rw [outWrites_eq, outWrites_eq]
  rfl

theorem storeBytes_noteRead (bs : List Byte) (v : BitVec 16) (tk : Nat) (s : State) :
    storeBytes bs (noteRead v tk s) = noteRead v tk (storeBytes bs s) := by
  induction bs generalizing s with
  | nil => rfl
  | cons b rest ih => exact ih (storeByte b s)

theorem refillFrom_noteRead (k n : Nat) (v : BitVec 16) (tk : Nat) (s : State) :
    refillFrom k n (noteRead v tk s) = noteRead v tk (refillFrom k n s) := by
  rw [refillFrom_eq, refillFrom_eq, apply_ite (noteRead v tk), apply_ite (noteRead v tk),
    heldReading, heldReading, ← storeBytes_noteRead, ← storeBytes_noteRead]
  rfl

theorem refill_readBlind (n : Amount) : ReadBlind (refill n) :=
  .ite (.next (refillFrom_noteRead 0 n.toNat)) (fun _ _ _ => rfl) fun _ _ _ => .rfl

theorem consume_readBlind (c : Amount) : ReadBlind (consume c) :=
  .ite (.andThen (fun v tk s => refill_readBlind c v tk (cull c s)) (.next fun _ _ _ => rfl))
    (fun _ _ _ => rfl) fun _ _ _ => .rfl

theorem packet_readBlind (p : List Byte) (n c : Amount) : ReadBlind (packet p n c) :=
  .andThen (.next fun v tk s => outWrites_noteRead p v tk (increment .output n s))
    (consume_readBlind c)

theorem start_readBlind (m : Mode) : ReadBlind (start m) := by
  intro v tk s
  cases m with
  | compress => exact refill_readBlind _ v tk (startInit .compress .enc s)
  | decompress => exact refill_readBlind _ v tk (startInit .decompress .dec s)

theorem execRep_readBlind (n : BitVec 7) : ReadBlind (execRep n) := by
  refine .ite (.next fun _ _ _ => rfl) (fun v tk s => ?_) fun _ _ _ => .rfl
  rw [slotAt_noteRead]
  cases slotAt s 1 with
  | byte b => exact packet_readBlind _ _ _ v tk s
  | empty => rfl
  | endMark => rfl

theorem execLit_readBlind (n : BitVec 7) : ReadBlind (execLit n) := by
  refine .ite (.next fun _ _ _ => rfl) (fun v tk s => ?_) fun _ _ _ => .rfl
  rw [spanBytes_noteRead]
  cases spanBytes s 1 n.toNat with
  | some payload => exact packet_readBlind _ _ _ v tk s
  | none => rfl

theorem exec_readBlind (i : Instr) : ReadBlind (exec i) := by
  cases i with
  | endStream => exact .next fun _ _ _ => rfl
  | reserved80 => exact .next fun _ _ _ => rfl
  | rep n => exact execRep_readBlind n
  | lit n => exact execLit_readBlind n
  | compress => exact .ite (.next fun _ _ _ => rfl) (start_readBlind .compress) fun _ _ _ => .rfl
  | decompress => exact .ite (.next fun _ _ _ => rfl) (start_readBlind .decompress) fun _ _ _ => .rfl

theorem frameLit_readBlind (len : Nat) : ReadBlind (frameLit len) := by
  intro v tk s
  rw [frameLit, frameLit, spanBytes_noteRead]
  cases spanBytes s 0 len with
  | some payload =>
    exact congrArg Host.Outcome.next
      (outWrites_noteRead _ v tk (increment .output (BitVec.ofNat 8 (len + 1)) s))
  | none => rfl

theorem encIter_readBlind (b : Byte) : ReadBlind (encIter b) := by
  intro v tk s
  simp only [encIter, runDetect_noteRead, litScan_noteRead, apply_ite (onNext (noteRead v tk))]
  refine ite_congr rfl (fun _ => ?_) fun _ => ?_
  · exact packet_readBlind [_, b] 2#8 _ v tk s
  · exact (frameLit_readBlind (litScan s)).andThen (consume_readBlind _) v tk s

theorem terminate_readBlind : ReadBlind terminate :=
  .andThen (.next (outWrites_noteRead [0x00#8])) (.next fun _ _ _ => rfl)

theorem encStep_readBlind : ReadBlind encStep := by
  intro v tk s
  rw [encStep, encStep, slotAt_noteRead]
  cases slotAt s 0 with
  | endMark => exact terminate_readBlind v tk s
  | byte b => exact encIter_readBlind b v tk s
  | empty => rfl

/-- The sequencer's part of a step. -/
theorem phaseStep_readBlind : ReadBlind phaseStep := by
  intro v tk s
  by_cases hw : Waits s
  · rw [phaseStep_waits hw, phaseStep_waits (s := noteRead v tk s) hw]
    rfl
  have hw' : ¬Waits (noteRead v tk s) := hw
  cases hp : s.phase with
  | enc =>
    rw [phaseStep_enc hp hw, phaseStep_enc (s := noteRead v tk s) hp hw']
    exact encStep_readBlind v tk s
  | dec =>
    cases hs : slotAt s 0 with
    | byte c =>
      rw [phaseStep_dec hp hw hs, phaseStep_dec (s := noteRead v tk s) hp hw' hs]
      exact exec_readBlind _ v tk s
    | endMark =>
      rw [phaseStep_dec_end hp hw hs, phaseStep_dec_end (s := noteRead v tk s) hp hw' hs]
      rfl
    | empty =>
      simp only [phaseStep, phaseAction, hw, hw', hp, hs, noteRead_phase, slotAt_noteRead, if_false,
        settle, onNext]
  | idle | done | error =>
    have hb : s.busy = false := by simp [State.busy, hp]
    rw [phaseStep_not_busy hb, phaseStep_not_busy (s := noteRead v tk s) hb]
    rfl

/-- A step with a register read is the sequencer's, from the state with what the read leaves in it. -/
theorem step_read {s : State} {num : Nat} {v : BitVec 16} {rest : List HostEvent}
    (hs : s.host = .read num :: rest) (hv : readReg s num = some v) :
    step s = phaseStep (noteRead v (s.tick + 1) (beginStep s)) := by
  have hv' : readReg (beginStep s) num = some v := hv
  rw [step_cons hs, eventAction, hv']
  rfl

/-- Settles O41: the two steps are the sequencer's from states that differ in what the read leaves alone. -/
theorem readsAreHarmless : Obligations.ReadsAreHarmless := by
  intro s num v rest hs hv
  have hbegin : beginStep { s with host := .wait :: rest } = beginStep s := by
    simp [beginStep, hs]
  rw [step_read hs hv, step_quiet (.inr ⟨rest, rfl⟩), hbegin, phaseStep_readBlind]
  cases phaseStep (beginStep s) <;> rfl

end Sys2Proof.Machine
end

section
/-! PROOFS. The encoding (30_encoding.md): the code byte as a number, the code-byte map and its inverse (R92, R94), the
command words (R102), and packets as byte lists (R93). -/

namespace Sys2Proof

/-! ### A code byte as a number (R92) -/

@[simp] theorem codeLength_toNat (c : Byte) : (codeLength c).toNat = c.toNat % 128 :=
  BitVec.toNat_setWidth 7 c

/-- The kind flag is the byte's top bit. -/
theorem codeFlag_eq_decide (c : Byte) : codeFlag c = decide (0x80 ≤ c.toNat) :=
  BitVec.msb_eq_decide c

@[simp] theorem repCode_toNat (n : BitVec 7) : (repCode n).toNat = n.toNat := by
  rw [repCode, BitVec.zero_or, BitVec.toNat_setWidth, Nat.mod_eq_of_lt (by omega)]

/-- The flag and the length share no bit, so the two are added. -/
@[simp] theorem litCode_toNat (n : BitVec 7) : (litCode n).toNat = 0x80 + n.toNat := by
  rw [litCode, BitVec.toNat_or, BitVec.toNat_setWidth, Nat.mod_eq_of_lt (by omega)]
  exact (Nat.two_pow_add_eq_or_of_lt n.isLt 1).symm

/-! ### Well-formed packets (R90) and the code-byte map (R94) -/

theorem wellFormed_rep {n : BitVec 7} : (Instr.rep n).wellFormed = true ↔ 0 < n.toNat := by
  rw [Instr.wellFormed, bne_iff_ne]
  bv_omega

theorem wellFormed_lit {n : BitVec 7} : (Instr.lit n).wellFormed = true ↔ 0 < n.toNat :=
  wellFormed_rep

theorem decodeCode_rep {c : Byte} (h1 : 0x01 ≤ c.toNat) (h2 : c.toNat ≤ 0x7F) :
    decodeCode c = .rep (codeLength c) := by
  have hend : c ≠ 0x00#8 := by rintro rfl; simp at h1
  have hres : c ≠ 0x80#8 := by rintro rfl; simp at h2
  rw [decodeCode, if_neg hend, if_neg hres, codeFlag_eq_decide, if_neg (by simp; omega)]

theorem decodeCode_lit {c : Byte} (h : 0x81 ≤ c.toNat) : decodeCode c = .lit (codeLength c) := by
  have hend : c ≠ 0x00#8 := by rintro rfl; simp at h
  have hres : c ≠ 0x80#8 := by rintro rfl; simp at h
  rw [decodeCode, if_neg hend, if_neg hres, codeFlag_eq_decide, if_pos (by simp; omega)]

/-- Every byte is one of the four rows of R94: the two single bytes, and the two ranges. -/
theorem codeByte_cases (c : Byte) :
    c = 0x00#8 ∨ c = 0x80#8 ∨ (0x01 ≤ c.toNat ∧ c.toNat ≤ 0x7F) ∨ 0x81 ≤ c.toNat := by
  bv_omega

/-- Settles O4, row by row. -/
theorem codeByteMap : Obligations.CodeByteMap := by
  intro c
  refine ⟨fun h => ?_, fun h1 h2 => ⟨_, decodeCode_rep h1 h2, ?_⟩, fun h => ?_,
    fun h => ⟨_, decodeCode_lit h, ?_⟩⟩
  · rw [BitVec.eq_of_toNat_eq (y := 0x00#8) h]
    rfl
  · rw [codeLength_toNat]
    omega
  · rw [BitVec.eq_of_toNat_eq (y := 0x80#8) h]
    rfl
  · rw [codeLength_toNat]
    omega

/-- Settles O5: `CTRL` has four values. -/
theorem commandEncoding : Obligations.CommandEncoding := by
  unfold Obligations.CommandEncoding
  decide

/-- Settles O6: each word is evaluated. -/
theorem wordsDecode : Obligations.WordsDecode := ⟨rfl, rfl, rfl, rfl, rfl, rfl, rfl⟩

/-! ### The map and its inverse -/

theorem decodeCode_repCode {n : BitVec 7} (h : 0 < n.toNat) : decodeCode (repCode n) = .rep n := by
  rw [decodeCode_rep (by simpa) (by simp; omega), Instr.rep.injEq]
  apply BitVec.eq_of_toNat_eq
  rw [codeLength_toNat, repCode_toNat]
  omega

theorem decodeCode_litCode {n : BitVec 7} (h : 0 < n.toNat) : decodeCode (litCode n) = .lit n := by
  rw [decodeCode_lit (by simp; omega), Instr.lit.injEq]
  apply BitVec.eq_of_toNat_eq
  rw [codeLength_toNat, litCode_toNat]
  omega

theorem repCode_codeLength {c : Byte} (h : c.toNat ≤ 0x7F) : repCode (codeLength c) = c := by
  apply BitVec.eq_of_toNat_eq
  rw [repCode_toNat, codeLength_toNat]
  omega

theorem litCode_codeLength {c : Byte} (h : 0x80 ≤ c.toNat) : litCode (codeLength c) = c := by
  apply BitVec.eq_of_toNat_eq
  rw [litCode_toNat, codeLength_toNat]
  omega

/-- The code-byte map answers well-formed instructions only (R90). -/
theorem decodeCode_wellFormed (c : Byte) : (decodeCode c).wellFormed = true := by
  obtain rfl | rfl | ⟨h1, h2⟩ | h := codeByte_cases c
  · rfl
  · rfl
  · rw [decodeCode_rep h1 h2, wellFormed_rep, codeLength_toNat]
    omega
  · rw [decodeCode_lit h, wellFormed_lit, codeLength_toNat]
    omega

/-- A code byte is the word of the instruction it decodes to: no instruction has two code bytes (R99). -/
theorem encode_decodeCode (c : Byte) : encode (decodeCode c) = .code c := by
  obtain rfl | rfl | ⟨h1, h2⟩ | h := codeByte_cases c
  · rfl
  · rfl
  · rw [decodeCode_rep h1 h2, encode, repCode_codeLength h2]
  · rw [decodeCode_lit h, encode, litCode_codeLength (by omega)]

/-- Settles O3, by cases on the instruction. -/
theorem decodeEncode : Obligations.DecodeEncode := by
  intro i hi
  cases i with
  | endStream | reserved80 | compress | decompress => rfl
  | rep count => exact congrArg Except.ok (decodeCode_repCode (wellFormed_rep.mp hi))
  | lit length => exact congrArg Except.ok (decodeCode_litCode (wellFormed_lit.mp hi))

/-- The code byte of a well-formed instruction decodes to it. -/
theorem decodeCode_of_encode {i : Instr} {c : Byte} (hi : i.wellFormed = true)
    (h : encode i = .code c) : decodeCode c = i := by
  have hd := decodeEncode i hi
  rw [h] at hd
  exact Except.ok.inj hd

/-! ### Packets (R93) -/

theorem encodePacket_eq_some {i : Instr} {payload bytes : List Byte} :
    encodePacket i payload = some bytes ↔ ∃ c, encode i = .code c ∧ bytes = c :: payload := by
  rw [encodePacket]
  cases encode i <;> simp [eq_comm]

/-- What reads as a packet is a code byte, the payload it declares, and the rest; and all of that reads as a packet. -/
theorem decodePacket_eq_ok {bytes payload rest : List Byte} {i : Instr} :
    decodePacket bytes = .ok (i, payload, rest) ↔
      ∃ c, bytes = c :: (payload ++ rest) ∧ decodeCode c = i ∧ payload.length = i.payloadLen := by
  constructor
  · intro h
    cases bytes with
    | nil => cases h
    | cons c tail =>
      rw [decodePacket] at h
      split at h
      · cases h
      · rename_i hlen
        cases h
        exact ⟨c, by rw [List.take_append_drop], rfl, List.length_take_of_le (Nat.le_of_not_lt hlen)⟩
  · rintro ⟨c, rfl, rfl, hlen⟩
    simp [decodePacket, ← hlen]

/-- Settles O1: the packet's code byte decodes to the instruction, which declares the payload's length. -/
theorem packetDecodeEncode : Obligations.PacketDecodeEncode := by
  intro i payload rest bytes hi hbytes hlen
  obtain ⟨c, hc, rfl⟩ := encodePacket_eq_some.mp hbytes
  exact decodePacket_eq_ok.mpr ⟨c, rfl, decodeCode_of_encode hi hc, hlen⟩

/-- Settles O2: the code byte read is the word of the instruction answered. -/
theorem packetEncodeDecode : Obligations.PacketEncodeDecode := by
  intro bytes i payload rest h
  obtain ⟨c, rfl, rfl, hlen⟩ := decodePacket_eq_ok.mp h
  exact ⟨decodeCode_wellFormed c, hlen, c :: payload,
    encodePacket_eq_some.mpr ⟨c, encode_decodeCode c, rfl⟩, rfl⟩

end Sys2Proof
end

section
/-! PROOFS. The form of the encoder's output (R100, R155): `enc` packet by packet, and that each packet and the terminator
have the form. -/

namespace Sys2Proof.Machine

/-! ### `enc` packet by packet (R153) -/

/-- The 7-bit field that holds a length of at most 127. -/
theorem exists_field {k : Nat} (h : k ≤ 127) : ∃ n : BitVec 7, n.toNat = k :=
  ⟨BitVec.ofNat 7 k, Nat.mod_eq_of_lt (by omega)⟩

theorem ofNat_toNat_eq_repCode (n : BitVec 7) : BitVec.ofNat 8 n.toNat = repCode n := by
  rw [repCode, BitVec.zero_or, BitVec.ofNat_toNat]

theorem or_ofNat_toNat_eq_litCode (n : BitVec 7) : 0x80#8 ||| BitVec.ofNat 8 n.toNat = litCode n := by
  rw [litCode, BitVec.ofNat_toNat]

/-- What a literal scan finds has no two adjacent bytes equal. -/
theorem headLit_take_headLit (w : List Byte) :
    headLit (w.take (headLit w)) = (w.take (headLit w)).length := by
  by_contra hne
  obtain ⟨hk, heq⟩ := headLit_stops (w.take (headLit w)) ((headLit_le _).lt_of_ne hne)
  rw [List.length_take] at hk
  rw [List.getElem?_take_of_lt (by omega), List.getElem?_take_of_lt (by omega)] at heq
  exact headLit_differs w (by omega) (by omega) heq

/-- The packet `enc` begins with: a repeat of the run at the head of the window, or, where there is none, the literal up
to the next two equal bytes; then `enc` of the bytes the packet does not stand for. -/
theorem encFrom_cons (fuel : Nat) (b : Byte) (rest : List Byte) :
    (∃ n : BitVec 7, 2 ≤ n.toNat ∧ n.toNat = headRun ((b :: rest).take 127) ∧
      encFrom (fuel + 1) (b :: rest) =
        repCode n :: ([b] ++ encFrom fuel ((b :: rest).drop n.toNat))) ∨
    ∃ (n : BitVec 7) (payload : List Byte), 1 ≤ n.toNat ∧ payload.length = n.toNat ∧
      headLit payload = payload.length ∧ payload = (b :: rest).take n.toNat ∧
      encFrom (fuel + 1) (b :: rest) =
        litCode n :: (payload ++ encFrom fuel ((b :: rest).drop n.toNat)) := by
  have hwindow : ((b :: rest).take 127).length ≤ 127 := List.length_take_le _ _
  rw [encFrom]
  split
  · rename_i hrun
    obtain ⟨n, hn⟩ := exists_field ((headRun_bounds b (rest.take 126)).2.trans hwindow)
    rw [show headRun ((b :: rest).take 127) = n.toNat from hn.symm] at hrun ⊢
    exact .inl ⟨n, hrun, rfl, by rw [ofNat_toNat_eq_repCode]; rfl⟩
  · rename_i hrun
    have hpos : 1 ≤ headLit ((b :: rest).take 127) :=
      headLit_pos b (rest.take 126) (Nat.lt_of_not_le hrun)
    have hlit := headLit_take_headLit ((b :: rest).take 127)
    have hlen := List.length_take_of_le (headLit_le ((b :: rest).take 127))
    obtain ⟨n, hn⟩ := exists_field ((headLit_le ((b :: rest).take 127)).trans hwindow)
    rw [← hn] at hpos hlit hlen ⊢
    refine .inr ⟨n, ((b :: rest).take 127).take n.toNat, hpos, hlen, hlit, ?_, ?_⟩
    · rw [List.take_take, Nat.min_eq_left (by omega)]
    · rw [or_ofNat_toNat_eq_litCode]

/-! ### The form, packet by packet (R100) -/

theorem decodePacket_repCode {n : BitVec 7} (h : 0 < n.toNat) (b : Byte) (rest : List Byte) :
    decodePacket (repCode n :: ([b] ++ rest)) = .ok (.rep n, [b], rest) :=
  decodePacket_eq_ok.mpr ⟨_, rfl, decodeCode_repCode h, rfl⟩

theorem decodePacket_litCode {n : BitVec 7} (h : 0 < n.toNat) {payload : List Byte}
    (hlen : payload.length = n.toNat) (rest : List Byte) :
    decodePacket (litCode n :: (payload ++ rest)) = .ok (.lit n, payload, rest) :=
  decodePacket_eq_ok.mpr ⟨_, rfl, decodeCode_litCode h, hlen⟩

theorem encoderFormFrom_terminator (fuel : Nat) : encoderFormFrom fuel [0x00#8] = true := by
  cases fuel <;> rfl

theorem encoderFormFrom_rep (fuel : Nat) {n : BitVec 7} (h : 2 ≤ n.toNat) (b : Byte)
    (rest : List Byte) :
    encoderFormFrom (fuel + 1) (repCode n :: ([b] ++ rest)) = encoderFormFrom fuel rest := by
  rw [encoderFormFrom, decodePacket_repCode (by omega)]
  simp [h]

theorem encoderFormFrom_lit (fuel : Nat) {n : BitVec 7} (h : 1 ≤ n.toNat) {payload : List Byte}
    (hlen : payload.length = n.toNat) (hlit : headLit payload = payload.length) (rest : List Byte) :
    encoderFormFrom (fuel + 1) (litCode n :: (payload ++ rest)) = encoderFormFrom fuel rest := by
  rw [encoderFormFrom, decodePacket_litCode h hlen]
  simp [hlit]

/-- Every packet has at least one byte, so the length of the output bounds the packets it is read as. -/
theorem encoderFormFrom_encFrom (n fuel : Nat) (input : List Byte)
    (h : (encFrom n input).length ≤ fuel) : encoderFormFrom fuel (encFrom n input) = true := by
  induction n generalizing input fuel with
  | zero => exact encoderFormFrom_terminator fuel
  | succ n ih =>
    cases input with
    | nil => exact encoderFormFrom_terminator fuel
    | cons b rest =>
      cases fuel with
      | zero =>
        obtain ⟨_, -, -, heq⟩ | ⟨_, _, -, -, -, -, heq⟩ := encFrom_cons n b rest <;> simp [heq] at h
      | succ fuel =>
        obtain ⟨count, hcount, -, heq⟩ | ⟨length, payload, hpos, hlen, hlit, -, heq⟩ :=
          encFrom_cons n b rest
        · rw [heq, List.length_cons, List.length_append] at h
          rw [heq, encoderFormFrom_rep fuel hcount]
          exact ih fuel _ (by omega)
        · rw [heq, List.length_cons, List.length_append] at h
          rw [heq, encoderFormFrom_lit fuel hpos hlen hlit]
          exact ih fuel _ (by omega)

/-- Settles O54, by induction on the packets of the output. -/
theorem encoderOutputForm : Obligations.EncoderOutputForm := fun input =>
  encoderFormFrom_encFrom input.length _ input le_rfl

end Sys2Proof.Machine
end

section
/-! PROOFS. The lookahead buffer (40_lookahead_buffer.md): the outcomes of REFILL and the slots INVALIDATE leaves. -/

namespace Sys2Proof.Machine

/-! ### REFILL -/

/-- A buffer that holds a byte holds no marker: R30 allows one at the scan position only, and R28 has a byte there. -/
theorem BufferInv.slotAt_ne_endMark {s : State} (h : BufferInv s) (hr : 1 ≤ s.remaining.toNat) {k : Nat}
    (hk : k < 128) : slotAt s k ≠ .endMark := by
  by_cases hin : k < s.remaining.toNat
  · obtain ⟨b, hb⟩ := h.span k hin
    simp [hb]
  · obtain hempty | ⟨rfl, -⟩ := h.outside k (by omega) hk
    · simp [hempty]
    · omega

/-- R124 of what REFILL makes of the state: the cases are whether IN has all the bytes asked for, and if not whether there
is any byte, in the buffer or on IN. -/
theorem Refilled.outcome {n : Nat} {s t : State} (h : Refilled n s t) (h0 : 0 < n) (ht : BufferInv t) :
    (n ≤ s.inp.length ∧ t.inp = s.inp.drop n ∧ t.remaining.toNat = s.remaining.toNat + n ∧
        ∀ k, k < 128 → slotAt t k ≠ .endMark) ∨
      (s.inp.length < n ∧ t.inp = [] ∧ 1 ≤ t.remaining.toNat ∧
        ∀ k, k < 128 → slotAt t k ≠ .endMark) ∨
      (s.inp = [] ∧ t.inp = [] ∧ t.remaining = 0#8 ∧ t.index = s.index ∧
        SlotMemory.read t.buf t.index = .endMark) := by
  have hrem := h.remaining_eq
  by_cases hall : n ≤ s.inp.length
  · rw [Nat.min_eq_left hall] at hrem
    exact .inl ⟨hall, h.taken, hrem, fun _ hk => ht.slotAt_ne_endMark (by omega) hk⟩
  · have hinp : t.inp = [] := by rw [h.taken, List.drop_eq_nil_iff]; omega
    right
    by_cases hany : 1 ≤ t.remaining.toNat
    · exact .inl ⟨by omega, hinp, hany, fun _ hk => ht.slotAt_ne_endMark hany hk⟩
    · have hempty : s.inp = [] := List.length_eq_zero_iff.mp (by omega)
      have hsrem : s.remaining = 0#8 := BitVec.eq_of_toNat_eq (by simp; omega)
      have htrem : t.remaining = 0#8 := BitVec.eq_of_toNat_eq (by simp; omega)
      have hindex : t.index = s.index := by simp [h.index_eq, hempty]
      exact .inr ⟨hempty, hinp, htrem, hindex, hindex ▸ h.marked h0 hempty hsrem⟩

/-- Settles O19: streams that answer let REFILL complete (`Refilled`), which keeps the invariant and has R124's outcomes. -/
theorem refillOutcome : Obligations.RefillOutcome := by
  intro n s h0 hfair hs hn
  obtain ⟨t, hnext, ht, -⟩ := refill_refilled hn (by simp [show s.answers = .always from hfair])
  have hinv := ht.bufferInv hs hn
  exact ⟨t, hnext, hinv, ht.outcome h0 hinv⟩

/-- Settles O20: the call is within its precondition, and its loop has no attempt to make. -/
theorem refillZero : Obligations.RefillZero := fun _ h => if_pos h

/-! ### INVALIDATE -/

/-- INVALIDATE of all 128 slots empties the buffer wherever it starts: every slot is one of the 128 from the start on. -/
theorem invalidate_all {m : SlotMemory} (h : SlotMemory.wf m) (start : SlotIdx) :
    invalidate m start 128#8 = [] := by
  refine canonicalUnique _ _ (invalidate_wf h start _) SlotMemory.wf_nil fun a => ?_
  obtain ⟨k, hk, rfl⟩ := exists_slotIdx start a
  rw [invalidate_read, if_pos ⟨k, hk, rfl⟩, SlotMemory.read_nil]

theorem invalidate_none (m : SlotMemory) (start : SlotIdx) : invalidate m start 0#8 = m := rfl

/-- Settles O21: what INVALIDATE leaves in a slot, and its two ends. -/
theorem invalidateEnds : Obligations.InvalidateEnds := fun m start h =>
  ⟨fun amount a => ⟨invalidate_wf h start amount, invalidate_read m start a amount⟩,
    invalidate_all h start, invalidate_none m start⟩

end Sys2Proof.Machine
end

section
/-! PROOFS. The encoder (41_encoder.md): the two scans, one iteration, TERMINATE, and COMPRESS as a whole: START's step,
an iteration for each packet of `enc`, and TERMINATE. -/

namespace Sys2Proof.Machine

/-! ### The scans (R142, R144) -/

/-- What RUNDETECT's loop passes from the second slot on; the first slot equals itself. -/
theorem runDetect_spec (s : State) :
    1 ≤ runDetect s ∧ runDetect s ≤ 127 ∧
      (∀ k, k < runDetect s → slotAt s k = slotAt s 0) ∧
      (runDetect s < 127 → slotAt s (runDetect s) ≠ slotAt s 0) := by
  obtain ⟨hpos, hmax, hsame, hstop⟩ := runFrom_spec s (Config.maxRun - 1) 1
  refine ⟨hpos, hmax, fun k hk => ?_, hstop⟩
  cases k with
  | zero => rfl
  | succ k => exact hsame (k + 1) (by omega) hk

/-- On a window that is not empty LITSCAN stops inside it: it is the literal scan of the window. -/
theorem litScan_le_remaining {s : State} (hs : BufferInv s) (hp : s.phase = .enc)
    (hr : 1 ≤ s.remaining.toNat) : litScan s ≤ s.remaining.toNat := by
  obtain ⟨w, hw, hlen⟩ := hs.window_some
  have hne : w ≠ [] := List.length_pos_iff.mp (by omega)
  rw [litScan_eq hs hp hw hne, ← hlen]
  exact headLit_le w

/-- What LITSCAN's loop passes; two different slots at the scan position let it pass the first. -/
theorem litScan_spec {s : State} (hne : slotAt s 0 ≠ slotAt s 1) :
    1 ≤ litScan s ∧ litScan s ≤ 127 ∧
      (∀ k, k < litScan s → slotAt s k ≠ slotAt s (k + 1)) ∧
      (litScan s < 127 → slotAt s (litScan s) = slotAt s (litScan s + 1)) := by
  obtain ⟨-, hmax, hdiffer, hstop⟩ := litFrom_spec s Config.maxRun 0
  rw [show litFrom s Config.maxRun 0 = litScan s from rfl, Nat.zero_add,
    show Config.maxRun = 127 from rfl] at *
  refine ⟨?_, hmax, fun k => hdiffer k k.zero_le, hstop⟩
  by_contra hzero
  have h0 : litScan s = 0 := by omega
  rw [h0] at hstop
  exact hne (hstop (by decide))

/-! ### The encoder's step (R148, R150) -/

theorem not_waits_of_fair {s : State} (h : Fair s) : ¬Waits s := by
  rw [Waits, show s.answers = .always from h]
  exact nofun

theorem encStep_byte {s : State} {v : Byte} (h : slotAt s 0 = .byte v) :
    encStep s = encIter v s := by
  rw [encStep, h]

theorem encStep_end {s : State} (h : slotAt s 0 = .endMark) : encStep s = terminate s := by
  rw [encStep, h]

/-- A quiet step in ENC is the encoder's. -/
theorem step_enc {s : State} (hp : s.phase = .enc) (hquiet : HostQuiet s) (hw : ¬Waits s) :
    step s = encStep (beginStep s) := by
  rw [step_quiet hquiet, phaseStep_enc (s := beginStep s) hp hw]

/-- The code byte of a repeat packet as R153 writes it. -/
theorem repCode_ofNat {k : Nat} (h : k ≤ 127) : repCode (BitVec.ofNat 7 k) = BitVec.ofNat 8 k := by
  obtain ⟨n, rfl⟩ := exists_field h
  rw [ofNat_toNat_eq_repCode, BitVec.ofNat_toNat, BitVec.setWidth_eq]

/-- The code byte of a literal packet as R153 writes it. -/
theorem litCode_ofNat {k : Nat} (h : k ≤ 127) :
    litCode (BitVec.ofNat 7 k) = 0x80#8 ||| BitVec.ofNat 8 k := by
  obtain ⟨n, rfl⟩ := exists_field h
  rw [or_ofNat_toNat_eq_litCode, BitVec.ofNat_toNat, BitVec.setWidth_eq]

/-- Settles O30: the step is the iteration on the window (`encIter_window`), with the code bytes written as R153 has
them. -/
theorem encoderIteration : Obligations.EncoderIteration := by
  intro s b rest hs hp hquiet hfair hw
  have hnot := not_waits_of_fair hfair
  have hbuf : BufferInv (beginStep s) := (hs.buffer hnot).congr rfl rfl rfl rfl le_rfl
  have hwin : window (beginStep s) = some (b :: rest) :=
    (window_congr (s := s) (t := beginStep s) rfl rfl rfl).trans hw
  have hcap : (b :: rest).length ≤ 127 := by
    have := hbuf.cap
    rwa [← window_length hwin, beginStep_phase, hp] at this
  obtain ⟨t, ht, hrep, hlit⟩ := encIter_window hbuf hp hfair hwin
  rw [repCode_ofNat ((headRun_bounds b rest).2.trans hcap)] at hrep
  rw [litCode_ofNat ((headLit_le _).trans hcap)] at hlit
  refine ⟨t, ?_, hrep, hlit⟩
  rw [step_enc hp hquiet hnot, encStep_byte (window_slot hwin (k := 0) rfl), ht]

/-- TERMINATE where OUT accepts the byte. -/
theorem terminate_accepted {s : State} (h : s.answers.after 1 ≠ .never) :
    terminate s = .next { emit [0x00#8] 1 s with phase := .done } := by
  simp only [terminate, outWrite, if_neg h, andThen, Waits]
  rfl

/-- TERMINATE where OUT never accepts the byte. -/
theorem terminate_held {s : State} (h : s.answers.after 1 = .never) :
    terminate s = .next { s with answers := .never } := by
  simp only [terminate, outWrite, if_pos h, andThen, Waits, if_true]

/-- The marker at the scan position means that the buffer holds nothing else (R28, R29, R30). -/
theorem BufferInv.of_endMark {s : State} (h : BufferInv s) (hm : slotAt s 0 = .endMark) :
    s.remaining = 0#8 ∧ s.index = s.pos ∧ ∀ k, 0 < k → k < 128 → slotAt s k = .empty := by
  have hzero : s.remaining.toNat = 0 := by
    by_contra hne
    exact h.slotAt_ne_endMark (by omega) (by decide) hm
  refine ⟨BitVec.eq_of_toNat_eq hzero, ?_, fun k h0 h1 => slotAt_beyond h h0 (by omega) h1⟩
  rw [h.index_eq, hzero, slotIdx_zero]

/-- Settles O31: the step is TERMINATE, accepted or held, on a buffer that holds the marker alone. -/
theorem encoderTerminates : Obligations.EncoderTerminates := by
  intro s hp hquiet hm
  have hstep : ¬Waits s → step s = terminate (beginStep s) := fun hnot => by
    rw [step_enc hp hquiet hnot, encStep_end (s := beginStep s) hm]
  refine ⟨fun hfair => ?_, fun hheld => ?_, fun hs => hs.of_endMark hm⟩
  · have hfair : s.answers = .always := hfair
    rw [hstep (not_waits_of_fair hfair), terminate_accepted (by simp [hfair])]
  · rw [hstep (by simp [Waits, hheld]), terminate_held (by simp [hheld, Answers.after])]

/-! ### The packet of a window -/

/-- How many symbols the packet of a window stands for (R143, R153). -/
def headSize (w : List Byte) : Nat := if 2 ≤ headRun w then headRun w else headLit w

/-- The bytes of the packet of a window (R145, R146, R153). -/
def headPacket : List Byte → List Byte
  | [] => []
  | b :: rest =>
    if 2 ≤ headRun (b :: rest) then [BitVec.ofNat 8 (headRun (b :: rest)), b]
    else
      (0x80#8 ||| BitVec.ofNat 8 (headLit (b :: rest))) ::
        (b :: rest).take (headLit (b :: rest))

/-- R152: a packet stands for at least one symbol, and for symbols of the window only. -/
theorem headSize_bounds (b : Byte) (rest : List Byte) :
    1 ≤ headSize (b :: rest) ∧ headSize (b :: rest) ≤ (b :: rest).length := by
  rw [headSize]
  split
  · exact headRun_bounds b rest
  · exact ⟨headLit_pos b rest (by omega), headLit_le _⟩

/-- `enc` is the packet of the first 127 bytes, and then `enc` of the bytes it does not stand for (R153). -/
theorem encFrom_succ (fuel : Nat) (b : Byte) (rest : List Byte) :
    encFrom (fuel + 1) (b :: rest) =
      headPacket ((b :: rest).take 127) ++
        encFrom fuel ((b :: rest).drop (headSize ((b :: rest).take 127))) := by
  rw [encFrom, headSize, List.take_succ_cons, headPacket]
  split <;> rfl

theorem encFrom_nil (fuel : Nat) : encFrom fuel [] = [0x00#8] := by
  cases fuel <;> rfl

/-- A packet has a code byte and a payload. -/
theorem two_le_length_headPacket (b : Byte) (rest : List Byte) :
    2 ≤ (headPacket (b :: rest)).length := by
  rw [headPacket]
  split
  · exact le_rfl
  · rw [List.length_cons, List.length_take_of_le (headLit_le _)]
    exact Nat.succ_le_succ (headLit_pos b rest (by omega))

/-- Settles O55: an input that is not empty gives a packet, which is two bytes at least. -/
theorem terminatorAlone : Obligations.TerminatorAlone := by
  intro input
  cases input with
  | nil => exact iff_of_true rfl rfl
  | cons b rest =>
    refine iff_of_false (fun h => ?_) (List.cons_ne_nil b rest)
    have hlen := congrArg List.length h
    have htwo := two_le_length_headPacket b (rest.take 126)
    rw [enc, List.length_cons, encFrom_succ, List.length_append, List.take_succ_cons,
      List.length_singleton] at hlen
    omega

/-- An iteration, whichever packet ARBITRATE picks: the packet of the window is emitted, all its bytes are counted, and
the symbols it stands for are consumed. -/
theorem step_headPacket {s : State} {b : Byte} {rest : List Byte} (hs : BlockInv s)
    (hp : s.phase = .enc) (hquiet : HostQuiet s) (hfair : Fair s)
    (hw : window s = some (b :: rest)) :
    ∃ t, step s = .next t ∧
      Consumed (headSize (b :: rest))
        (emit (headPacket (b :: rest)) (headPacket (b :: rest)).length (beginStep s)) t := by
  obtain ⟨t, ht, hrep, hlit⟩ := encoderIteration s b rest hs hp hquiet hfair hw
  refine ⟨t, ht, ?_⟩
  rw [headSize, headPacket]
  split
  · rename_i hrun
    exact hrep hrun
  · rename_i hrun
    rw [List.length_cons, List.length_take_of_le (headLit_le _)]
    exact hlit (by omega)

/-! ### Counters and runs -/

/-- An accumulator counts modulo 10^27 (R203). -/
theorem counterAfter_val (k : Nat) : (counterAfter k).val = k % 10 ^ 27 := by
  induction k with
  | zero => rfl
  | succ k ih =>
    have hwalk : counterAfter (k + 1) = unitWalk (counterAfter k) :=
      (incrementCounter_add k 1 Counter.zero).symm
    rw [hwalk, Counter.val, unitWalk_toList, groupsVal_walkGroups _ (counterAfter_inRange k),
      counter_toList_length, ← Counter.val, ih]
    exact Nat.mod_add_mod k (10 ^ 27) 1

theorem core_run_snoc (M : Host.Core) {k : Nat} {s t u : M.State} (h : M.run k s = .next t)
    (ht : M.step t = .next u) : M.run (k + 1) s = .next u := by
  induction k generalizing s with
  | zero =>
    cases h
    exact core_run_next M 0 ht
  | succ k ih =>
    rw [Host.Core.run] at h ⊢
    cases hs : M.step s with
    | next s' =>
      rw [hs] at h
      exact ih h
    | fault e => simp [hs] at h
    | refused e => simp [hs] at h

/-- A run of `k + 1` steps is a run of `k` and a step. -/
theorem run_snoc {k : Nat} {s t u : State} (h : core.run k s = .next t) (ht : step t = .next u) :
    core.run (k + 1) s = .next u := core_run_snoc core h ht

/-! ### START (R222) -/

/-- A block that is not BUSY runs the command that the host writes (R221, R226). -/
theorem step_command {s : State} {v : BitVec 2} {rest : List HostEvent} {i : Instr}
    (hb : s.busy = false) (hh : s.host = .ctrlWrite v :: rest) (hi : decodeCtrl v = .ok i) :
    step s = exec i (beginStep s) := by
  have hb' : (beginStep s).busy = false := hb
  simp only [step_cons hh, eventAction, hb', hi, Bool.false_eq_true, if_false, settle]

theorem exec_compress {s : State} (hb : s.busy = false) :
    exec .compress s = start .compress s := by
  rw [exec, execCompress, hb]
  rfl

/-- START's REFILL fills the window with the first bytes of IN. -/
theorem Refilled.start_window {n : Nat} {m : Mode} {p : Phase} {s t : State}
    (h : Refilled n (startInit m p s) t) : window t = some (s.inp.take n) := by
  obtain ⟨hpos, -⟩ := h.frame
  refine (spanBytes_eq_some _ _ _ _).mpr ⟨?_, fun k b hb => ?_⟩
  · rw [h.remaining_eq, List.length_take]
    simp
  · rw [List.getElem?_take] at hb
    split at hb
    · rename_i hk
      rw [Nat.zero_add, slotAt, hpos]
      exact h.stored k b hk hb
    · cases hb

/-! ### COMPRESS as a whole (R152, R153, R154) -/

/-- A COMPRESS of `input`, begun with `out` on OUT, that has `rest` still to encode, in at most `fuel` packets: `rest` is
the window and what IN still holds, and OUT, the counters and the scan position stand where `rest` is all that lacks. -/
structure CompressRunning (out input : List Byte) (fuel : Nat) (rest : List Byte) (s : State) :
    Prop where
  inv : BlockInv s
  phase_eq : s.phase = .enc
  host_eq : s.host = []
  fair : Fair s
  ahead : ∃ w, window s = some w ∧ w ++ s.inp = rest
  fuel_le : rest.length ≤ fuel
  written : s.out ++ encFrom fuel rest = out ++ enc input
  countedIn : s.unitsIn + s.inp.length = input.length
  countedOut : s.unitsOut + (encFrom fuel rest).length = (enc input).length
  moved : slotIdx s.pos rest.length = BitVec.ofNat 7 input.length

/-- The window of a running COMPRESS is what R153 looks at: the first 127 bytes still to encode. -/
theorem window_eq_take {s : State} {w : List Byte} (hs : BufferInv s) (hr : RunInv s)
    (hp : s.phase = .enc) (hw : window s = some w) : w = (w ++ s.inp).take 127 := by
  have hlen := window_length hw
  have hcap := hs.cap
  have htop := hr.topped (by simp [State.busy, hp])
  rw [hp, ← hlen, show fillLimit .enc = 127 from rfl] at hcap htop
  obtain hlt | heq := Nat.lt_or_eq_of_le hcap
  · rw [htop hlt, List.append_nil, List.take_of_length_le hcap]
  · rw [List.take_left' heq]

/-- What a running COMPRESS still has to encode begins with its window. -/
theorem CompressRunning.window_eq {out input rest : List Byte} {fuel : Nat} {s : State}
    (h : CompressRunning out input fuel rest s) :
    window s = some (rest.take 127) ∧ rest.take 127 ++ s.inp = rest := by
  obtain ⟨w, hw, rfl⟩ := h.ahead
  have hnot := not_waits_of_fair h.fair
  have htake := window_eq_take (h.inv.buffer hnot) (h.inv.run hnot) h.phase_eq hw
  rw [← htake]
  exact ⟨hw, rfl⟩

/-- START's step begins the run with all of IN still to encode (R51, R222). -/
theorem step_start_compress {s : State} (hb : s.busy = false) (hfair : Fair s)
    (hh : s.host = [.ctrlWrite 0b01#2]) :
    ∃ t, step s = .next t ∧ CompressRunning s.out s.inp s.inp.length s.inp t := by
  obtain ⟨t, ht, -, hr⟩ := start_next .compress (beginStep s) hfair
  have hr : Refilled 127 (startInit .compress .enc (beginStep s)) t := hr
  obtain ⟨hpos, -, hphase, -, -, hout, hhost, -, -, hunits⟩ := hr.frame
  have hcommand : step s = exec .compress (beginStep s) := step_command hb hh rfl
  refine ⟨t, by rw [hcommand, exec_compress (s := beginStep s) hb, ht], ?_⟩
  have hwin := hr.start_window
  have hinp := hr.taken
  exact {
    inv := start_blockInv ht
    phase_eq := hphase
    host_eq := by simp [hhost, hh]
    fair := by rw [Fair, hr.answers_eq]; simp [show s.answers = .always from hfair]
    ahead := ⟨_, hwin, by rw [hinp]; exact List.take_append_drop 127 s.inp⟩
    fuel_le := le_rfl
    written := by rw [hout]; rfl
    countedIn := by simp [hr.units_eq, hinp]; omega
    countedOut := by rw [hunits]; exact Nat.zero_add _
    moved := by simp [hpos, slotIdx] }

/-- An iteration encodes one packet of what is still to encode. -/
theorem CompressRunning.step_packet {out input rest : List Byte} {fuel : Nat} {b : Byte} {s : State}
    (h : CompressRunning out input (fuel + 1) (b :: rest) s) :
    ∃ c t, 1 ≤ c ∧ c ≤ (b :: rest).length ∧ step s = .next t ∧
      CompressRunning out input fuel ((b :: rest).drop c) t := by
  obtain ⟨hw, hrest⟩ := h.window_eq
  have henc := encFrom_succ fuel b rest
  rw [List.take_succ_cons] at hw hrest henc
  obtain ⟨t, ht, hcon⟩ := step_headPacket h.inv h.phase_eq (.inl h.host_eq) h.fair hw
  obtain ⟨hpos, hle⟩ := headSize_bounds b (rest.take 126)
  have hlen := congrArg List.length hrest
  rw [List.length_append] at hlen
  generalize headSize (b :: rest.take 126) = c at *
  generalize headPacket (b :: rest.take 126) = p at *
  obtain ⟨-, hphase, -, -, hout, hhost, -, -, hunits⟩ := hcon.frame
  have hc : c ≤ s.remaining.toNat := window_length hw ▸ hle
  have hinp : t.inp = s.inp.drop c := hcon.taken
  have hbuf : BufferInv (emit p p.length (beginStep s)) :=
    (h.inv.buffer (not_waits_of_fair h.fair)).congr rfl rfl rfl rfl le_rfl
  have hwin : window (emit p p.length (beginStep s)) = some (b :: rest.take 126) :=
    (window_congr (s := s) (t := emit p p.length (beginStep s)) rfl rfl rfl).trans hw
  obtain ⟨w', hw', hstream⟩ := hcon.window_stream hbuf hc hwin
  refine ⟨c, t, hpos, by omega, ht, ?_⟩
  exact {
    inv := invStep s t h.inv ht
    phase_eq := hphase.trans h.phase_eq
    host_eq := by simp [hhost, h.host_eq]
    fair := by rw [Fair, hcon.answers_eq]; simp [show s.answers = .always from h.fair]
    ahead := ⟨w', hw', by rw [hstream, ← hrest]; rfl⟩
    fuel_le := by have := h.fuel_le; rw [List.length_drop]; omega
    written := by rw [hout, ← h.written, henc]; simp
    countedIn := by
      have hin : t.unitsIn = s.unitsIn + min c s.inp.length := hcon.units_eq
      have := h.countedIn
      rw [hin, hinp, List.length_drop]
      omega
    countedOut := by
      have := h.countedOut
      rw [henc, List.length_append] at this
      rw [hunits, emit_unitsOut, beginStep_unitsOut]
      omega
    moved := by
      rw [hcon.pos_eq, emit_pos, beginStep_pos, slotIdx_slotIdx, List.length_drop,
        Nat.add_sub_cancel' (by omega), h.moved] }

/-- R152: the window is empty after at most one iteration per byte still to encode. -/
theorem CompressRunning.run_to_end {out input rest : List Byte} {fuel : Nat} {s : State}
    (h : CompressRunning out input fuel rest s) :
    ∃ k u fuel', k ≤ rest.length ∧ core.run k s = .next u ∧
      CompressRunning out input fuel' [] u := by
  induction fuel generalizing rest s with
  | zero =>
    obtain rfl := List.length_eq_zero_iff.mp (Nat.le_zero.mp h.fuel_le)
    exact ⟨0, s, 0, le_rfl, rfl, h⟩
  | succ fuel ih =>
    cases rest with
    | nil => exact ⟨0, s, fuel + 1, le_rfl, rfl, h⟩
    | cons b rest =>
      obtain ⟨c, t, hpos, hle, ht, hnext⟩ := h.step_packet
      obtain ⟨k, u, fuel', hk, hu, hend⟩ := ih hnext
      rw [List.length_drop] at hk
      exact ⟨k + 1, u, fuel', by omega, (run_next k ht).trans hu, hend⟩

/-- Where nothing is left to encode the step is TERMINATE, which leaves the end state of R154. -/
theorem CompressRunning.step_terminate {out input : List Byte} {fuel : Nat} {s : State}
    (h : CompressRunning out input fuel [] s) :
    ∃ t, step s = .next t ∧
      t.out = out ++ enc input ∧ t.cntIn.val = input.length % 10 ^ 27 ∧
      t.cntOut.val = (enc input).length % 10 ^ 27 ∧ t.pos.toNat = input.length % 128 ∧
      t.index = t.pos ∧ t.remaining = 0#8 ∧ slotAt t 0 = .endMark ∧
      (∀ j, 0 < j → j < 128 → slotAt t j = .empty) ∧ t.phase = .done ∧ t.err = 0#2 ∧
      t.inp = [] := by
  obtain ⟨hw, hinp⟩ := h.window_eq
  have hnot := not_waits_of_fair h.fair
  have hbusy : s.busy = true := by simp [State.busy, h.phase_eq]
  have hmark : slotAt s 0 = .endMark :=
    (h.inv.run hnot).marked hbusy (BitVec.eq_of_toNat_eq (window_length hw).symm)
  obtain ⟨hstep, -, hempty⟩ := encoderTerminates s h.phase_eq (.inl h.host_eq) hmark
  obtain ⟨hrem, hindex, hslots⟩ := hempty (h.inv.buffer hnot)
  have hpos : s.pos = BitVec.ofNat 7 input.length := by simpa using h.moved
  have hin := h.countedIn
  have hout := h.countedOut
  have hwritten := h.written
  rw [encFrom_nil] at hout hwritten
  rw [show s.inp = [] from hinp] at hin
  refine ⟨_, hstep h.fair, hwritten, ?_, ?_, ?_, hindex, hrem, hmark, hslots, rfl, ?_, hinp⟩
  · rw [← hin, ← counterAfter_val, emit_cntIn, beginStep_cntIn, h.inv.counted.1]
    rfl
  · rw [← hout, ← counterAfter_val, emit_cntOut, beginStep_cntOut, h.inv.counted.2, counterAfter,
      incrementCounter_add]
    rfl
  · rw [emit_pos, beginStep_pos, hpos, BitVec.toNat_ofNat]
  · simpa [ErrInv, h.phase_eq] using h.inv.errOk

/-- Settles O50: START's step, the iterations, and TERMINATE. -/
theorem compressRun : Obligations.CompressRun := by
  intro s hb hfair hh
  obtain ⟨s₁, hstart, hrunning⟩ := step_start_compress hb hfair hh
  obtain ⟨k, u, fuel, hk, hu, hend⟩ := hrunning.run_to_end
  obtain ⟨t, ht, hdone⟩ := hend.step_terminate
  exact ⟨k + 2, t, by omega, (run_next (k + 1) hstart).trans (run_snoc hu ht), hdone⟩

end Sys2Proof.Machine

/-! ### The obligations that share a name with a definition of the model -/

namespace Sys2Proof.Proofs

/-- Settles O28. -/
theorem runDetect : Obligations.RunDetect := Machine.runDetect_spec

/-- Settles O29: the scan's slots, and on a buffer that meets its invariant the scan of the window. -/
theorem litScan : Obligations.LitScan := by
  intro s hne
  obtain ⟨hpos, hmax, hdiffer, hstop⟩ := Machine.litScan_spec hne
  exact ⟨hpos, hmax, hdiffer, hstop, Machine.litScan_le_remaining⟩

end Sys2Proof.Proofs
end

section
/-! PROOFS. The decoder's packets (42_decoder.md): the stops of the loop, and what `REP` and `LIT` do, as one: both write
an output made of their payload, or find it missing. -/

namespace Sys2Proof.Machine

/-! ### The loop head (R170 to R172) -/

/-- A quiet step in DEC runs the instruction of the code byte at the scan position. -/
theorem step_dec {s : State} {c : Byte} (hp : s.phase = .dec) (hquiet : HostQuiet s)
    (hw : ¬Waits s) (hc : slotAt s 0 = .byte c) : step s = exec (decodeCode c) (beginStep s) := by
  rw [step_quiet hquiet, phaseStep_dec (s := beginStep s) hp hw hc]

theorem step_dec_end {s : State} (hp : s.phase = .dec) (hquiet : HostQuiet s) (hw : ¬Waits s)
    (hm : slotAt s 0 = .endMark) : step s = .next (stopDone (beginStep s)) := by
  rw [step_quiet hquiet, phaseStep_dec_end (s := beginStep s) hp hw hm]

/-- Settles O8: at the marker the sequencer stops, at Byte 0 it runs `END`. -/
theorem endStops : Obligations.EndStops := by
  intro s
  refine ⟨rfl, fun hp hquiet hw hstop => ?_⟩
  obtain hm | hc := hstop
  · exact step_dec_end hp hquiet hw hm
  · exact step_dec hp hquiet hw hc

/-- Settles O9: at Byte 0x80 the sequencer runs the reserved code. -/
theorem reservedRaises : Obligations.ReservedRaises := fun _ =>
  ⟨rfl, fun hp hquiet hw hc => step_dec hp hquiet hw hc⟩

/-! ### `REP` and `LIT` as one (R173 to R175) -/

/-- The instruction is a `REP` or a `LIT`: it has a payload, of which its output is made. -/
abbrev CopiesPayload (i : Instr) : Prop := ∃ n, i = .rep n ∨ i = .lit n

@[simp] theorem payloadLen_rep (count : BitVec 7) : (Instr.rep count).payloadLen = 1 := rfl
@[simp] theorem payloadLen_lit (length : BitVec 7) :
    (Instr.lit length).payloadLen = length.toNat := rfl

/-- What a packet writes to OUT: a `REP` its payload byte `count` times, a `LIT` its payload (R173, R174). -/
def packetOutput : Instr × List Byte → List Byte
  | (.rep count, payload) => payload.flatMap (List.replicate count.toNat)
  | (.lit _, payload) => payload
  | (.endStream, _) | (.reserved80, _) | (.compress, _) | (.decompress, _) => []

@[simp] theorem packetOutput_rep (count : BitVec 7) (v : Byte) :
    packetOutput (.rep count, [v]) = List.replicate count.toNat v := List.flatMap_singleton _ _

@[simp] theorem packetOutput_lit (length : BitVec 7) (payload : List Byte) :
    packetOutput (.lit length, payload) = payload := rfl

/-- The truncation check comes before any other effect (R175). -/
theorem exec_truncated {i : Instr} {s : State} (hi : CopiesPayload i)
    (h : s.remaining.toNat < 1 + i.payloadLen) : exec i s = .next (raise .truncatedPacket s) := by
  obtain ⟨n, rfl | rfl⟩ := hi
  · exact if_pos h
  · exact if_pos (by rwa [litSize_toNat, Nat.add_comm])

/-- Where the payload is buffered the output is written and counted, and the packet's slots are consumed. -/
theorem exec_buffered {i : Instr} {payload : List Byte} {s : State} (hi : CopiesPayload i)
    (hlen : 1 + i.payloadLen ≤ s.remaining.toNat)
    (hpayload : spanBytes s 1 i.payloadLen = some payload) :
    ∃ n c : Amount, n.toNat = (packetOutput (i, payload)).length ∧ c.toNat = 1 + i.payloadLen ∧
      exec i s = packet (packetOutput (i, payload)) n c s := by
  obtain ⟨hl, hslots⟩ := (spanBytes_eq_some _ _ _ _).mp hpayload
  obtain ⟨n, rfl | rfl⟩ := hi
  · obtain ⟨v, rfl⟩ := List.length_eq_one_iff.mp hl
    have hv : slotAt s 1 = .byte v := hslots 0 v rfl
    rw [payloadLen_rep] at hlen
    refine ⟨n.setWidth 8, 2#8, ?_, rfl, ?_⟩
    · rw [amount_toNat, packetOutput_rep, List.length_replicate]
    · rw [exec, execRep, if_neg (by omega), hv, packetOutput_rep]
  · rw [payloadLen_lit] at hl hlen hpayload ⊢
    refine ⟨n.setWidth 8, litSize n, ?_, ?_, ?_⟩
    · rw [amount_toNat, packetOutput_lit, hl]
    · rw [litSize_toNat, Nat.add_comm]
    · rw [exec, execLit, litSize_toNat, if_neg (by omega), hpayload, packetOutput_lit]

/-- What a `REP` or a `LIT` can answer: it raises, or does what a packet does that writes as many bytes as it counts. -/
theorem exec_next {i : Instr} {s t : State} (hi : CopiesPayload i) (h : exec i s = .next t) :
    t = raise .truncatedPacket s ∨
      ∃ (p : List Byte) (n c : Amount), n.toNat = p.length ∧ c.toNat = 1 + i.payloadLen ∧
        packet p n c s = .next t := by
  obtain ⟨n, rfl | rfl⟩ := hi
  · obtain ⟨-, rfl⟩ | ⟨v, -, -, hpacket⟩ := execRep_next h
    · exact .inl rfl
    · exact .inr ⟨_, _, _, by rw [amount_toNat, List.length_replicate], rfl, hpacket⟩
  · obtain ⟨-, rfl⟩ | ⟨payload, -, hpayload, hpacket⟩ := execLit_next h
    · exact .inl rfl
    · obtain ⟨hl, -⟩ := (spanBytes_eq_some _ _ _ _).mp hpayload
      exact .inr ⟨_, _, _, by rw [amount_toNat, hl],
        by rw [litSize_toNat, Nat.add_comm, payloadLen_lit], hpacket⟩

/-- Streams that answer every request answer those of any operation (R285). -/
theorem after_ne_never {s : State} (h : Fair s) (k : Nat) : s.answers.after k ≠ .never := by
  rw [show s.answers = .always from h]
  exact nofun

theorem fair_after {s t : State} {k : Nat} (h : Fair s) (ht : t.answers = s.answers.after k) :
    Fair t := by
  rw [Fair, ht, show s.answers = .always from h, Answers.always_after]

theorem emit_fair {s : State} (h : Fair s) (p : List Byte) (n : Nat) : Fair (emit p n s) :=
  fair_after h (emit_answers p n s)

/-- A `REP` or a `LIT` whose payload is buffered, where the streams answer (R285). -/
theorem exec_consumed {i : Instr} {payload : List Byte} {s : State} (hi : CopiesPayload i)
    (hfair : Fair s) (hlen : 1 + i.payloadLen ≤ s.remaining.toNat)
    (hcap : s.remaining.toNat ≤ fillLimit s.phase)
    (hpayload : spanBytes s 1 i.payloadLen = some payload) :
    ∃ t, exec i s = .next t ∧
      Consumed (1 + i.payloadLen)
        (emit (packetOutput (i, payload)) (packetOutput (i, payload)).length s) t := by
  obtain ⟨n, c, hn, hc, hexec⟩ := exec_buffered hi hlen hpayload
  rw [hexec, ← hn, ← hc]
  exact packet_consumed (by omega) (by omega) hcap (after_ne_never hfair _)

/-- Settles O10: the payload is the one byte after the code byte. -/
theorem repResult : Obligations.RepResult := by
  intro count s
  refine ⟨fun h => exec_truncated ⟨count, .inl rfl⟩ h, fun v hfair hlen hcap hv => ?_⟩
  have hpayload : spanBytes s 1 1 = some [v] := by simp [spanBytes, hv]
  simpa using exec_consumed ⟨count, .inl rfl⟩ hfair hlen hcap hpayload

/-- Settles O11: the payload is the span of `length` slots after the code byte. -/
theorem litResult : Obligations.LitResult := by
  intro length s
  rw [Nat.add_comm]
  refine ⟨fun h => exec_truncated ⟨length, .inr rfl⟩ h,
    fun payload hfair hlen hcap hl hslots => ?_⟩
  have hpayload : spanBytes s 1 length.toNat = some payload :=
    (spanBytes_eq_some _ _ _ _).mpr ⟨hl, hslots⟩
  simpa [hl] using exec_consumed ⟨length, .inr rfl⟩ hfair hlen hcap hpayload

/-! ### The frame of `REP` and `LIT` (R173, R174, R285) -/

/-- A slot that a CONSUME neither culls nor has refilled before it waits reads as before. -/
theorem read_heldReading_cull {c : Amount} {j : Nat} {s : State} (hj : j ≤ s.inp.length)
    {a : SlotIdx} (hculled : ∀ k, k < c.toNat → a ≠ slotIdx s.pos k)
    (hstored : ∀ k, k < j → a ≠ slotIdx s.index k) :
    SlotMemory.read (heldReading j (cull c s)).buf a = SlotMemory.read s.buf a := by
  obtain ⟨-, -, -, -, -, -, -, hkept, -⟩ := heldReading_spec (s := cull c s) hj
  rw [hkept a hstored, cull_buf, invalidate_read, if_neg]
  rintro ⟨k, hk, e⟩
  exact hculled k hk e

/-- What `remaining` counts in a CONSUME that waits: `c` slots are culled, `j` bytes stored. -/
theorem remaining_heldReading_cull {c : Amount} {j : Nat} {s : State} (hj : j ≤ s.inp.length)
    (hjc : j ≤ c.toNat) (hc : c.toNat ≤ s.remaining.toNat) :
    (heldReading j (cull c s)).remaining.toNat + c.toNat = s.remaining.toNat + j := by
  obtain ⟨-, -, hrem, -⟩ := heldReading_spec (s := cull c s) hj
  have := s.remaining.isLt
  rw [hrem, BitVec.toNat_add, cull_remaining_toNat hc, BitVec.toNat_ofNat]
  omega

/-- Settles O12, by the outcomes of a packet: it raises, waits for OUT, completes, or waits for IN. -/
theorem packetFrame : Obligations.PacketFrame := by
  intro i s t hi h
  obtain rfl | ⟨p, n, c, hn, hc, hpacket⟩ := exec_next hi h
  · exact ⟨rfl, rfl, rfl, rfl, id, ⟨[], by simp⟩, fun _ _ _ => rfl, .inl rfl⟩
  rw [← hc]
  have h0 : 0 < c.toNat := by omega
  obtain ⟨written, _, -, hwritten, -⟩ := packet_streams h0 hpacket
  obtain ⟨hwait, rfl⟩ | ⟨-, hconsume⟩ := packet_cases hpacket
  · refine ⟨by simp, by simp, by simp, by simp, fun hf => absurd hwait (after_ne_never hf _),
      ⟨written, hwritten⟩, by simp, .inr (.inr ⟨by simpa [Waits] using hwait, by simp, by simp,
        by simp, ⟨n.toNat, by simp, by simp, ?_⟩, 0, by simp [incrementCounter]⟩)⟩
    simp [outWrites_eq, hn]
  obtain ⟨hle, -, ⟨-, -, hcon, -⟩ | ⟨hwait, rfl⟩⟩ := consume_cases h0 hconsume
  · obtain ⟨hcnt, hphase, hmode, herr, hout, hhost, hrdata, htick, hunits⟩ := hcon.frame
    refine ⟨hmode, hhost, hrdata, htick, fun hf => fair_after (emit_fair hf p n.toNat) hcon.answers_eq,
      ⟨written, hwritten⟩, fun a hculled hstored => ?_, .inr (.inl ⟨herr, hphase, hcon.pos_eq,
        hcon.taken, hcon.index_eq, hcon.remaining_eq, ⟨n.toNat, hcnt, hunits, by simp [hout, hn]⟩,
        hcon.counted, hcon.units_eq⟩)⟩
    refine hcon.kept a hculled (fun j hj => hstored j (by omega)) fun ⟨_, _, hmark⟩ => ?_
    exact hstored 0 h0 (by simpa using hmark)
  · obtain ⟨hjc, hj⟩ := room_readEvents hwait
    have hrem := remaining_heldReading_cull hj hjc hle
    have hread := @read_heldReading_cull c _ _ hj
    obtain ⟨hinp, hindex, -, hcin, huin, -, hwaits, -, -, hpos, hcnt, hphase, hmode, herr, hout,
      hhost, hrdata, htick, hunits⟩ := heldReading_spec (s := cull c (emit p n.toNat s)) hj
    refine ⟨hmode, hhost, hrdata, htick,
      fun hf => absurd hwait (after_ne_never (emit_fair hf p n.toNat) _), ⟨written, hwritten⟩,
      fun a hculled hstored => hread hculled fun k hk => hstored k (by omega),
      .inr (.inr ⟨hwaits, herr, hphase, hpos, ⟨n.toNat, hcnt, hunits, ?_⟩, _, le_min hjc hj,
        hinp, hindex, hcin, huin, .inr hrem⟩)⟩
    rw [hout, cull_out, emit_out, List.length_append, hn]

end Sys2Proof.Machine
end

section
/-! PROOFS. `dec` packet by packet (R180), and that `enc` is packets which give its input back (R181). -/

namespace Sys2Proof.Machine

/-! ### Packets and where a stream of them ends -/

/-- A `REP` or a `LIT` with the payload that it declares (R90, R93). -/
abbrev WellFormedPacket (q : Instr × List Byte) : Prop :=
  q.1.wellFormed = true ∧ CopiesPayload q.1 ∧ q.2.length = q.1.payloadLen

/-- The bytes of a packet. -/
def packetBytes (q : Instr × List Byte) : List Byte := (encodePacket q.1 q.2).getD []

theorem packetBytes_eq {i : Instr} {c : Byte} (h : encode i = .code c) (payload : List Byte) :
    packetBytes (i, payload) = c :: payload := by
  rw [packetBytes, encodePacket_eq_some.mpr ⟨c, h, rfl⟩, Option.getD_some]

/-- The code byte of a packet decodes to its instruction. -/
theorem WellFormedPacket.exists_code {q : Instr × List Byte} (h : WellFormedPacket q) :
    ∃ c, decodeCode c = q.1 ∧ packetBytes q = c :: q.2 := by
  obtain ⟨hwf, ⟨n, hn | hn⟩, -⟩ := h
  all_goals
    obtain ⟨c, hc⟩ : ∃ c, encode q.1 = .code c := ⟨_, by rw [hn]; rfl⟩
    exact ⟨c, decodeCode_of_encode hwf hc, packetBytes_eq hc q.2⟩

/-- A packet's payload has 1 to 127 bytes. -/
theorem WellFormedPacket.payloadLen_bounds {q : Instr × List Byte} (h : WellFormedPacket q) :
    1 ≤ q.1.payloadLen ∧ q.1.payloadLen ≤ 127 := by
  obtain ⟨hwf, ⟨n, hn | hn⟩, -⟩ := h
  · rw [hn, payloadLen_rep]
    decide
  · rw [hn, wellFormed_lit] at hwf
    rw [hn, payloadLen_lit]
    omega

/-- The code byte of a `REP` or a `LIT` is in one of two ranges, which gives the instruction and its field (R94). -/
theorem packetCode_cases {c : Byte} (h0 : c ≠ 0x00#8) (h80 : c ≠ 0x80#8) :
    (¬0x81 ≤ c.toNat ∧ decodeCode c = .rep (codeLength c) ∧ (codeLength c).toNat = c.toNat) ∨
      (0x81 ≤ c.toNat ∧ decodeCode c = .lit (codeLength c) ∧
        (codeLength c).toNat = c.toNat - 0x80) := by
  obtain h | h | ⟨h1, h2⟩ | h := codeByte_cases c
  · exact absurd h h0
  · exact absurd h h80
  · exact .inl ⟨by omega, decodeCode_rep h1 h2, by rw [codeLength_toNat]; omega⟩
  · exact .inr ⟨h, decodeCode_lit h, by rw [codeLength_toNat]; omega⟩

/-- All code bytes but 0x00 and 0x80 are those of a `REP` or a `LIT`. -/
theorem copiesPayload_decodeCode {c : Byte} :
    CopiesPayload (decodeCode c) ↔ c ≠ 0x00#8 ∧ c ≠ 0x80#8 := by
  constructor
  · rintro ⟨n, hn⟩
    constructor <;> rintro rfl <;> simp [decodeCode] at hn
  · rintro ⟨h0, h80⟩
    obtain ⟨-, hc, -⟩ | ⟨-, hc, -⟩ := packetCode_cases h0 h80
    · exact ⟨_, .inl hc⟩
    · exact ⟨_, .inr hc⟩

/-- The streams of which the decoder copies nothing more: exhausted, at a terminator, at the reserved code, or inside a
packet; with the cause if it raises (R171, R172, R175). -/
inductive StreamEnd : List Byte → Option Cause → Prop where
  | exhausted : StreamEnd [] none
  | terminator (tail : List Byte) : StreamEnd (0x00#8 :: tail) none
  | reserved (tail : List Byte) : StreamEnd (0x80#8 :: tail) (some .reservedCode)
  | truncated (c : Byte) (tail : List Byte) (hc : CopiesPayload (decodeCode c))
      (hlen : tail.length < (decodeCode c).payloadLen) :
      StreamEnd (c :: tail) (some .truncatedPacket)

/-- A stream ends where it stands, or begins with a packet. -/
theorem streamEnd_or_packet (z : List Byte) :
    (∃ cause, StreamEnd z cause) ∨
      ∃ q rest, WellFormedPacket q ∧ z = packetBytes q ++ rest := by
  obtain _ | ⟨c, tail⟩ := z
  · exact .inl ⟨_, .exhausted⟩
  by_cases h0 : c = 0x00#8
  · exact .inl ⟨none, h0 ▸ .terminator tail⟩
  by_cases h80 : c = 0x80#8
  · exact .inl ⟨some .reservedCode, h80 ▸ .reserved tail⟩
  have hc : CopiesPayload (decodeCode c) := copiesPayload_decodeCode.mpr ⟨h0, h80⟩
  by_cases hlen : tail.length < (decodeCode c).payloadLen
  · exact .inl ⟨_, .truncated c tail hc hlen⟩
  · refine .inr ⟨(decodeCode c, tail.take (decodeCode c).payloadLen),
      tail.drop (decodeCode c).payloadLen, ⟨decodeCode_wellFormed c, hc, ?_⟩, ?_⟩
    · exact List.length_take_of_le (Nat.le_of_not_lt hlen)
    · rw [packetBytes_eq (encode_decodeCode c), List.cons_append, List.take_append_drop]

theorem WellFormedPacket.length_packetBytes {q : Instr × List Byte} (h : WellFormedPacket q) :
    (packetBytes q).length = 1 + q.1.payloadLen := by
  obtain ⟨c, -, hbytes⟩ := h.exists_code
  obtain ⟨-, -, hlen⟩ := h
  rw [hbytes, List.length_cons, hlen, Nat.add_comm]

/-- A packet has two bytes at least (R183). -/
theorem WellFormedPacket.two_le_length {q : Instr × List Byte} (h : WellFormedPacket q) :
    2 ≤ (packetBytes q).length := by
  obtain ⟨hpos, -⟩ := h.payloadLen_bounds
  rw [h.length_packetBytes]
  omega

/-- Every stream is whole packets and an end; there is at most one packet per two bytes (R183). -/
theorem exists_packets (z : List Byte) :
    ∃ (packets : List (Instr × List Byte)) (rest : List Byte) (cause : Option Cause),
      (∀ q ∈ packets, WellFormedPacket q) ∧ StreamEnd rest cause ∧
      z = packets.flatMap packetBytes ++ rest ∧ packets.length ≤ z.length / 2 := by
  induction hlen : z.length using Nat.strong_induction_on generalizing z with
  | _ n ih =>
    obtain ⟨cause, hend⟩ | ⟨q, rest, hq, rfl⟩ := streamEnd_or_packet z
    · exact ⟨[], z, cause, nofun, hend, rfl, Nat.zero_le _⟩
    · have htwo := hq.two_le_length
      rw [List.length_append] at hlen
      obtain ⟨packets, rest, cause, hpackets, hend, rfl, hcount⟩ := ih rest.length (by omega) rest rfl
      refine ⟨q :: packets, rest, cause, List.forall_mem_cons.mpr ⟨hq, hpackets⟩, hend, ?_, ?_⟩
      · rw [List.flatMap_cons, List.append_assoc]
      · rw [List.length_cons]
        omega

/-! ### `dec` (R180) -/

/-- Where the stream ends nothing more is written. -/
theorem StreamEnd.decFrom_eq {z : List Byte} {cause : Option Cause} (h : StreamEnd z cause)
    {fuel : Nat} (hfuel : z.length ≤ fuel) : decFrom fuel z = ([], cause) := by
  cases fuel with
  | zero =>
    obtain rfl := List.length_eq_zero_iff.mp (Nat.le_zero.mp hfuel)
    cases h
    rfl
  | succ fuel =>
    cases h with
    | exhausted | terminator | reserved => rfl
    | truncated c tail hc hlen =>
      obtain ⟨h0, h80⟩ := copiesPayload_decodeCode.mp hc
      obtain ⟨hrange, hdecode, -⟩ | ⟨hrange, hdecode, hfield⟩ := packetCode_cases h0 h80
      · rw [hdecode, payloadLen_rep, Nat.lt_one_iff, List.length_eq_zero_iff] at hlen
        simp [decFrom, h0, h80, hrange, hlen]
      · rw [hdecode, payloadLen_lit, hfield] at hlen
        simp [decFrom, h0, h80, hrange, hlen]

/-- A packet is decoded to its output, and `dec` goes on with what follows it. -/
theorem decFrom_packet (fuel : Nat) {q : Instr × List Byte} (h : WellFormedPacket q)
    (rest : List Byte) :
    decFrom (fuel + 1) (packetBytes q ++ rest) =
      (packetOutput q ++ (decFrom fuel rest).1, (decFrom fuel rest).2) := by
  obtain ⟨i, payload⟩ := q
  obtain ⟨c, rfl, hbytes⟩ := h.exists_code
  obtain ⟨-, hc, hlen⟩ := h
  rw [hbytes]
  obtain ⟨h0, h80⟩ := copiesPayload_decodeCode.mp hc
  obtain ⟨hrange, hdecode, hfield⟩ | ⟨hrange, hdecode, hfield⟩ := packetCode_cases h0 h80
  · obtain ⟨v, rfl⟩ := List.length_eq_one_iff.mp (by simpa [hdecode] using hlen)
    simp [decFrom, h0, h80, hrange, hdecode, hfield]
  · have hlen : payload.length = c.toNat - 0x80 := by simpa [hdecode, hfield] using hlen
    simp [decFrom, h0, h80, hrange, hdecode, ← hlen]

theorem decFrom_packets {packets : List (Instr × List Byte)} {rest : List Byte}
    {cause : Option Cause} {fuel : Nat} (h : ∀ q ∈ packets, WellFormedPacket q)
    (hend : StreamEnd rest cause) (hfuel : (packets.flatMap packetBytes ++ rest).length ≤ fuel) :
    decFrom fuel (packets.flatMap packetBytes ++ rest) = (packets.flatMap packetOutput, cause) := by
  induction packets generalizing fuel with
  | nil => exact hend.decFrom_eq hfuel
  | cons q packets ih =>
    obtain ⟨hq, hpackets⟩ := List.forall_mem_cons.mp h
    have htwo := hq.two_le_length
    rw [List.flatMap_cons, List.append_assoc] at hfuel ⊢
    rw [List.length_append] at hfuel
    obtain ⟨fuel, rfl⟩ : ∃ k, fuel = k + 1 := ⟨fuel - 1, by omega⟩
    rw [decFrom_packet fuel hq, ih hpackets (by omega), List.flatMap_cons]

/-- `dec` is the outputs of the stream's whole packets, and the cause with which the stream ends. -/
theorem dec_packets {packets : List (Instr × List Byte)} {rest : List Byte} {cause : Option Cause}
    (h : ∀ q ∈ packets, WellFormedPacket q) (hend : StreamEnd rest cause) :
    dec (packets.flatMap packetBytes ++ rest) = (packets.flatMap packetOutput, cause) :=
  decFrom_packets h hend le_rfl

/-! ### `enc` as packets (R153, R181) -/

/-- A run is copies of its first byte. -/
theorem take_headRun (b : Byte) (rest : List Byte) :
    (b :: rest).take (headRun (b :: rest)) = List.replicate (headRun (b :: rest)) b := by
  obtain ⟨-, hle⟩ := headRun_bounds b rest
  refine List.eq_replicate_iff.mpr ⟨List.length_take_of_le hle, fun x hx => ?_⟩
  obtain ⟨k, hk, rfl⟩ := List.getElem_of_mem hx
  have hsame := headRun_same b rest (k := k) (by simpa using hk.trans_le (List.length_take_le _ _))
  rw [List.getElem_take]
  exact (List.getElem_eq_iff _).mpr hsame

/-- `enc` begins with a packet whose output is the bytes it stands for. -/
theorem encFrom_packet (fuel : Nat) (b : Byte) (rest : List Byte) :
    ∃ q n, WellFormedPacket q ∧ 1 ≤ n ∧ packetOutput q = (b :: rest).take n ∧
      encFrom (fuel + 1) (b :: rest) = packetBytes q ++ encFrom fuel ((b :: rest).drop n) := by
  obtain ⟨n, hn, hrun, henc⟩ | ⟨n, payload, hn, hlen, -, hpayload, henc⟩ := encFrom_cons fuel b rest
  · have htake := take_headRun b (rest.take 126)
    rw [← List.take_succ_cons, ← hrun, List.take_take, Nat.min_eq_left (by omega)] at htake
    exact ⟨(.rep n, [b]), n.toNat, ⟨wellFormed_rep.mpr (by omega), ⟨n, .inl rfl⟩, rfl⟩, by omega,
      (packetOutput_rep n b).trans htake.symm, henc⟩
  · exact ⟨(.lit n, payload), n.toNat, ⟨wellFormed_lit.mpr hn, ⟨n, .inr rfl⟩, hlen⟩, hn, hpayload,
      henc⟩

/-- `enc` is packets whose outputs are its input, and a terminator. -/
theorem encFrom_packets {fuel : Nat} {input : List Byte} (hfuel : input.length ≤ fuel) :
    ∃ packets : List (Instr × List Byte), (∀ q ∈ packets, WellFormedPacket q) ∧
      encFrom fuel input = packets.flatMap packetBytes ++ [0x00#8] ∧
      packets.flatMap packetOutput = input := by
  induction fuel generalizing input with
  | zero =>
    obtain rfl := List.length_eq_zero_iff.mp (Nat.le_zero.mp hfuel)
    exact ⟨[], nofun, rfl, rfl⟩
  | succ fuel ih =>
    obtain _ | ⟨b, rest⟩ := input
    · exact ⟨[], nofun, rfl, rfl⟩
    · obtain ⟨q, n, hq, hn, houtput, henc⟩ := encFrom_packet fuel b rest
      have hdrop : ((b :: rest).drop n).length ≤ fuel := by rw [List.length_drop]; omega
      obtain ⟨packets, hpackets, hbytes, hrest⟩ := ih hdrop
      refine ⟨q :: packets, List.forall_mem_cons.mpr ⟨hq, hpackets⟩, ?_, ?_⟩
      · rw [henc, hbytes, List.flatMap_cons, List.append_assoc]
      · rw [List.flatMap_cons, hrest, houtput, List.take_append_drop]

/-- R181 of the lists. -/
theorem dec_enc (input : List Byte) : dec (enc input) = (input, none) := by
  obtain ⟨packets, hpackets, hbytes, houtput⟩ := encFrom_packets (input := input) le_rfl
  rw [enc, hbytes, dec_packets hpackets (.terminator []), houtput]

end Sys2Proof.Machine
end

section
/-! PROOFS. DECOMPRESS as a whole (R179 to R183): START's step, a step for each packet of the stream, and the step at the
stream's end. -/

namespace Sys2Proof.Machine

/-- A DECOMPRESS, begun with `out` on OUT, that has done the packets `done` and has `rest` still to decode: `rest` is the
window and what IN still holds, and OUT, the counters and the scan position stand where the packets leave them. -/
structure DecompressRunning (out : List Byte) (done : List (Instr × List Byte)) (rest : List Byte)
    (s : State) : Prop where
  inv : BlockInv s
  phase_eq : s.phase = .dec
  host_eq : s.host = []
  fair : Fair s
  ahead : ∃ w, window s = some w ∧ w ++ s.inp = rest
  written : s.out = out ++ done.flatMap packetOutput
  countedOut : s.unitsOut = (done.flatMap packetOutput).length
  countedIn : s.unitsIn = (done.flatMap packetBytes).length + s.remaining.toNat
  pos_eq : s.pos = BitVec.ofNat 7 (done.flatMap packetBytes).length

/-! ### START (R222) -/

theorem exec_decompress {s : State} (hb : s.busy = false) :
    exec .decompress s = start .decompress s := by
  rw [exec, execDecompress, hb]
  rfl

/-- START's step begins the run with all of IN still to decode. -/
theorem step_start_decompress {s : State} (hb : s.busy = false) (hfair : Fair s)
    (hh : s.host = [.ctrlWrite 0b11#2]) :
    ∃ t, step s = .next t ∧ DecompressRunning s.out [] s.inp t := by
  obtain ⟨t, ht, -, hr⟩ := start_next .decompress (beginStep s) hfair
  have hr : Refilled 128 (startInit .decompress .dec (beginStep s)) t := hr
  obtain ⟨hpos, -, hphase, -, -, hout, hhost, -, -, hunits⟩ := hr.frame
  have hcommand : step s = exec .decompress (beginStep s) := step_command hb hh rfl
  refine ⟨t, by rw [hcommand, exec_decompress (s := beginStep s) hb, ht], ?_⟩
  have hwin := hr.start_window
  have hinp := hr.taken
  exact {
    inv := start_blockInv ht
    phase_eq := hphase
    host_eq := by simp [hhost, hh]
    fair := fair_after hfair hr.answers_eq
    ahead := ⟨_, hwin, by rw [hinp]; exact List.take_append_drop 128 s.inp⟩
    written := by simp [hout]
    countedOut := hunits
    countedIn := by simp [hr.units_eq, hr.remaining_eq]
    pos_eq := hpos }

/-! ### The end of a run (R171, R244) -/

/-- The end of a run: normal, or by the exception. -/
def endRun : Option Cause → State → State
  | none, s => stopDone s
  | some cause, s => raise cause s

section
variable (cause : Option Cause) (s : State)

@[simp] theorem endRun_cntIn : (endRun cause s).cntIn = s.cntIn := by cases cause <;> rfl
@[simp] theorem endRun_cntOut : (endRun cause s).cntOut = s.cntOut := by cases cause <;> rfl
@[simp] theorem endRun_inp : (endRun cause s).inp = s.inp := by cases cause <;> rfl
@[simp] theorem endRun_out : (endRun cause s).out = s.out := by cases cause <;> rfl

end

/-! ### What a run has buffered, taken and counted (R176, R178) -/

section
variable {out rest : List Byte} {done : List (Instr × List Byte)} {s : State}

/-- The window of a running DECOMPRESS is the first 128 bytes still to decode (R176). -/
theorem DecompressRunning.window_eq (h : DecompressRunning out done rest s) :
    window s = some (rest.take 128) ∧ s.inp = rest.drop 128 := by
  obtain ⟨w, hw, rfl⟩ := h.ahead
  have hnot := not_waits_of_fair h.fair
  have hlen := window_length hw
  have hcap := (h.inv.buffer hnot).cap
  have htop := (h.inv.run hnot).topped (by simp [State.busy, h.phase_eq])
  rw [h.phase_eq, ← hlen, show fillLimit .dec = 128 from rfl] at hcap htop
  obtain hlt | heq := Nat.lt_or_eq_of_le hcap
  · rw [htop hlt, List.append_nil, List.take_of_length_le hcap, List.drop_of_length_le hcap]
    exact ⟨hw, rfl⟩
  · rw [List.take_left' heq, List.drop_left' heq]
    exact ⟨hw, rfl⟩

theorem DecompressRunning.remaining_eq (h : DecompressRunning out done rest s) :
    s.remaining.toNat = min 128 rest.length := by
  rw [← window_length h.window_eq.1, List.length_take]

/-- The bytes that a running DECOMPRESS has taken from IN are the first of its input. -/
theorem DecompressRunning.taken (h : DecompressRunning out done rest s) :
    s.unitsIn ≤ (done.flatMap packetBytes ++ rest).length ∧
      s.inp = (done.flatMap packetBytes ++ rest).drop s.unitsIn := by
  obtain ⟨w, hw, rfl⟩ := h.ahead
  rw [h.countedIn, ← window_length hw, ← List.append_assoc, ← List.length_append]
  exact ⟨by simp, (List.drop_left ..).symm⟩

theorem DecompressRunning.cntIn_val (h : DecompressRunning out done rest s) :
    s.cntIn.val = s.unitsIn % 10 ^ 27 := by
  rw [h.inv.counted.1, counterAfter_val]

theorem DecompressRunning.cntOut_val (h : DecompressRunning out done rest s) :
    s.cntOut.val = (done.flatMap packetOutput).length % 10 ^ 27 := by
  rw [h.inv.counted.2, counterAfter_val, h.countedOut]

theorem DecompressRunning.err_eq (h : DecompressRunning out done rest s) : s.err = 0#2 := by
  simpa [ErrInv, h.phase_eq] using h.inv.errOk

/-! ### The packets (R177) -/

/-- The packet at the scan position of a running DECOMPRESS is buffered: the window has 128 bytes, or all that follow. -/
theorem DecompressRunning.packet_buffered {q : Instr × List Byte}
    (h : DecompressRunning out done (packetBytes q ++ rest) s) (hq : WellFormedPacket q) :
    (∃ c, decodeCode c = q.1 ∧ slotAt s 0 = .byte c) ∧
      (packetBytes q).length ≤ s.remaining.toNat ∧ spanBytes s 1 q.1.payloadLen = some q.2 := by
  obtain ⟨c, hdecode, hbytes⟩ := hq.exists_code
  obtain ⟨-, hmax⟩ := hq.payloadLen_bounds
  obtain ⟨-, -, hpayload⟩ := hq
  obtain ⟨hw, -⟩ := h.window_eq
  have hrem := h.remaining_eq
  rw [hbytes] at hw hrem ⊢
  rw [List.length_append, List.length_cons, hpayload] at hrem
  refine ⟨⟨c, hdecode, window_slot hw (k := 0) rfl⟩, ?_, ?_⟩
  · rw [List.length_cons]
    omega
  · have hspan := spanBytes_part hw (d := 1) (m := q.1.payloadLen) (by omega)
    rw [List.drop_take, List.take_take, Nat.min_eq_left (by omega)] at hspan
    rw [hspan]
    simp [← hpayload]

/-- The step at a packet writes and counts the packet's output, and consumes its bytes. -/
theorem DecompressRunning.step_consumed {q : Instr × List Byte}
    (h : DecompressRunning out done (packetBytes q ++ rest) s) (hq : WellFormedPacket q) :
    ∃ t, step s = .next t ∧
      Consumed (packetBytes q).length
        (emit (packetOutput q) (packetOutput q).length (beginStep s)) t := by
  obtain ⟨⟨c, hdecode, hslot⟩, hlen, hpayload⟩ := h.packet_buffered hq
  have hnot := not_waits_of_fair h.fair
  have hcap : (beginStep s).remaining.toNat ≤ fillLimit (beginStep s).phase := (h.inv.buffer hnot).cap
  have hspan := (spanBytes_congr (s := s) (t := beginStep s) rfl rfl 1 q.1.payloadLen).trans hpayload
  rw [hq.length_packetBytes] at hlen ⊢
  rw [step_dec h.phase_eq (.inl h.host_eq) hnot hslot, hdecode]
  exact exec_consumed (s := beginStep s) hq.2.1 h.fair hlen hcap hspan

/-- A step decodes one packet of what is still to decode. -/
theorem DecompressRunning.step_packet {q : Instr × List Byte}
    (h : DecompressRunning out done (packetBytes q ++ rest) s) (hq : WellFormedPacket q) :
    ∃ t, step s = .next t ∧ DecompressRunning out (done ++ [q]) rest t := by
  obtain ⟨t, ht, hcon⟩ := h.step_consumed hq
  have hnot := not_waits_of_fair h.fair
  obtain ⟨hw, hinp⟩ := h.window_eq
  have hunits : t.unitsIn = s.unitsIn + min (packetBytes q).length s.inp.length := hcon.units_eq
  have hrem : t.remaining.toNat + (packetBytes q).length =
      s.remaining.toNat + min (packetBytes q).length s.inp.length := hcon.remaining_eq
  obtain ⟨-, hphase, -, -, hout, hhost, -, -, hunitsOut⟩ := hcon.frame
  have hbuf : BufferInv (emit (packetOutput q) (packetOutput q).length (beginStep s)) :=
    (h.inv.buffer hnot).congr rfl rfl rfl rfl le_rfl
  have hwin := (window_congr (s := s)
    (t := emit (packetOutput q) (packetOutput q).length (beginStep s)) rfl rfl rfl).trans hw
  obtain ⟨w', hw', hstream⟩ := hcon.window_stream hbuf (h.packet_buffered hq).2.1 hwin
  refine ⟨t, ht, ?_⟩
  exact {
    inv := invStep s t h.inv ht
    phase_eq := hphase.trans h.phase_eq
    host_eq := by simp [hhost, h.host_eq]
    fair := fair_after (emit_fair (s := beginStep s) h.fair _ _) hcon.answers_eq
    ahead := ⟨w', hw', by
      rw [hstream, emit_inp, beginStep_inp, hinp, List.take_append_drop, List.drop_left]⟩
    written := by simp [hout, h.written]
    countedOut := by simp [hunitsOut, h.countedOut]
    countedIn := by
      have := h.countedIn
      rw [List.flatMap_append, List.length_append, List.flatMap_singleton]
      omega
    pos_eq := by
      rw [hcon.pos_eq, emit_pos, beginStep_pos, h.pos_eq, slotIdx, ← BitVec.ofNat_add,
        List.flatMap_append, List.length_append, List.flatMap_singleton] }

/-- R183: as many steps as there are packets bring the block to what follows them. -/
theorem DecompressRunning.run_packets {packets : List (Instr × List Byte)}
    (h : DecompressRunning out done (packets.flatMap packetBytes ++ rest) s)
    (hpackets : ∀ q ∈ packets, WellFormedPacket q) :
    ∃ t, core.run packets.length s = .next t ∧ DecompressRunning out (done ++ packets) rest t := by
  induction packets generalizing done s with
  | nil => exact ⟨s, rfl, by simpa using h⟩
  | cons q packets ih =>
    obtain ⟨hq, hpackets⟩ := List.forall_mem_cons.mp hpackets
    rw [List.flatMap_cons, List.append_assoc] at h
    obtain ⟨u, hu, hnext⟩ := h.step_packet hq
    obtain ⟨t, ht, hend⟩ := ih hnext hpackets
    exact ⟨t, (run_next packets.length hu).trans ht, by simpa using hend⟩

/-! ### The end of the stream (R171, R172, R175) -/

/-- At the stream's end the run ends. -/
theorem DecompressRunning.step_end {cause : Option Cause} (h : DecompressRunning out done rest s)
    (hend : StreamEnd rest cause) : step s = .next (endRun cause (beginStep s)) := by
  have hquiet : HostQuiet s := .inl h.host_eq
  have hnot := not_waits_of_fair h.fair
  obtain ⟨hw, -⟩ := h.window_eq
  have hrem := h.remaining_eq
  cases hend with
  | exhausted =>
    have hmark := (h.inv.run hnot).marked (by simp [State.busy, h.phase_eq])
      (BitVec.eq_of_toNat_eq hrem)
    exact step_dec_end h.phase_eq hquiet hnot hmark
  | terminator tail => exact step_dec h.phase_eq hquiet hnot (window_slot hw (k := 0) rfl)
  | reserved tail => exact step_dec h.phase_eq hquiet hnot (window_slot hw (k := 0) rfl)
  | truncated c tail hc hlen =>
    rw [step_dec h.phase_eq hquiet hnot (window_slot hw (k := 0) rfl)]
    rw [List.length_cons] at hrem
    exact exec_truncated (s := beginStep s) hc (by rw [beginStep_remaining]; omega)

end

/-! ### The whole operation -/

/-- DECOMPRESS of packets and a stream's end: a step for START, one for each packet, and one at the end. -/
theorem decompress_packets {s : State} (hb : s.busy = false) (hfair : Fair s)
    (hh : s.host = [.ctrlWrite 0b11#2]) {packets : List (Instr × List Byte)} {rest : List Byte}
    {cause : Option Cause} (hpackets : ∀ q ∈ packets, WellFormedPacket q)
    (hend : StreamEnd rest cause) (hinp : s.inp = packets.flatMap packetBytes ++ rest) :
    ∃ u, core.run (packets.length + 2) s = .next (endRun cause (beginStep u)) ∧
      DecompressRunning s.out packets rest u := by
  obtain ⟨s₁, hstart, hrunning⟩ := step_start_decompress hb hfair hh
  rw [hinp] at hrunning
  obtain ⟨u, hu, hrest⟩ := hrunning.run_packets hpackets
  exact ⟨u, (run_next (packets.length + 1) hstart).trans (run_snoc hu (hrest.step_end hend)), hrest⟩

/-- Settles O51: IN is packets and an end, whatever it is. -/
theorem decompressRun : Obligations.DecompressRun := by
  intro s hb hfair hh
  obtain ⟨packets, rest, cause, hpackets, hend, hinp, hcount⟩ := exists_packets s.inp
  obtain ⟨u, hrun, hu⟩ := decompress_packets hb hfair hh hpackets hend hinp
  obtain ⟨hle, htaken⟩ := hu.taken
  have hdec := dec_packets hpackets hend
  rw [← hinp] at hdec hle htaken
  rw [hdec]
  refine ⟨_, _, Nat.add_le_add_right hcount 2, hrun, ?_, ?_, ?_, u.unitsIn, hle, ?_, ?_⟩
  · rw [endRun_out, beginStep_out, hu.written]
  · match cause with
    | none => exact ⟨rfl, hu.err_eq⟩
    | some .truncatedPacket => exact ⟨rfl, rfl⟩
    | some .reservedCode => exact ⟨rfl, rfl⟩
  · rw [endRun_cntOut, beginStep_cntOut, hu.cntOut_val]
  · rw [endRun_inp, beginStep_inp, htaken]
  · rw [endRun_cntIn, beginStep_cntIn, hu.cntIn_val]

/-- Settles O52: what the run leaves at a terminator, where 128 bytes from it on are buffered, or all there are. -/
theorem decompressEndState : Obligations.DecompressEndState := by
  intro s packets p tail hb hfair hh hpackets hp hinp
  have hp : p = packets.flatMap packetBytes := hp
  subst hp
  have hdec : ∀ tail, dec (packets.flatMap packetBytes ++ 0x00#8 :: tail) =
      (packets.flatMap packetOutput, none) := fun tail => dec_packets hpackets (.terminator tail)
  obtain ⟨u, hrun, hu⟩ := decompress_packets hb hfair hh hpackets (.terminator tail) hinp
  have hbuf := hu.inv.buffer (not_waits_of_fair hu.fair)
  have hrem : u.remaining.toNat = 1 + min tail.length 127 := by
    rw [hu.remaining_eq, List.length_cons]
    omega
  obtain ⟨hw, htaken⟩ := hu.window_eq
  rw [hinp, hdec, hdec]
  refine ⟨_, _, hrun, rfl, hu.err_eq, hu.written, rfl, ?_, hu.cntOut_val, ?_, hrem,
    hbuf.index_eq, ?_, fun j (hj : u.remaining.toNat ≤ j) => slotAt_beyond hbuf (by omega) hj,
    htaken⟩
  · rw [Nat.add_assoc, ← hrem, ← hu.countedIn]
    exact hu.cntIn_val
  · exact (congrArg BitVec.toNat hu.pos_eq).trans (BitVec.toNat_ofNat _ _)
  · exact (window_congr (s := u) (t := endRun none (beginStep u)) rfl rfl rfl).trans hw

/-- Settles O53: `enc` is packets of which `dec` gives the input back, and DECOMPRESS writes what `dec` gives. -/
theorem roundTrip : Obligations.RoundTrip := by
  intro input
  have hdec := dec_enc input
  refine ⟨hdec, fun s hb hfair hh hinp => ?_⟩
  obtain ⟨k, t, -, hrun, hout, hcause, -⟩ := decompressRun s hb hfair hh
  rw [hinp, hdec] at hout hcause
  obtain ⟨hphase, herr⟩ := hcause
  exact ⟨k, t, hrun, hphase, herr, hout⟩

end Sys2Proof.Machine
end

section
/-! PROOFS. The digit-group counter (R200 to R207): what one unit walk does, that INCREMENT adds modulo 1000^9, and that
FORMAT shows the value. -/

namespace Sys2Proof.Machine

/-! ### One unit walk (R201, R202) -/

/-- The carry runs over the leading groups at 999. -/
theorem walkGroups_replicate_append (k : Nat) (gs : List Group) :
    walkGroups (List.replicate k 999#16 ++ gs) = List.replicate k 0#16 ++ walkGroups gs := by
  induction k with
  | zero => rfl
  | succ k ih => simp [List.replicate_succ, walkGroups, ih]

theorem walkGroups_cons_of_ne {g : Group} (h : g ≠ 999#16) (gs : List Group) :
    walkGroups (g :: gs) = (g + 1#16) :: gs := by
  rw [walkGroups, if_neg h]

theorem replicate_append_drop {α : Type} {l : List α} {a : α} {k : Nat}
    (h : ∀ j, j < k → l[j]? = some a) : List.replicate k a ++ l.drop k = l := by
  have hprefix : List.replicate k a <+: l := by
    rw [List.prefix_iff_getElem?]
    intro j hj
    rw [List.getElem_replicate]
    exact h j (by simpa using hj)
  simpa using List.prefix_iff_eq_append.mp hprefix

/-- A unit walk clears the leading groups at 999 and goes on behind them. -/
theorem unitWalk_toList_of_lead {c : Counter} {k : Nat}
    (hlead : ∀ j, j < k → c.toList[j]? = some 999#16) :
    (unitWalk c).toList = List.replicate k 0#16 ++ walkGroups (c.toList.drop k) := by
  rw [unitWalk_toList, ← walkGroups_replicate_append, replicate_append_drop hlead]

theorem unitWalk_all_999 {c : Counter} (hlead : ∀ j, j < 9 → c.toList[j]? = some 999#16) :
    (unitWalk c).toList = List.replicate 9 0#16 := by
  rw [unitWalk_toList_of_lead hlead, List.drop_of_length_le (counter_toList_length c).le,
    walkGroups, List.append_nil]

theorem unitWalk_first_other {c : Counter} {k : Nat} {g : Group}
    (hlead : ∀ j, j < k → c.toList[j]? = some 999#16) (hg : c.toList[k]? = some g)
    (hne : g ≠ 999#16) :
    (unitWalk c).toList = List.replicate k 0#16 ++ (g + 1#16) :: c.toList.drop (k + 1) := by
  obtain ⟨hlt, hget⟩ := List.getElem?_eq_some_iff.mp hg
  rw [unitWalk_toList_of_lead hlead, List.drop_eq_getElem_cons hlt, hget, walkGroups_cons_of_ne hne]

/-- Settles O25: the walk over nine groups at 999. -/
theorem counterWraps : Obligations.CounterWraps :=
  Vector.toList_inj.mp (unitWalk_all_999 (by decide))

/-! ### INCREMENT (R203) -/

theorem groupsVal_lt (gs : List Group) (h : ∀ g ∈ gs, g.toNat ≤ 999) :
    groupsVal gs < 1000 ^ gs.length := by
  induction gs with
  | nil => simp [groupsVal]
  | cons g rest ih =>
    obtain ⟨hg, hrest⟩ := List.forall_mem_cons.mp h
    have hlt := ih hrest
    simp only [groupsVal, List.length_cons, pow_succ]
    omega

theorem Counter.InRange.val_lt {c : Counter} (h : c.InRange) : c.val < 1000 ^ 9 := by
  have hlt := groupsVal_lt c.toList h
  rwa [counter_toList_length] at hlt

theorem Counter.InRange.unitWalk_val {c : Counter} (h : c.InRange) :
    (unitWalk c).val = (c.val + 1) % 1000 ^ 9 := by
  rw [Counter.val, unitWalk_toList, groupsVal_walkGroups _ h, counter_toList_length, Counter.val]

theorem Counter.InRange.incrementCounter_val {c : Counter} (h : c.InRange) (amount : Nat) :
    (incrementCounter amount c).val = (c.val + amount) % 1000 ^ 9 := by
  induction amount generalizing c with
  | zero => exact (Nat.mod_eq_of_lt h.val_lt).symm
  | succ amount ih =>
    rw [incrementCounter, ih (unitWalk_inRange h), h.unitWalk_val, Nat.mod_add_mod,
      Nat.add_assoc, Nat.add_comm 1]

/-- Settles O24, by induction on the amount: each unit walk adds 1 modulo 1000^9. -/
theorem incrementValue : Obligations.IncrementValue :=
  fun _ amount h => ⟨h.incrementCounter_val amount, incrementCounter_inRange h amount⟩

/-! ### The digits of a group (R206) -/

theorem digitChar_toNat : ∀ d, d < 10 → (digitChar d).toNat = 48 + d := by decide

theorem digitChar_ne_comma : ∀ d, d < 10 → digitChar d ≠ ',' := by decide

theorem readDigits_snoc_digit (text : List Char) {d : Nat} (hd : d < 10) :
    readDigits (text ++ [digitChar d]) = 10 * readDigits text + d := by
  simp [readDigits, List.filter_append, digitChar_ne_comma d hd, digitChar_toNat d hd]

theorem readDigits_snoc_comma (text : List Char) :
    readDigits (text ++ [',']) = readDigits text := by
  simp [readDigits, List.filter_append]

theorem digits3_of_le {g : Group} (h : g.toNat ≤ 999) :
    digits3 g =
      [digitChar (g.toNat / 100), digitChar (g.toNat / 10 % 10), digitChar (g.toNat % 10)] := by
  rw [digits3, if_pos h]

theorem digits3_length {g : Group} (h : g.toNat ≤ 999) : (digits3 g).length = 3 := by
  rw [digits3_of_le h]
  rfl

/-- The three digits stand before the place of the first comma. -/
theorem digits3_char {g : Group} (h : g.toNat ≤ 999) {j : Nat} {ch : Char}
    (hj : (digits3 g)[j]? = some ch) :
    if j % 4 = 3 then ch = ',' else ∃ d, d < 10 ∧ ch = digitChar d := by
  have hlt : j < 3 := digits3_length h ▸ (List.getElem?_eq_some_iff.mp hj).1
  have hdigits : ∀ ch ∈ digits3 g, ∃ d, d < 10 ∧ ch = digitChar d := by
    rw [digits3_of_le h]
    simp only [List.forall_mem_cons]
    exact ⟨⟨_, by omega, rfl⟩, ⟨_, by omega, rfl⟩, ⟨_, by omega, rfl⟩, nofun⟩
  rw [if_neg (by omega)]
  exact hdigits ch (List.mem_of_getElem? hj)

/-- A group's three digits move what was read up by 1000 and add the group. -/
theorem readDigits_append_digits3 (text : List Char) {g : Group} (h : g.toNat ≤ 999) :
    readDigits (text ++ digits3 g) = 1000 * readDigits text + g.toNat := by
  have hsnoc : text ++ digits3 g = text ++ [digitChar (g.toNat / 100)] ++
      [digitChar (g.toNat / 10 % 10)] ++ [digitChar (g.toNat % 10)] := by
    simp [digits3_of_le h]
  rw [hsnoc, readDigits_snoc_digit _ (by omega), readDigits_snoc_digit _ (by omega),
    readDigits_snoc_digit _ (by omega)]
  omega

/-! ### The rendered groups (R206) -/

theorem renderGroups_cons_cons (g g' : Group) (gs : List Group) :
    renderGroups (g :: g' :: gs) = digits3 g ++ ',' :: renderGroups (g' :: gs) := rfl

theorem renderGroups_snoc {gs : List Group} (hne : gs ≠ []) (g : Group) :
    renderGroups (gs ++ [g]) = renderGroups gs ++ ',' :: digits3 g := by
  induction gs with
  | nil => exact absurd rfl hne
  | cons top rest ih =>
    cases rest with
    | nil => rfl
    | cons next rest =>
      have ih := ih (List.cons_ne_nil _ _)
      simp only [List.cons_append] at ih ⊢
      rw [renderGroups_cons_cons, ih, renderGroups_cons_cons, List.append_assoc, List.cons_append]

theorem renderGroups_length (top : Group) (gs : List Group)
    (h : ∀ g ∈ top :: gs, g.toNat ≤ 999) :
    (renderGroups (top :: gs)).length = 4 * gs.length + 3 := by
  induction gs generalizing top with
  | nil => exact digits3_length (h top (List.mem_singleton_self _))
  | cons next gs ih =>
    obtain ⟨htop, hrest⟩ := List.forall_mem_cons.mp h
    rw [renderGroups_cons_cons, List.length_append, List.length_cons, ih next hrest,
      digits3_length htop, List.length_cons]
    omega

/-- Every fourth character is a comma, the others are digits. -/
theorem renderGroups_char (top : Group) (gs : List Group)
    (h : ∀ g ∈ top :: gs, g.toNat ≤ 999) {j : Nat} {ch : Char}
    (hj : (renderGroups (top :: gs))[j]? = some ch) :
    if j % 4 = 3 then ch = ',' else ∃ d, d < 10 ∧ ch = digitChar d := by
  induction gs generalizing top j with
  | nil => exact digits3_char (h top (List.mem_singleton_self _)) hj
  | cons next gs ih =>
    obtain ⟨htop, hrest⟩ := List.forall_mem_cons.mp h
    have hlen := digits3_length htop
    rw [renderGroups_cons_cons] at hj
    rcases Nat.lt_or_ge j 3 with hj3 | hj3
    · rw [List.getElem?_append_left (by omega)] at hj
      exact digits3_char htop hj
    · obtain ⟨i, rfl⟩ := Nat.exists_eq_add_of_le hj3
      rw [List.getElem?_append_right (by omega), hlen, Nat.add_sub_cancel_left] at hj
      cases i with
      | zero => exact (Option.some.inj hj).symm
      | succ i =>
        rw [show 3 + (i + 1) = i + 4 by omega, Nat.add_mod_right]
        exact ih next hrest hj

/-- The groups rendered from the largest down read as the number they stand for. -/
theorem readDigits_renderGroups_reverse (gs : List Group) (h : ∀ g ∈ gs, g.toNat ≤ 999) :
    readDigits (renderGroups gs.reverse) = groupsVal gs := by
  induction gs with
  | nil => rfl
  | cons g rest ih =>
    obtain ⟨hg, hrest⟩ := List.forall_mem_cons.mp h
    rw [groupsVal, List.reverse_cons, Nat.add_comm]
    rcases eq_or_ne rest [] with rfl | hne
    · exact readDigits_append_digits3 [] hg
    · rw [renderGroups_snoc (List.reverse_ne_nil_iff.mpr hne), List.append_cons,
        readDigits_append_digits3 _ hg, readDigits_snoc_comma, ih hrest]

/-! ### FORMAT (R206, R207) -/

theorem groupsVal_zeros (n : Nat) : groupsVal (List.replicate n 0#16) = 0 := by
  induction n with
  | zero => rfl
  | succ n ih =>
    rw [List.replicate_succ, groupsVal, ih]
    rfl

theorem groupsVal_append_zeros (gs : List Group) (n : Nat) :
    groupsVal (gs ++ List.replicate n 0#16) = groupsVal gs := by
  induction gs with
  | nil => exact groupsVal_zeros n
  | cons g rest ih => rw [List.cons_append, groupsVal, groupsVal, ih]

theorem format_of_zero_groups {c : Counter} (h : ∀ g ∈ c.toList, g = 0#16) (z : List Char) :
    format z c = z := by
  have hnone : c.toList.reverse.dropWhile (· == 0#16) = [] := by
    simpa [List.dropWhile_eq_nil_iff] using h
  rw [format, hnone]

/-- FORMAT renders from the largest group that is not 0 down. -/
theorem format_of_top {c : Counter} {low : List Group} {top : Group} {n : Nat}
    (hc : c.toList = low ++ top :: List.replicate n 0#16) (htop : top ≠ 0#16) (z : List Char) :
    format z c = renderGroups (top :: low.reverse) := by
  have hdrop : c.toList.reverse.dropWhile (· == 0#16) = top :: low.reverse := by
    rw [hc, List.reverse_append, List.reverse_cons, List.reverse_replicate, List.append_assoc,
      List.dropWhile_append_of_pos (by simp), List.singleton_append,
      List.dropWhile_cons_of_neg (by simpa using htop)]
  rw [format, hdrop]

/-- A counter is the groups below the largest that is not 0, that group, and zeros. -/
theorem exists_top {c : Counter} {h : Nat} (hh : h < 9) (htop : c.toList[h]? ≠ some 0#16)
    (hzero : ∀ g, h < g → g < 9 → c.toList[g]? = some 0#16) :
    ∃ low top, low.length = h ∧ top ≠ 0#16 ∧
      c.toList = low ++ top :: List.replicate (8 - h) 0#16 := by
  have hlt : h < c.toList.length := by rwa [counter_toList_length]
  refine ⟨c.toList.take h, c.toList[h], List.length_take_of_le hlt.le, fun heq => ?_, ?_⟩
  · exact htop (by rw [List.getElem?_eq_getElem hlt, heq])
  · have hzeros : List.replicate (8 - h) 0#16 ++ (c.toList.drop (h + 1)).drop (8 - h) =
        c.toList.drop (h + 1) := replicate_append_drop fun j hj => by
      rw [List.getElem?_drop]
      exact hzero _ (by omega) (by omega)
    rw [List.drop_drop, List.drop_of_length_le (by rw [counter_toList_length]; omega),
      List.append_nil] at hzeros
    rw [hzeros, ← List.drop_eq_getElem_cons hlt, List.take_append_drop]

/-- Settles O26: the zeros above the largest group that is not 0 are dropped and count nothing. -/
theorem formatShowsValue : Obligations.FormatShowsValue := by
  intro c z h hrange hh htop hzero
  obtain ⟨low, top, hlow, hne, hc⟩ := exists_top hh htop hzero
  have hsplit : c.toList = low ++ [top] ++ List.replicate (8 - h) 0#16 := by
    rw [hc, List.append_cons]
  have htake : c.toList.take (h + 1) = low ++ [top] := by
    rw [hsplit, List.take_left' (by simp [hlow])]
  have hrev : (low ++ [top]).reverse = top :: low.reverse := List.reverse_concat
  have hle : ∀ g ∈ low ++ [top], g.toNat ≤ 999 := fun g hg =>
    hrange g (List.mem_of_mem_take (htake ▸ hg))
  have hle' : ∀ g ∈ top :: low.reverse, g.toNat ≤ 999 := fun g hg =>
    hle g (List.mem_reverse.mp (hrev ▸ hg))
  rw [format_of_top hc hne, htake, hrev]
  refine ⟨rfl, ?_, fun j ch hj => renderGroups_char top _ hle' hj, ?_⟩
  · rw [renderGroups_length top _ hle', List.length_reverse, hlow]
  · rw [← hrev, readDigits_renderGroups_reverse _ hle, Counter.val, hsplit,
      groupsVal_append_zeros]

/-- Settles O27: no group is left to render. -/
theorem formatZero : Obligations.FormatZero := format_of_zero_groups zero_groups

end Sys2Proof.Machine

/-! ### The obligation that shares its name with a definition of the model -/

namespace Sys2Proof.Proofs

/-- Settles O23: the carry runs over the leading groups at 999 and ends at the first other group. -/
theorem unitWalk : Obligations.UnitWalk := by
  intro c k hlead
  refine ⟨fun hk => ?_, fun _ hg hne => Machine.unitWalk_first_other hlead hg hne⟩
  subst hk
  exact Machine.unitWalk_all_999 hlead

end Sys2Proof.Proofs
end

section
/-! PROOFS. The two commands (R221, R222): START for both modes as one, where the streams answer its REFILL and where they
do not, and what a command leaves alone. -/

namespace Sys2Proof.Machine

/-! ### START for both modes (R222) -/

/-- The command that starts an operation in a mode (R102). -/
def startCommand : Mode → Instr
  | .compress => .compress
  | .decompress => .decompress

/-- The phase of the operation that a mode selects. -/
def startPhase : Mode → Phase
  | .compress => .enc
  | .decompress => .dec

/-- START clears the block and fills the buffer to what its phase may hold. -/
theorem start_eq_refill (m : Mode) (s : State) :
    start m s =
      refill (BitVec.ofNat 8 (fillLimit (startPhase m))) (startInit m (startPhase m) s) := by
  cases m <;> rfl

theorem startFill_toNat (m : Mode) :
    (BitVec.ofNat 8 (fillLimit (startPhase m))).toNat = fillLimit (startPhase m) := by
  cases m <;> rfl

/-- START's REFILL is within its precondition: the buffer is empty. -/
theorem startInit_fits (m : Mode) (s : State) :
    (startInit m (startPhase m) s).remaining.toNat +
        (BitVec.ofNat 8 (fillLimit (startPhase m))).toNat ≤
      fillLimit (startInit m (startPhase m) s).phase := by
  rw [startFill_toNat, startInit_remaining, startInit_phase]
  exact (Nat.zero_add _).le

theorem exec_command {m : Mode} {s : State} (hb : s.busy = false) :
    exec (startCommand m) s = start m s := by
  cases m
  · exact exec_compress hb
  · exact exec_decompress hb

theorem exec_command_busy {m : Mode} {s : State} (hb : s.busy = true) :
    exec (startCommand m) s = .next s := by
  cases m <;> exact if_pos hb

theorem exec_command_total (m : Mode) (s : State) : ∃ t, exec (startCommand m) s = .next t := by
  cases hb : s.busy with
  | true => exact ⟨s, exec_command_busy hb⟩
  | false =>
    rw [exec_command hb]
    exact start_total m s

/-- Settles O17, for each command. -/
theorem commandWhileBusy : Obligations.CommandWhileBusy := fun _ hb =>
  ⟨exec_command_busy (m := .compress) hb, exec_command_busy (m := .decompress) hb⟩

/-! ### Streams that answer (R222, R285) -/

/-- An accepted command whose requests the streams answer. -/
theorem exec_command_refilled {m : Mode} {s : State} (hb : s.busy = false) (hfair : Fair s) :
    ∃ t, exec (startCommand m) s = .next t ∧
      Refilled (fillLimit (startPhase m)) (startInit m (startPhase m) s) t := by
  obtain ⟨t, ht, -, hr⟩ := start_next m s hfair
  refine ⟨t, (exec_command hb).trans ht, ?_⟩
  cases m <;> exact hr

/-- Settles O14: START's writes are `startInit`. -/
theorem startResult : Obligations.StartResult := fun _ hb hfair =>
  ⟨exec_command_refilled (m := .compress) hb hfair,
    exec_command_refilled (m := .decompress) hb hfair⟩

/-- An empty IN leaves the `END` marker in slot 0 (R123). -/
theorem Refilled.start_marked {n : Nat} {m : Mode} {p : Phase} {s t : State}
    (h : Refilled n (startInit m p s) t) (h0 : 0 < n) (hi : s.inp = []) :
    slotAt t 0 = .endMark := by
  obtain ⟨hpos, -⟩ := h.frame
  rw [slotAt, hpos, slotIdx_zero]
  exact h.marked h0 hi rfl

/-- Settles O15: what the REFILL of an empty buffer at slot 0 leaves. -/
theorem startWindow : Obligations.StartWindow := by
  intro s i fill hb hfair hi
  obtain ⟨m, rfl, rfl⟩ : ∃ m, i = startCommand m ∧ fill = fillLimit (startPhase m) := by
    obtain ⟨rfl, rfl⟩ | ⟨rfl, rfl⟩ := hi
    · exact ⟨.compress, rfl, rfl⟩
    · exact ⟨.decompress, rfl, rfl⟩
  obtain ⟨t, ht, hr⟩ := exec_command_refilled (m := m) hb hfair
  obtain ⟨hpos, -⟩ := hr.frame
  exact ⟨t, ht, hr.start_window, hr.taken, hpos, hr.start_marked (by cases m <;> decide)⟩

/-! ### Streams that do not answer (R285) -/

theorem readEvents_of_le {n : Nat} {inp : List Byte} (h : n ≤ inp.length) :
    readEvents n inp = (inp.take n).map .took := by
  rw [readEvents, if_neg (by omega), List.append_nil]

/-- An accepted command of whose REFILL the streams answer the first `n` requests only. -/
theorem exec_command_held {m : Mode} {s : State} {n : Nat} (hb : s.busy = false)
    (ha : s.answers = .upTo n) (hn : n < (readEvents (fillLimit (startPhase m)) s.inp).length) :
    n ≤ s.inp.length ∧
      exec (startCommand m) s = .next (heldReading n (startInit m (startPhase m) s)) := by
  have hnever : (startInit m (startPhase m) s).answers.after
      (readEvents (BitVec.ofNat 8 (fillLimit (startPhase m))).toNat s.inp).length = .never := by
    rw [startFill_toNat, startInit_answers, ha, Answers.after, if_neg (by omega)]
  have hroom : (startInit m (startPhase m) s).answers.room
      (readEvents (BitVec.ofNat 8 (fillLimit (startPhase m))).toNat s.inp).length = n := by
    rw [startFill_toNat, startInit_answers, ha, Answers.upTo_room, Nat.min_eq_left hn.le]
  refine ⟨hroom ▸ (room_readEvents hnever).2, ?_⟩
  rw [exec_command hb, start_eq_refill, refill_held (startInit_fits m s) hnever, startInit_inp, hroom]

/-- Where START's REFILL waits for its request number `n + 1`, what START writes stands and `n` bytes are read. -/
theorem exec_command_hangs {m : Mode} {s : State} {n : Nat} (hb : s.busy = false)
    (ha : s.answers = .upTo n) (hn : n < (readEvents (fillLimit (startPhase m)) s.inp).length) :
    ∃ t, exec (startCommand m) s = .next t ∧ Waits t ∧ t.phase = startPhase m ∧ t.mode = m ∧
      t.err = 0#2 ∧ t.inp = s.inp.drop n ∧ t.cntIn = counterAfter n ∧ t.cntOut = Counter.zero ∧
      t.out = s.out ∧ t.events = s.events ++ (s.inp.take n).map .took := by
  obtain ⟨hle, hexec⟩ := exec_command_held hb ha hn
  obtain ⟨hinp, -, -, hcntIn, -, hevents, hwaits, -, -, -, hcntOut, hphase, hmode, herr, hout, -⟩ :=
    heldReading_spec (s := startInit m (startPhase m) s) hle
  exact ⟨_, hexec, hwaits, hphase, hmode, herr, hinp, hcntIn, hcntOut, hout,
    hevents.trans (congrArg (s.events ++ ·) (readEvents_of_le hle))⟩

/-- Settles O59, for each command. -/
theorem startHangs : Obligations.StartHangs := fun _ _ hb ha =>
  ⟨exec_command_hangs (m := .compress) hb ha, exec_command_hangs (m := .decompress) hb ha⟩

/-! ### The frame of a command (R221, R222, R227) -/

/-- From `s` to `t` the block takes at most `n` bytes from the head of IN, which are all its stream events, and leaves OUT
and the host's side alone; streams that answer every request go on to do so. -/
structure OnlyReads (n : Nat) (s t : State) : Prop where
  out_eq : t.out = s.out
  host_eq : t.host = s.host
  rdata_eq : t.rdata = s.rdata
  tick_eq : t.tick = s.tick
  fair : Fair s → Fair t
  reads : ∃ k, k ≤ n ∧ t.inp = s.inp.drop k ∧ t.events = s.events ++ readEvents k s.inp

theorem Refilled.onlyReads {n : Nat} {s t : State} (h : Refilled n s t) : OnlyReads n s t := by
  obtain ⟨-, -, -, -, -, hout, hhost, hrdata, htick, -⟩ := h.frame
  exact ⟨hout, hhost, hrdata, htick, fun hf => fair_after hf h.answers_eq, n, le_rfl, h.taken,
    h.events_eq⟩

/-- REFILL, completed or held; where the streams answer it is not held. -/
theorem refill_onlyReads {n : Amount} {s t : State} (h : refill n s = .next t) :
    OnlyReads n.toNat s t := by
  obtain ⟨-, ⟨-, -, hr, -⟩ | ⟨hnever, rfl⟩⟩ := refill_cases h
  · exact hr.onlyReads
  · obtain ⟨hn, hj⟩ := room_readEvents hnever
    obtain ⟨hinp, -, -, -, -, hevents, -, -, -, -, -, -, -, -, hout, hhost, hrdata, htick, -⟩ :=
      heldReading_spec hj
    exact ⟨hout, hhost, hrdata, htick, fun hf => absurd hnever (after_ne_never hf _), _, hn, hinp,
      hevents⟩

/-- What START writes before its REFILL is the block's own state only. -/
theorem start_onlyReads {m : Mode} {s t : State} (h : start m s = .next t) :
    OnlyReads (fillLimit (startPhase m)) s t := by
  rw [start_eq_refill] at h
  obtain ⟨hout, hhost, hrdata, htick, hfair, hreads⟩ := refill_onlyReads h
  rw [startFill_toNat] at hreads
  exact ⟨hout, hhost, hrdata, htick, hfair, hreads⟩

/-- Settles O18: a command turned away changes nothing, an accepted one is START. -/
theorem commandFrame : Obligations.CommandFrame := by
  intro i s t hi h
  obtain ⟨m, rfl⟩ : ∃ m, i = startCommand m := by
    obtain rfl | rfl := hi
    · exact ⟨.compress, rfl⟩
    · exact ⟨.decompress, rfl⟩
  cases hb : s.busy with
  | true =>
    rw [exec_command_busy hb] at h
    cases h
    exact ⟨rfl, rfl, rfl, rfl, id, 0, Nat.zero_le _, rfl, by simp⟩
  | false =>
    rw [exec_command hb] at h
    obtain ⟨hout, hhost, hrdata, htick, hfair, k, hk, hreads⟩ := start_onlyReads h
    exact ⟨hout, hhost, hrdata, htick, hfair, k, hk.trans (fillLimit_le _), hreads⟩

end Sys2Proof.Machine
end

section
/-! PROOFS. The sequencer (R226): what selects a step's row, which phase a step leaves (R229), and that the decoder's scan
position moves from code byte to code byte (R232). -/

namespace Sys2Proof.Machine

/-! ### What a step runs (R221, R226) -/

/-- Settles O32: the sequencer's fetch. -/
theorem stepRunsPacket : Obligations.StepRunsPacket := fun _ _ => step_dec

/-- Settles O33: the host's command, as `step_command` has it. -/
theorem stepRunsCommand : Obligations.StepRunsCommand := fun _ _ _ _ => step_command

/-- Settles O35: a quiet step is the sequencer's, which does nothing where no operation runs. -/
theorem runIsOver : Obligations.RunIsOver := fun s hb hquiet => by
  rw [step_quiet hquiet, phaseStep_not_busy (s := beginStep s) hb]

/-- A write of `CTRL` with bit 0 = 1 is the command that bit 1 selects (R38, R102). -/
theorem decodeCtrl_start {v : BitVec 2} (h : v.getLsbD 0 = true) :
    decodeCtrl v = .ok (if v.getLsbD 1 then .decompress else .compress) := if_pos h

/-- A write of `CTRL` with bit 0 = 0 is no command (R38). -/
theorem decodeCtrl_noStart {v : BitVec 2} (h : v.getLsbD 0 = false) :
    decodeCtrl v = .error .noStart := if_neg (Bool.eq_false_iff.mp h)

/-- A block that is BUSY ignores a write of `CTRL`: the sequencer goes on (R221). -/
theorem step_ctrlWrite_busy {s : State} {v : BitVec 2} {rest : List HostEvent}
    (hh : s.host = .ctrlWrite v :: rest) (hb : s.busy = true) : step s = phaseStep (beginStep s) := by
  have hb' : (beginStep s).busy = true := hb
  rw [step_cons hh, eventAction, if_pos hb', phaseStep]

/-- A write of `CTRL` that is no command does nothing (R38). -/
theorem step_ctrlWrite_noStart {s : State} {v : BitVec 2} {rest : List HostEvent}
    (hh : s.host = .ctrlWrite v :: rest) (hv : v.getLsbD 0 = false) :
    step s = phaseStep (beginStep s) := by
  rw [step_cons hh, eventAction, decodeCtrl_noStart hv, ite_self, phaseStep]

/-- Settles O16: the three ways in which a write of `CTRL` is taken. -/
theorem startAcceptance : Obligations.StartAcceptance := by
  intro s v rest hh
  refine ⟨fun hb => ?_, fun hb hv => step_command hb hh (decodeCtrl_start hv), fun hb hv => ?_⟩
  · have hbegin : beginStep { s with host := .wait :: rest } = beginStep s := by
      simp only [beginStep, hh, List.tail_cons]
    rw [step_ctrlWrite_busy hh hb, step_quiet (s := { s with host := .wait :: rest }) (.inr ⟨rest, rfl⟩),
      hbegin]
  · rw [step_ctrlWrite_noStart hh hv, phaseStep_not_busy (s := beginStep s) hb]

/-! ### The phase after a step (R229) -/

theorem not_busy_iff {s : State} :
    s.busy = false ↔ s.phase = .idle ∨ s.phase = .done ∨ s.phase = .error := by
  rw [State.busy]
  cases s.phase <;> simp

/-- The sequencer keeps the phase, or ends the operation. -/
theorem phaseStep_phase {s t : State} (h : phaseStep s = .next t) :
    t.phase = s.phase ∨ (s.phase = .enc ∧ t.phase = .done) ∨
      (s.phase = .dec ∧ (t.phase = .done ∨ t.phase = .error)) := by
  rcases phaseStep_cases h with ⟨-, rfl⟩ | ⟨hp, -, -, ht⟩ | ⟨-, v, p, n, c, -, h0, -, hc⟩ |
    ⟨hp, -, -, rfl⟩ | ⟨hp, b, cause, -, -, rfl⟩ | ⟨-, b, p, n, c, -, hlen, -, hc⟩
  · exact .inl rfl
  · obtain ⟨-, rfl⟩ | ⟨-, rfl⟩ := terminate_cases ht
    · exact .inr (.inl ⟨hp, rfl⟩)
    · exact .inl rfl
  · exact .inl (packet_runsOn h0 hc).phase_eq
  · exact .inr (.inr ⟨hp, .inl rfl⟩)
  · exact .inr (.inr ⟨hp, .inr rfl⟩)
  · exact .inl (packet_runsOn (by omega) hc).phase_eq

/-- START's phase is the one its mode selects, which is bit 1 of the write that starts it (R102, R222). -/
theorem start_phase {m : Mode} {s t : State} (h : start m s = .next t) :
    t.phase = if (modeCode m ++ 1#1).getLsbD 1 then .dec else .enc := by
  obtain ⟨p, ⟨rfl, rfl⟩ | ⟨rfl, rfl⟩, hr⟩ := start_runsOn h
  · exact hr.phase_eq
  · exact hr.phase_eq

/-- Settles O34, by what the host does in the step. -/
theorem phaseTransitions : Obligations.PhaseTransitions := by
  intro s t h
  have noReset : s.host.head? ≠ some .reset → ∀ rest, s.host = .reset :: rest → s.phase = .idle :=
    fun he rest hrest => absurd (by rw [hrest]; rfl) he
  cases step_cases h with
  | sequenced u rd tk hu hstep he =>
    subst hu
    obtain hsame | hend := phaseStep_phase hstep
    · exact .inl ⟨hsame, noReset he⟩
    · exact .inr (.inr (.inr hend))
  | connected bytes answers _ ht he =>
    subst ht
    exact .inl ⟨rfl, noReset (by simp [he])⟩
  | reset ht he =>
    subst ht
    exact .inr (.inl ⟨rfl, List.head?_eq_some_iff.mp he⟩)
  | started m hb hstep he =>
    obtain ⟨rest, hrest⟩ := List.head?_eq_some_iff.mp he
    exact .inr (.inr (.inl ⟨not_busy_iff.mp hb, _, rest, hrest, by cases m <;> rfl,
      start_phase hstep⟩))

/-! ### The decoder's scan position (R232) -/

/-- A `REP` or a `LIT` in DEC leaves the phase, waits where it stands, or moves the scan position by its size. -/
theorem exec_packet_pos {i : Instr} {s t : State} (hi : CopiesPayload i) (hp : s.phase = .dec)
    (h : exec i s = .next t) :
    (t.phase ≠ .dec ∧ t.pos = s.pos) ∨ (Waits t ∧ t.phase = .dec ∧ t.pos = s.pos) ∨
      (t.phase = .dec ∧ t.pos = slotIdx s.pos (1 + i.payloadLen)) := by
  obtain ⟨-, -, -, -, -, -, -, hraised | ⟨-, hphase, hpos, -⟩ | ⟨hwaits, -, hphase, hpos, -⟩⟩ :=
    packetFrame i s t hi h
  · subst hraised
    exact .inl ⟨nofun, rfl⟩
  · exact .inr (.inr ⟨hphase.trans hp, hpos⟩)
  · exact .inr (.inl ⟨hwaits, hphase.trans hp, hpos⟩)

/-- Settles O49, by the rows of the code-byte map (R94). -/
theorem decoderAdvance : Obligations.DecoderAdvance := by
  intro s t c hp hquiet hc h
  by_cases hw : Waits s
  · rw [step_quiet hquiet, phaseStep_waits (s := beginStep s) hw] at h
    cases h
    exact .inr (.inl ⟨hw, hp, rfl⟩)
  rw [step_dec hp hquiet hw hc] at h
  obtain rfl | rfl | ⟨h1, h2⟩ | h81 := codeByte_cases c
  · cases h
    exact .inl ⟨nofun, rfl⟩
  · cases h
    exact .inl ⟨nofun, rfl⟩
  · rw [decodeCode_rep h1 h2] at h
    exact (exec_packet_pos (s := beginStep s) ⟨_, .inl rfl⟩ hp h).imp_right
      (.imp_right fun ⟨hphase, hpos⟩ => .inr ⟨hphase, h1, h2, hpos⟩)
  · have hlen : (codeLength c).toNat = c.toNat - 0x80 := by
      rw [codeLength_toNat]
      omega
    rw [decodeCode_lit h81] at h
    have hmoved := exec_packet_pos (s := beginStep s) ⟨_, .inr rfl⟩ hp h
    rw [payloadLen_lit, hlen] at hmoved
    exact hmoved.imp_right (.imp_right fun ⟨hphase, hpos⟩ => .inl ⟨hphase, h81, hpos⟩)

end Sys2Proof.Machine
end

section
/-! PROOFS. That a block which meets its invariants always has a step (R226, U6, U7), and that a word placed for the next
fetch is what the next step runs (log 13). -/

namespace Sys2Proof.Machine

/-! ### Operations that answer a next state (R121, R147) -/

/-- A sequence answers a next state where its second part does, or where the block waits in the first. -/
theorem andThen_total {s : State} {f : State → Result} (h : ∃ t, f s = .next t) :
    ∃ t, andThen (.next s) f = .next t := by
  by_cases hw : Waits s
  · exact ⟨s, if_pos hw⟩
  · obtain ⟨t, ht⟩ := h
    exact ⟨t, (if_neg hw).trans ht⟩

theorem refill_total {n : Amount} {s : State}
    (h : s.remaining.toNat + n.toNat ≤ fillLimit s.phase) : ∃ t, refill n s = .next t :=
  ⟨_, if_pos h⟩

/-- CONSUME of what is in the buffer: its REFILL has the room that it has made. -/
theorem consume_total {c : Amount} {s : State} (hc : c.toNat ≤ s.remaining.toNat)
    (hl : s.remaining.toNat ≤ fillLimit s.phase) : ∃ t, consume c s = .next t := by
  obtain ⟨t, ht⟩ := refill_total (n := c) (s := cull c s) (by
    rw [cull_remaining_toNat hc, cull_phase]
    omega)
  rw [consume, if_pos hc, ht]
  exact andThen_total ⟨_, rfl⟩

theorem packet_total {p : List Byte} {n c : Amount} {s : State} (hc : c.toNat ≤ s.remaining.toNat)
    (hl : s.remaining.toNat ≤ fillLimit s.phase) : ∃ t, packet p n c s = .next t :=
  andThen_total (consume_total (by simpa using hc) (by simpa using hl))

/-- A packet of `k` symbols, as the encoder counts them. -/
theorem packet_ofNat_total {p : List Byte} {n : Amount} {k : Nat} {s : State}
    (hk : k ≤ s.remaining.toNat) (hl : s.remaining.toNat ≤ fillLimit s.phase) :
    ∃ t, packet p n (BitVec.ofNat 8 k) s = .next t := by
  refine packet_total ?_ hl
  rw [BitVec.toNat_ofNat]
  exact (Nat.mod_le _ _).trans hk

theorem terminate_total (s : State) : ∃ t, terminate s = .next t := andThen_total ⟨_, rfl⟩

/-! ### The instructions and the encoder's step -/

/-- A part of the valid span reads as bytes (R28). -/
theorem BufferInv.spanBytes_total {s : State} (hs : BufferInv s) {off n : Nat}
    (h : off + n ≤ s.remaining.toNat) : ∃ bs, spanBytes s off n = some bs :=
  spanBytes_isSome s off n fun k hk => hs.span (off + k) (by omega)

/-- A `REP` or a `LIT` either misses payload and raises, or finds all of it in the valid span (R175). -/
theorem exec_packet_total {i : Instr} {s : State} (hi : CopiesPayload i) (hs : BufferInv s) :
    ∃ t, exec i s = .next t := by
  by_cases hlen : s.remaining.toNat < 1 + i.payloadLen
  · exact ⟨_, exec_truncated hi hlen⟩
  · have hlen := Nat.le_of_not_lt hlen
    obtain ⟨payload, hpayload⟩ := hs.spanBytes_total hlen
    obtain ⟨n, c, -, hc, hexec⟩ := exec_buffered hi hlen hpayload
    rw [hexec]
    exact packet_total (hc ▸ hlen) hs.cap

/-- Every instruction answers a next state on a buffer that meets its invariant. -/
theorem exec_total (i : Instr) {s : State} (hs : BufferInv s) : ∃ t, exec i s = .next t := by
  cases i with
  | endStream | reserved80 => exact ⟨_, rfl⟩
  | rep count => exact exec_packet_total ⟨count, .inl rfl⟩ hs
  | lit length => exact exec_packet_total ⟨length, .inr rfl⟩ hs
  | compress => exact exec_command_total .compress s
  | decompress => exact exec_command_total .decompress s

/-- An iteration on a window that is not empty: the packet stands for symbols of the window only (R143, R152). -/
theorem encIter_total {s : State} (hs : BufferInv s) (hp : s.phase = .enc)
    (hr : 1 ≤ s.remaining.toNat) (v : Byte) : ∃ t, encIter v s = .next t := by
  obtain ⟨w, hw, hlen⟩ := hs.window_some
  by_cases hrun : 1 < runDetect s
  · have hle : runDetect s ≤ s.remaining.toNat := by
      obtain ⟨b, rest, rfl⟩ := List.exists_cons_of_length_pos (l := w) (by omega)
      rw [runDetect_eq hs hp hw, ← hlen]
      exact (headRun_bounds b rest).2
    rw [encIter_rep hrun]
    exact packet_ofNat_total hle hs.cap
  · have hle := litScan_le_remaining hs hp hr
    obtain ⟨payload, hpayload⟩ := hs.spanBytes_total (off := 0) (n := litScan s) (by omega)
    rw [encIter_lit hrun hpayload]
    exact packet_ofNat_total hle hs.cap

/-! ### The step -/

/-- At a loop head a byte stands at the scan position, or the marker: never `EMPTY` (R28, R123). -/
theorem scanPosition_cases {s : State} (hs : BufferInv s) (hr : RunInv s) (hbusy : s.busy = true) :
    slotAt s 0 = .endMark ∨ (1 ≤ s.remaining.toNat ∧ ∃ b, slotAt s 0 = .byte b) := by
  obtain hzero | hpos := Nat.eq_zero_or_pos s.remaining.toNat
  · exact .inl (hr.marked hbusy (BitVec.eq_of_toNat_eq hzero))
  · exact .inr ⟨hpos, hs.span 0 hpos⟩

/-- The sequencer always has a step from a block that meets the invariants. -/
theorem phaseStep_total {s : State} (h : BlockInv s) : ∃ t, phaseStep s = .next t := by
  by_cases hw : Waits s
  · exact ⟨s, phaseStep_waits hw⟩
  have hs := h.buffer hw
  have hhead := scanPosition_cases hs (h.run hw)
  cases hp : s.phase with
  | idle | done | error => exact ⟨s, phaseStep_not_busy (by rw [State.busy, hp])⟩
  | enc =>
    rw [phaseStep_enc hp hw]
    obtain hm | ⟨hr, b, hb⟩ := hhead (by rw [State.busy, hp])
    · exact encStep_end hm ▸ terminate_total s
    · exact encStep_byte hb ▸ encIter_total hs hp hr b
  | dec =>
    obtain hm | ⟨-, b, hb⟩ := hhead (by rw [State.busy, hp])
    · exact ⟨_, phaseStep_dec_end hp hw hm⟩
    · exact phaseStep_dec hp hw hb ▸ exec_total (decodeCode b) hs

theorem hostOffends_read {s : State} {num : Nat} {rest : List HostEvent}
    (hh : s.host = .read num :: rest) : HostOffends s ↔ readReg s num = none := by
  rw [HostOffends, hh]

theorem hostOffends_connect {s : State} {bytes : List Byte} {answers : Answers}
    {rest : List HostEvent} (hh : s.host = .connect bytes answers :: rest) :
    HostOffends s ↔ s.busy = true := by
  rw [HostOffends, hh]

/-- What the host does leaves a step to take, where it is no offence (log 9, log 10). -/
theorem eventAction_total {e : HostEvent} {rest : List HostEvent} {s : State} (h : BlockInv s)
    (hh : s.host = e :: rest) (hoff : ¬HostOffends s) :
    ∃ t, settle (eventAction e (beginStep s)) = .next t := by
  have hbegin : BlockInv (beginStep s) := h.host s.rdata s.tick
  cases e with
  | wait => exact phaseStep_total hbegin
  | reset => exact ⟨_, rfl⟩
  | ctrlWrite v =>
    rw [eventAction]
    split
    · exact phaseStep_total hbegin
    · rename_i hb
      split
      · rename_i i hi
        exact exec_total i (hbegin.buffer fun hw => hb (hbegin.waits hw))
      · exact phaseStep_total hbegin
  | read num =>
    rw [hostOffends_read hh] at hoff
    obtain ⟨v, hv⟩ := Option.ne_none_iff_exists'.mp hoff
    have hv : readReg (beginStep s) num = some v := hv
    rw [eventAction, hv]
    exact phaseStep_total (h.host v (s.tick + 1))
  | connect bytes answers =>
    rw [hostOffends_connect hh] at hoff
    rw [eventAction, if_neg (c := (beginStep s).busy = true) hoff]
    exact ⟨_, phaseStep_not_busy (Bool.eq_false_iff.mpr hoff)⟩

/-- Settles O47: the sequencer has a step, and so has every event of the host that is no offence. -/
theorem neverStops : Obligations.NeverStops := by
  intro s h hoff
  cases hh : s.host with
  | nil =>
    rw [step_quiet_nil hh]
    exact phaseStep_total (h.host s.rdata s.tick)
  | cons e rest =>
    rw [step_cons hh]
    exact eventAction_total h hh hoff

/-! ### Placed words (log 13) -/

theorem payloadLen_le (i : Instr) : i.payloadLen ≤ 127 := by
  cases i with
  | endStream | reserved80 | compress | decompress => exact Nat.zero_le _
  | rep count => exact (Laws.PacketSize.rep count).1
  | lit length => exact (Laws.PacketSize.lit length).1

/-- Bytes placed from `base + off` on leave the slots before them alone, up to one lap round the buffer. -/
theorem read_placeBytes {base : SlotIdx} {off k : Nat} {bytes : List Byte} (m : SlotMemory)
    (hk : k < off) (hlen : off + bytes.length ≤ 128) :
    SlotMemory.read (placeBytes base off bytes m) (slotIdx base k) =
      SlotMemory.read m (slotIdx base k) := by
  induction bytes generalizing off m with
  | nil => rfl
  | cons b rest ih =>
    rw [List.length_cons] at hlen
    have hne : slotIdx base k ≠ slotIdx base off := by
      rw [ne_eq, slotIdx_inj base (by omega) (by omega)]
      omega
    rw [placeBytes, ih _ (by omega) (by omega), SlotMemory.read_write_other _ _ hne]

/-- The code byte of a placed packet stands at the scan position. -/
theorem slotAt_placePacket {c : Byte} {payload : List Byte} (h : payload.length ≤ 127) (s : State) :
    slotAt (placePacket (c :: payload) s) 0 = .byte c := by
  have hread := read_placeBytes (base := s.pos) (k := 0) (bytes := payload)
    (SlotMemory.write [] (slotIdx s.pos 0) (.byte c)) Nat.one_pos (by omega)
  exact hread.trans (SlotMemory.read_write_same _ _ _)

/-- A placed packet is fetched by the next step: the block is in DEC and does not wait. -/
theorem step_placePacket {c : Byte} {payload : List Byte} (h : payload.length ≤ 127) (s : State) :
    step (placePacket (c :: payload) s) =
      exec (decodeCode c) (beginStep (placePacket (c :: payload) s)) :=
  step_dec rfl (.inr ⟨s.host, rfl⟩) (Answers.released_ne s.answers) (slotAt_placePacket h s)

/-- A placed command is accepted by the next step: the block is not BUSY. -/
theorem step_placeCommand {v : BitVec 2} {i : Instr} (h : decodeCtrl v = .ok i) (s : State) :
    step (placeCommand v s) = exec i (beginStep (placeCommand v s)) := by
  refine step_command ?_ rfl h
  rw [not_busy_iff, placeCommand]
  cases hb : s.busy with
  | true => exact .inl rfl
  | false => exact not_busy_iff.mp hb

/-- The bytes of a table word are a code byte and the payload it declares. -/
theorem tableBytes_eq_cons (nbits w : Nat) :
    ∃ c payload, tableBytes nbits w = c :: payload ∧
      payload.length = (decodeCode c).payloadLen :=
  ⟨_, _, rfl, by rw [List.length_map, List.length_range]⟩

/-- A code byte with exactly the payload it declares reads as a packet (R93). -/
theorem decodePacket_exact {c : Byte} {payload : List Byte}
    (h : payload.length = (decodeCode c).payloadLen) :
    decodePacket (c :: payload) = .ok (decodeCode c, payload, []) :=
  decodePacket_eq_ok.mpr ⟨c, by rw [List.append_nil], rfl, h⟩

/-- What a table word reads as: a command, or the packet that its bytes are (log 12). -/
theorem decodeTableWord_cases {nbits w : Nat} {i : Instr} (h : decodeTableWord nbits w = some i) :
    (isTableCommand nbits w = true ∧ decodeCtrl (BitVec.ofNat 2 w) = .ok i) ∨
      (isTableCommand nbits w = false ∧ ∃ c payload, tableBytes nbits w = c :: payload ∧
        payload.length = i.payloadLen ∧ decodeCode c = i) := by
  rw [decodeTableWord] at h
  cases hcmd : isTableCommand nbits w with
  | true =>
    rw [if_pos hcmd] at h
    cases hi : decodeCtrl (BitVec.ofNat 2 w) with
    | ok j =>
      rw [hi] at h
      exact .inl ⟨rfl, congrArg Except.ok (Option.some.inj h)⟩
    | error e =>
      rw [hi] at h
      cases h
  | false =>
    obtain ⟨c, payload, hbytes, hlen⟩ := tableBytes_eq_cons nbits w
    rw [if_neg (Bool.eq_false_iff.mp hcmd), hbytes, decodePacket_exact hlen] at h
    obtain rfl : decodeCode c = i := Option.some.inj h
    exact .inr ⟨rfl, c, payload, hbytes, hlen, rfl⟩

/-- Settles O7: a command and a packet are each placed where the next step takes them. -/
theorem placedWordRuns : Obligations.PlacedWordRuns := by
  intro s nbits w i h
  rw [State.withFetchWord, placeTableWord]
  obtain ⟨hcmd, hi⟩ | ⟨hcmd, c, payload, hbytes, hlen, rfl⟩ := decodeTableWord_cases h
  · rw [if_pos hcmd]
    exact step_placeCommand hi s
  · rw [if_neg (Bool.eq_false_iff.mp hcmd), hbytes]
    exact step_placePacket (hlen ▸ payloadLen_le _) s

end Sys2Proof.Machine
end

section
/-! PROOFS. The block's one exception (60_exceptions.md): the order of the decoder's tests that can raise it (R247), and
that it stays until START or reset (R248). -/

namespace Sys2Proof.Machine

/-! ### The order of the tests (R247) -/

/-- At a code byte whose packet is larger than what the buffer holds, the step raises and does nothing else (R175). -/
theorem step_dec_truncated {s : State} {c : Byte} (hp : s.phase = .dec) (hquiet : HostQuiet s)
    (hw : ¬Waits s) (hc : slotAt s 0 = .byte c) (hi : CopiesPayload (decodeCode c))
    (hlen : s.remaining.toNat < 1 + (decodeCode c).payloadLen) :
    step s = .next (raise .truncatedPacket (beginStep s)) :=
  (step_dec hp hquiet hw hc).trans (exec_truncated (s := beginStep s) hi hlen)

/-- Settles O13: the marker and the two single code bytes are tested whatever is buffered, the size of a packet last. -/
theorem decoderTestOrder : Obligations.DecoderTestOrder := by
  intro s hp hquiet hw
  have hstop := (endStops s).2 hp hquiet hw
  have hreserved := (reservedRaises s).2 hp hquiet hw
  refine ⟨fun hm => hstop (.inl hm), fun c hc => ⟨fun h0 => hstop (.inr (h0 ▸ hc)),
    fun h80 => hreserved (h80 ▸ hc), fun h1 h2 hlen => ?_, fun h hlen => ?_⟩⟩
  · have hrep := decodeCode_rep h1 h2
    exact step_dec_truncated hp hquiet hw hc ⟨_, .inl hrep⟩ (by rwa [hrep, payloadLen_rep])
  · have hlit := decodeCode_lit h
    have hsize : (codeLength c).toNat = c.toNat - 0x80 := by
      rw [codeLength_toNat]
      omega
    exact step_dec_truncated hp hquiet hw hc ⟨_, .inr hlit⟩ (by rwa [hlit, payloadLen_lit, hsize])

/-! ### The ways out of ERROR (R248) -/

/-- START leaves a running block with `err` cleared, also where it waits in its REFILL (R222). -/
theorem start_busy_err {m : Mode} {s t : State} (h : start m s = .next t) :
    t.busy = true ∧ t.err = 0#2 := by
  obtain ⟨p, hp, hr⟩ := start_runsOn h
  refine ⟨(busy_congr hr.phase_eq).trans ?_, hr.err_eq⟩
  obtain ⟨rfl, -⟩ | ⟨rfl, -⟩ := hp <;> rfl

/-- Settles O36, by what the host does in the step: the sequencer itself does nothing in ERROR. -/
theorem errorIsSticky : Obligations.ErrorIsSticky := by
  intro s t hp h
  have hb : (beginStep s).busy = false := not_busy_iff.mpr (.inr (.inr hp))
  cases step_cases h with
  | sequenced u rd tk hu hstep _ =>
    have hub : u.busy = false := (busy_congr (by rw [hu])).trans hb
    rw [phaseStep_not_busy hub] at hstep
    cases hstep
    subst hu
    exact .inl ⟨hp, rfl⟩
  | connected bytes answers _ ht _ =>
    subst ht
    exact .inl ⟨hp, rfl⟩
  | reset ht he =>
    subst ht
    obtain ⟨rest, hrest⟩ := List.head?_eq_some_iff.mp he
    exact .inr (.inl ⟨rest, hrest, rfl, rfl⟩)
  | started m _ hstart he =>
    obtain ⟨rest, hrest⟩ := List.head?_eq_some_iff.mp he
    exact .inr (.inr ⟨_, rest, hrest, by cases m <;> rfl, start_busy_err hstart⟩)

end Sys2Proof.Machine
end

section
/-! PROOFS. Reset (R270) and hangs (R285): a block that waits, and how the number of requests that the streams answer
cuts a step short. Every operation of the step is run under the fairness assumption and with a bound on its events, and
does the same up to the bound. -/

namespace Sys2Proof.Machine

/-! ### Reset, and a block that waits (R270, R285) -/

theorem step_reset {s : State} {rest : List HostEvent} (h : s.host = .reset :: rest) :
    step s = .next (hardReset (beginStep s)) := step_cons h

theorem hardReset_not_waits (s : State) : ¬Waits (hardReset s) := Answers.released_ne s.answers

/-- Settles O37: the state after reset, field by field. -/
theorem resetInAnyPhase : Obligations.ResetInAnyPhase := fun s _ hh =>
  ⟨_, step_reset hh, SlotMemory.read_nil, rfl, rfl, rfl, zero_groups, zero_groups, rfl, rfl, rfl,
    rfl, rfl, hardReset_not_waits (beginStep s)⟩

theorem phaseCode_busy {s : State} (hb : s.busy = true) : phaseCode s.phase = 1#2 := by
  cases hp : s.phase with
  | enc | dec => rfl
  | idle | done | error => simp [State.busy, hp] at hb

/-- Settles O58, by what the host does: but for reset, the step is the sequencer's, which does nothing. -/
theorem hangStays : Obligations.HangStays := by
  intro s hw hb
  have hstays : phaseStep (beginStep s) = .next (beginStep s) := phaseStep_waits hw
  refine ⟨(statusWord_phase s).trans (phaseCode_busy hb), fun hquiet => ?_, fun v rest hh => ?_,
    fun num v rest hh hv => ?_, fun rest hh => ?_⟩
  · rw [step_quiet hquiet, hstays]
  · rw [step_ctrlWrite_busy hh hb, hstays]
  · rw [step_read hh hv, phaseStep_readBlind, hstays]
    rfl
  · exact ⟨_, step_reset hh, rfl, hardReset_not_waits _, rfl, rfl⟩

/-- A block that waits does so inside an operation. -/
def WaitsInRun (s : State) : Prop := Waits s → s.busy = true

/-- A request that the block waits for is one of TERMINATE, of a packet, or of START. -/
theorem step_waitsInRun {s t : State} (hs : WaitsInRun s) (h : step s = .next t) : WaitsInRun t := by
  refine step_keeps (P := WaitsInRun) (fun _ _ _ hs => hs)
    (fun _ _ answers _ _ hw => absurd hw (Answers.released_ne answers))
    (fun s hw => absurd hw (hardReset_not_waits s)) (fun _ _ _ h _ => (start_busy_err h).1) ?_ hs h
  intro s t
  refine phaseStep_keeps (P := WaitsInRun) ?_ (fun _ _ hnot _ hw => absurd hw hnot)
    (fun _ _ _ hnot _ hw => absurd hw hnot) ?_
  · intro s t hp _ _ h hw
    obtain ⟨ha, rfl⟩ | ⟨-, rfl⟩ := terminate_cases h
    · exact absurd hw ha
    · simp [State.busy, hp]
  · intro p n c s t hb _ h0 _ h _
    exact (busy_congr (packet_runsOn h0 h).phase_eq).trans hb

/-! ### Streams that answer up to a bound -/

/-- `s` with other streams. -/
def withAnswers (a : Answers) (s : State) : State := { s with answers := a }

/-- `s` with streams that answer until `bound` stream events are recorded. -/
def limit (bound : Nat) (s : State) : State := withAnswers (.upTo (bound - s.events.length)) s

/-- How an operation that begins with the events `es` and answers `t` under the fairness assumption ends where the
streams answer up to `bound` events: its outcome is then `r`. -/
structure CutAt (bound : Nat) (es : List StreamEvent) (t : State) (r : Result) : Prop where
  fair : Fair t
  grows : es <+: t.events
  /-- All its requests are answered. -/
  answered : t.events.length ≤ bound → r = .next (limit bound t)
  /-- The block waits for one of them. -/
  held : bound < t.events.length → ∃ u, r = .next u ∧ Waits u ∧ u.events = t.events.take bound

/-- An operation for which the streams' answers matter at its requests alone. -/
def Cuttable (f : State → Result) : Prop :=
  ∀ bound s t, Fair s → s.events.length ≤ bound → f s = .next t →
    CutAt bound s.events t (f (limit bound s))

section
variable {bound k : Nat} {s : State}

theorem limit_not_waits : ¬Waits (limit bound s) := nofun

/-- Streams that answer the next `k` requests within the bound. -/
theorem limit_after (h : s.events.length + k ≤ bound) :
    (limit bound s).answers.after k = .upTo (bound - (s.events.length + k)) :=
  (if_pos (by omega)).trans (by rw [Nat.sub_sub])

/-- Streams that do not. -/
theorem limit_after_never (hle : s.events.length ≤ bound) (h : bound < s.events.length + k) :
    (limit bound s).answers.after k = .never := if_neg (by omega)

theorem limit_room (h : bound < s.events.length + k) :
    (limit bound s).answers.room k = bound - s.events.length := Nat.min_eq_left (by omega)

end

/-! ### What is read of the state -/

theorem runFrom_congr {s t : State} (hb : t.buf = s.buf) (hp : t.pos = s.pos) (fuel run : Nat) :
    runFrom t fuel run = runFrom s fuel run := by
  induction fuel generalizing run with
  | zero => rfl
  | succ fuel ih => simp only [runFrom, slotAt_congr hb hp, ih]

theorem litFrom_congr {s t : State} (hb : t.buf = s.buf) (hp : t.pos = s.pos) (fuel len : Nat) :
    litFrom t fuel len = litFrom s fuel len := by
  induction fuel generalizing len with
  | zero => rfl
  | succ fuel ih => simp only [litFrom, slotAt_congr hb hp, ih]

section
variable (bound : Nat) (s : State)

@[simp] theorem limit_inp : (limit bound s).inp = s.inp := rfl
@[simp] theorem limit_busy : (limit bound s).busy = s.busy := rfl
@[simp] theorem slotAt_limit (k : Nat) : slotAt (limit bound s) k = slotAt s k := rfl

@[simp] theorem spanBytes_limit (off n : Nat) :
    spanBytes (limit bound s) off n = spanBytes s off n :=
  spanBytes_congr (s := s) (t := limit bound s) rfl rfl off n

@[simp] theorem runDetect_limit : runDetect (limit bound s) = runDetect s :=
  runFrom_congr (s := s) (t := limit bound s) rfl rfl _ _

@[simp] theorem litScan_limit : litScan (limit bound s) = litScan s :=
  litFrom_congr (s := s) (t := limit bound s) rfl rfl _ _

end

/-! ### How operations are composed -/

/-- An operation that makes no request. -/
theorem Cuttable.next {f : State → State} (hf : ∀ a s, f (withAnswers a s) = withAnswers a (f s))
    (he : ∀ s, (f s).events = s.events) : Cuttable fun s => .next (f s) := by
  rintro bound s _ hs hle ⟨⟩
  have hfix : f s = withAnswers s.answers (f s) := hf s.answers s
  refine ⟨?_, (he s).symm ▸ List.prefix_rfl, fun _ => ?_, fun hlt => ?_⟩
  · rw [Fair, hfix]
    exact hs
  · exact congrArg Host.Outcome.next (by rw [limit, limit, hf, he])
  · rw [he] at hlt
    omega

/-- A test that does not look at the streams. -/
theorem Cuttable.ite {p : State → Prop} [DecidablePred p] {f g : State → Result} (hf : Cuttable f)
    (hg : Cuttable g) (hp : ∀ bound s, p (limit bound s) ↔ p s) :
    Cuttable fun s => if p s then f s else g s := by
  intro bound s t hs hle
  by_cases hps : p s
  · simp only [hp, if_pos hps]
    exact hf bound s t hs hle
  · simp only [hp, if_neg hps]
    exact hg bound s t hs hle

/-- `andThen` answers what its second operation does, unless the block waits. -/
theorem andThen_next {r : Result} {g : State → Result} {v : State} (h : andThen r g = .next v) :
    ∃ t, r = .next t ∧ (¬Waits t → g t = .next v) := by
  cases r with
  | next t => exact ⟨t, rfl, fun hw => by rwa [andThen, if_neg hw] at h⟩
  | fault e => cases h
  | refused e => cases h

/-- Two operations in a row: the bound falls into the second, or it cuts the first, and then nothing of the second is
done. -/
theorem Cuttable.andThen {f g : State → Result} (hf : Cuttable f) (hg : Cuttable g) :
    Cuttable fun s => andThen (f s) g := by
  intro bound s v hs hle h
  obtain ⟨t, ht, hv⟩ := andThen_next h
  obtain ⟨hfair, hgrows, hanswered, hheld⟩ := hf bound s t hs hle ht
  have hv := hv (not_waits_of_fair hfair)
  obtain hle' | hlt := le_or_gt t.events.length bound
  · obtain ⟨hfair', hgrows', hanswered', hheld'⟩ := hg bound t v hfair hle' hv
    simp only [hanswered hle', Machine.andThen, if_neg limit_not_waits]
    exact ⟨hfair', hgrows.trans hgrows', hanswered', hheld'⟩
  · obtain ⟨hfair', hgrows', -, -⟩ := hg t.events.length t v hfair le_rfl hv
    have hlt' := hlt.trans_le hgrows'.length_le
    obtain ⟨u, hu, hw, hevents⟩ := hheld hlt
    simp only [hu, Machine.andThen, if_pos hw]
    refine ⟨hfair', hgrows.trans hgrows', fun hle => by omega, fun _ => ⟨u, rfl, hw, ?_⟩⟩
    rw [hevents]
    exact (hgrows'.take bound).eq_of_length (by simp; omega)

/-! ### The operations that make requests -/

/-- A row of requests with the events `es`: all of them are answered, or those up to the bound. -/
theorem CutAt.of_requests {bound : Nat} {s t u : State} {es : List StreamEvent}
    (hle : s.events.length ≤ bound) (ht : Fair t) (he : t.events = s.events ++ es)
    (hall : s.events.length + es.length ≤ bound → u = limit bound t)
    (hcut : bound < s.events.length + es.length →
      Waits u ∧ u.events = s.events ++ es.take (bound - s.events.length)) :
    CutAt bound s.events t (.next u) where
  fair := ht
  grows := he ▸ List.prefix_append _ _
  answered h := congrArg _ (hall (by rwa [he, List.length_append] at h))
  held h := by
    obtain ⟨hw, hu⟩ := hcut (by rwa [he, List.length_append] at h)
    exact ⟨u, rfl, hw, by rw [hu, he, List.take_append, List.take_of_length_le hle]⟩

theorem outWrites_cuttable (bs : List Byte) : Cuttable fun s => .next (outWrites bs s) := by
  rintro bound s _ hs hle ⟨⟩
  have hfair := outWrites_answered (after_ne_never hs bs.length)
  rw [show s.answers = .always from hs, Answers.always_after] at hfair
  rw [hfair]
  refine .of_requests hle rfl rfl (fun h => ?_) fun h => ⟨?_, ?_⟩
  · rw [List.length_map] at h
    have ha := limit_after h
    rw [outWrites_answered (by rw [ha]; exact nofun), ha]
    simp only [limit, withAnswers, List.length_append, List.length_map]
  · rw [List.length_map] at h
    exact (outWrites_answers bs _).trans (limit_after_never hle h)
  · rw [List.length_map] at h
    rw [outWrites_eq, limit_room h, List.map_take]
    rfl

@[simp] theorem withAnswers_inp (a : Answers) (s : State) : (withAnswers a s).inp = s.inp := rfl
@[simp] theorem withAnswers_answers (a : Answers) (s : State) : (withAnswers a s).answers = a := rfl
@[simp] theorem withAnswers_remaining (a : Answers) (s : State) :
    (withAnswers a s).remaining = s.remaining := rfl

theorem storeBytes_withAnswers (a : Answers) (bs : List Byte) (s : State) :
    storeBytes bs (withAnswers a s) = withAnswers a (storeBytes bs s) := by
  induction bs generalizing s with
  | nil => rfl
  | cons b rest ih => exact ih (storeByte b s)

/-- REFILL's loop with other streams, where they too answer all its requests. -/
theorem refillFrom_withAnswers {a : Answers} {k n : Nat} {s : State}
    (hs : s.answers.after (readEvents n s.inp).length ≠ .never)
    (ha : a.after (readEvents n s.inp).length ≠ .never) :
    refillFrom k n (withAnswers a s) =
      withAnswers (a.after (readEvents n s.inp).length) (refillFrom k n s) := by
  rw [refillFrom_eq, refillFrom_eq, withAnswers_inp, withAnswers_answers, withAnswers_remaining,
    if_neg hs, if_neg ha]
  by_cases hm : k = 0 ∧ 0 < n ∧ s.inp = [] ∧ s.remaining = 0#8
  · have hone : (readEvents n s.inp).length = 1 := by
      obtain ⟨-, h0, hi, -⟩ := hm
      rw [readEvents_length, hi, List.length_nil]
      omega
    rw [if_pos hm, if_pos hm, hone]
    rfl
  · rw [if_neg hm, if_neg hm, ← storeBytes_withAnswers]
    rfl

/-- The first events of a REFILL that does not get as far as its last request. -/
theorem take_readEvents {j n : Nat} {inp : List Byte} (h : j < (readEvents n inp).length) :
    (readEvents n inp).take j = readEvents j inp := by
  rw [readEvents_length] at h
  rw [readEvents_of_le (n := j) (by omega), readEvents,
    List.take_append_of_le_length (by simp; omega), ← List.map_take, List.take_take,
    Nat.min_eq_left (by omega)]

theorem refill_cuttable (n : Amount) : Cuttable (refill n) := by
  intro bound s t hs hle h
  obtain ⟨hpre, ⟨-, hn, hr, -⟩ | ⟨hn, -⟩⟩ := refill_cases h
  · have ht : refillFrom 0 n.toNat s = t := by simpa [refill, hpre] using h
    have hl : refill n (limit bound s) = .next (refillFrom 0 n.toNat (limit bound s)) := if_pos hpre
    rw [hl]
    refine .of_requests hle (fair_after hs hr.answers_eq) hr.events_eq (fun hall => ?_) fun hcut => ?_
    · have ha := limit_after hall
      have hnow := refillFrom_withAnswers (k := 0) (a := (limit bound s).answers) hn (by rw [ha]; exact nofun)
      rw [ha, ht] at hnow
      unfold limit
      rw [hr.events_eq, List.length_append]
      exact hnow
    · have hnever := limit_after_never hle hcut
      have hj : bound - s.events.length ≤ s.inp.length := limit_room hcut ▸ (room_readEvents hnever).2
      obtain ⟨-, -, -, -, -, hevents, hw, -⟩ := heldReading_spec (s := limit bound s) hj
      rw [refillFrom_eq, limit_inp, if_pos hnever, limit_room hcut, take_readEvents (by omega)]
      exact ⟨hw, hevents⟩
  · exact absurd hn (after_ne_never hs _)

theorem consume_cuttable (c : Amount) : Cuttable (consume c) :=
  .ite (.andThen (fun bound s => refill_cuttable c bound (cull c s)) (.next (fun _ _ => rfl) fun _ => rfl))
    (fun _ _ _ _ _ => nofun) fun _ _ => .rfl

theorem packet_cuttable (p : List Byte) (n c : Amount) : Cuttable (packet p n c) :=
  .andThen (fun bound s => outWrites_cuttable p bound (increment .output n s)) (consume_cuttable c)

theorem start_cuttable (m : Mode) : Cuttable (start m) := by
  intro bound s
  cases m with
  | compress => exact refill_cuttable _ bound (startInit .compress .enc s)
  | decompress => exact refill_cuttable _ bound (startInit .decompress .dec s)

/-! ### The instructions and the encoder's step -/

theorem raise_cuttable (cause : Cause) : Cuttable fun s => .next (raise cause s) :=
  .next (fun _ _ => rfl) fun _ => rfl

theorem stopDone_cuttable : Cuttable fun s => .next (stopDone s) := .next (fun _ _ => rfl) fun _ => rfl

theorem quiet_cuttable : Cuttable .next := .next (fun _ _ => rfl) fun _ => rfl

theorem execRep_cuttable (n : BitVec 7) : Cuttable (execRep n) := by
  refine .ite (raise_cuttable .truncatedPacket) (fun bound s t => ?_) fun _ _ => .rfl
  rw [slotAt_limit]
  cases slotAt s 1 with
  | byte v => exact packet_cuttable _ _ _ bound s t
  | empty | endMark => exact fun _ _ => nofun

theorem execLit_cuttable (n : BitVec 7) : Cuttable (execLit n) := by
  refine .ite (raise_cuttable .truncatedPacket) (fun bound s t => ?_) fun _ _ => .rfl
  rw [spanBytes_limit]
  cases spanBytes s 1 n.toNat with
  | some payload => exact packet_cuttable _ _ _ bound s t
  | none => exact fun _ _ => nofun

theorem exec_cuttable (i : Instr) : Cuttable (exec i) := by
  cases i with
  | endStream => exact stopDone_cuttable
  | reserved80 => exact raise_cuttable .reservedCode
  | rep n => exact execRep_cuttable n
  | lit n => exact execLit_cuttable n
  | compress => exact .ite quiet_cuttable (start_cuttable .compress) fun _ _ => .rfl
  | decompress => exact .ite quiet_cuttable (start_cuttable .decompress) fun _ _ => .rfl

theorem frameLit_cuttable (len : Nat) : Cuttable (frameLit len) := by
  intro bound s t
  rw [frameLit, frameLit, spanBytes_limit]
  cases spanBytes s 0 len with
  | some payload => exact outWrites_cuttable _ bound (increment .output (BitVec.ofNat 8 (len + 1)) s) t
  | none => exact fun _ _ => nofun

theorem encIter_cuttable (v : Byte) : Cuttable (encIter v) := by
  intro bound s
  simp only [encIter, runDetect_limit, litScan_limit]
  by_cases hrun : 1 < runDetect s
  · simp only [if_pos hrun]
    exact packet_cuttable [repCode (BitVec.ofNat 7 (runDetect s)), v] 2#8 _ bound s
  · simp only [if_neg hrun]
    exact (frameLit_cuttable (litScan s)).andThen (consume_cuttable _) bound s

theorem terminate_cuttable : Cuttable terminate :=
  .andThen (outWrites_cuttable [0x00#8]) (.next (fun _ _ => rfl) fun _ => rfl)

theorem encStep_cuttable : Cuttable encStep := by
  intro bound s t
  rw [encStep, encStep, slotAt_limit]
  cases slotAt s 0 with
  | endMark => exact terminate_cuttable bound s t
  | byte v => exact encIter_cuttable v bound s t
  | empty => exact fun _ _ => nofun

/-! ### The step -/

theorem phaseStep_cuttable : Cuttable phaseStep := by
  intro bound s t hs
  have hw := not_waits_of_fair hs
  have hw' : ¬Waits (limit bound s) := limit_not_waits
  cases hp : s.phase with
  | enc =>
    rw [phaseStep_enc hp hw, phaseStep_enc (s := limit bound s) hp hw']
    exact encStep_cuttable bound s t hs
  | dec =>
    cases hc : slotAt s 0 with
    | byte c =>
      rw [phaseStep_dec hp hw hc, phaseStep_dec (s := limit bound s) hp hw' hc]
      exact exec_cuttable _ bound s t hs
    | endMark =>
      rw [phaseStep_dec_end hp hw hc, phaseStep_dec_end (s := limit bound s) hp hw' hc]
      exact stopDone_cuttable bound s t hs
    | empty =>
      simp only [phaseStep, phaseAction, hw, hp, hc, if_false, settle]
      exact fun _ => nofun
  | idle | done | error =>
    have hb : s.busy = false := by simp [State.busy, hp]
    rw [phaseStep_not_busy hb, phaseStep_not_busy (s := limit bound s) hb]
    exact quiet_cuttable bound s t hs

/-- Whatever the host does, but for reset and for connecting other streams. -/
theorem eventAction_cuttable {e : HostEvent} (hc : ∀ bytes answers, e ≠ .connect bytes answers)
    (hr : e ≠ .reset) : Cuttable fun s => settle (eventAction e s) := by
  cases e with
  | wait => exact phaseStep_cuttable
  | reset => exact absurd rfl hr
  | connect bytes answers => exact absurd rfl (hc bytes answers)
  | read num =>
    intro bound s t
    have hread : readReg (limit bound s) num = readReg s num := rfl
    simp only [eventAction, hread]
    cases readReg s num with
    | some v => exact phaseStep_cuttable bound (noteRead v (s.tick + 1) s) t
    | none => exact fun _ _ => nofun
  | ctrlWrite v =>
    intro bound s t
    cases hb : s.busy with
    | true =>
      simp only [eventAction, limit_busy, hb, if_true]
      exact phaseStep_cuttable bound s t
    | false =>
      simp only [eventAction, limit_busy, hb, Bool.false_eq_true, if_false]
      cases decodeCtrl v with
      | ok i => exact exec_cuttable i bound s t
      | error _ => exact phaseStep_cuttable bound s t

/-- A step, which begins with no event recorded, where the streams answer `n` requests: what it does under the fairness
assumption, cut at `n` events. -/
theorem step_cut {s t : State} (hno : ∀ bytes answers rest, s.host ≠ .connect bytes answers :: rest)
    (hs : Fair s) (h : step s = .next t) (n : Nat) : CutAt n [] t (step (withAnswers (.upTo n) s)) := by
  cases hh : s.host with
  | nil =>
    rw [step_quiet_nil hh] at h
    rw [step_quiet_nil (s := withAnswers (.upTo n) s) hh]
    exact phaseStep_cuttable n (beginStep s) t hs (Nat.zero_le n) h
  | cons e rest =>
    by_cases hr : e = .reset
    · subst hr
      rw [step_reset hh] at h
      cases h
      rw [step_reset (s := withAnswers (.upTo n) s) hh]
      exact ⟨congrArg Answers.released hs, List.prefix_rfl, fun _ => rfl, nofun⟩
    · rw [step_cons hh] at h
      rw [step_cons (s := withAnswers (.upTo n) s) hh]
      have hc : ∀ bytes answers, e ≠ .connect bytes answers := fun _ _ he => hno _ _ rest (he ▸ hh)
      exact eventAction_cuttable hc hr n (beginStep s) t hs (Nat.zero_le n) h

/-- Settles O57: the step is cut at the number of requests that the streams answer, and a block that waits is BUSY. -/
theorem streamAnswers : Obligations.StreamAnswers := by
  intro s hno
  refine ⟨fun t hs h => (step_cut hno hs h 0).fair, fun t n hn h => ?_⟩
  have hcut := step_cut (s := { s with answers := .always }) hno rfl h n
  have hback : withAnswers (.upTo n) { s with answers := .always } = s := by
    rw [withAnswers, ← hn]
  rw [hback] at hcut
  refine ⟨hcut.answered, fun hlt => ?_⟩
  obtain ⟨u, hu, hw, hevents⟩ := hcut.held hlt
  exact ⟨u, hu, hw, step_waitsInRun (fun hnever => by cases hn.symm.trans hnever) hu hw, hevents⟩

end Sys2Proof.Machine
end
